-- ==== Sys2Proof/Word.lean ====
section
/-! DEFINITION. The three sizes of value the engine handles: the 32-bit word, the byte and the 16-bit code unit
(`00_scope.md` rule R7). Every quantity is unsigned; nothing is ever sign-extended. -/

namespace Sys2Proof

/-- A word: a 32-bit unsigned integer (R7, R100). -/
abbrev Word := BitVec 32

/-- A byte: an 8-bit unsigned integer (R7). -/
abbrev Byte := BitVec 8

/-- A code unit: one 16-bit element of TEXT (R7, R10; decision D1). It is one value and has no byte order. -/
abbrev CodeUnit := BitVec 16

end Sys2Proof
end

