-- ==== Sys2Proof/Config.lean ====
section
/-! DEFINITION. What an implementation of the engine fixes (`00_scope.md` rule R6, second table), the hardwired
constants (`10_state.md` rule R30), and the free values the model uses where the spec calls a value unspecified. -/

namespace Sys2Proof

/-- What the encoder does with a unit of the surrogate band that is not half of a well-formed pair
(parameter `SURROGATE_POLICY`, R6; R126 and R127; decision D3). -/
inductive SurrogatePolicy where
  /-- R126: an ill-formed surrogate raises `ENC_SURROGATE`. The default. -/
  | strict
  /-- R127: any unit of the band takes the next unit as its low half. The spec marks it as reproducing behaviour its
  source calls ambiguous. -/
  | blind
deriving DecidableEq, Repr

/-- The three parameters the spec leaves open (R6). They are constants of one engine: no operation and no host action
changes them (R28: the engine has no configuration register). -/
structure Config where
  /-- `IV`: the eight words START loads into V (R30, D5). -/
  iv : Vector Word 8
  /-- `SURROGATE_POLICY` (D3). -/
  policy : SurrogatePolicy
  /-- `MAX_LEN`: the largest encoded byte length ENCEND accepts (D4). -/
  maxLen : Nat
deriving DecidableEq, Repr

/-- R143, R145: `MAX_LEN` never exceeds 2^61 − 1, so that 8·LEN fits the 64-bit length field. -/
def Config.wf (c : Config) : Bool := decide (c.maxLen ≤ 2 ^ 61 - 1)

/-- The default `IV` of R30. PRESUMED (log entry 1): the spec supplies the words from general knowledge and checks them
against the two digests of its source. -/
def defaultIV : Vector Word 8 :=
  #v[0x7380166F, 0x4914B2B9, 0x172442D7, 0xDA8A0600, 0xA96F30BC, 0x163138AA, 0xE38DEE4D, 0xB0FB0E4E]

/-- The parameters at their defaults (R6). -/
def Config.standard : Config := ⟨defaultIV, .strict, 2 ^ 61 - 1⟩

/-- `T_LO`, the round constant of rounds 0..15 (R30, R113). -/
def tLo : Word := 0x79CC4519

/-- `T_HI`, the round constant of rounds 16..63 (R30, R113). -/
def tHi : Word := 0x7A879D8A

/-- FREE VALUE (log entry 3): the word found in place `slot` of a register file whose content START or a hardware reset
has just made unspecified (R35, R36). `draw` is the model's own counter, so no two draws of one engine are related.
DESIGN CHOICE (log entry 25): two engines at equal `draw` hold equal unspecified words; the spec relates them in no way. -/
opaque Config.freeWord (draw slot : Nat) : Word

/-- FREE VALUE (log entry 3): the natural number found in an unspecified LEN, BLK, NBLK, TPOS, SUB or IDX; equal
in two engines at equal `draw` (DESIGN CHOICE, log entry 25). -/
opaque Config.freeNat (draw slot : Nat) : Nat

/-- FREE VALUE (log entry 3): the bytes found in BUF after a hardware reset (R35); equal in two engines at equal `draw`
(DESIGN CHOICE, log entry 25). -/
opaque Config.freeBytes (draw : Nat) : List Byte

end Sys2Proof
end

