-- ==== Sys2Proof/Syntax.lean ====
section
/-! DEFINITION. The engine's operations: one constructor per row of `spec/opcode_table.json` (`30_encoding.md` rule R80):
the nineteen sequencer operations and the thirteen ALU functions. -/

namespace Sys2Proof

/-- An operation. A sequencer operation's only operand is the 7-bit index of its control word (R78); every other operand
is implicit. An ALU function's operands are the words, the 5-bit amount and the 6-bit round index that the operation using
the function supplies (R79). -/
inductive Instr where
  /-- R191, per-call initialisation. -/
  | start
  /-- R121, one-byte form. -/
  | enc1
  /-- R122, two-byte form. -/
  | enc2
  /-- R123, three-byte form. -/
  | enc3
  /-- R124, four-byte form from a surrogate pair. -/
  | enc4
  /-- R125, end of encoding. -/
  | encend
  /-- R141, the marker byte. -/
  | pad80
  /-- R142, one zero byte. -/
  | padz
  /-- R143, the length field. -/
  | padlen
  /-- R151, load one message word, j in 0..15. -/
  | wload (j : BitVec 7)
  /-- R152, expand one word, j in 16..67. -/
  | wexp (j : BitVec 7)
  /-- R153, one word of the second schedule, j in 0..63. -/
  | wprime (j : BitVec 7)
  /-- R161, block entry. -/
  | cinit
  /-- R163, a round of the first kind, j in 0..15. -/
  | roundl (j : BitVec 7)
  /-- R164, a round of the second kind, j in 16..63. -/
  | roundh (j : BitVec 7)
  /-- R165, chaining feedback. -/
  | cfeed
  /-- R181, serialise. -/
  | dser
  /-- R182, render. -/
  | dhex
  /-- R192, end of a call. -/
  | finish
  /-- R101 -/
  | add32 (x y : Word)
  /-- R102 -/
  | xor32 (x y : Word)
  /-- R103 -/
  | and32 (x y : Word)
  /-- R104 -/
  | or32 (x y : Word)
  /-- R105 -/
  | not32 (x : Word)
  /-- R106, the amount has 5 bits (R79). -/
  | rotl32 (x : Word) (n : BitVec 5)
  /-- R107 -/
  | p0 (x : Word)
  /-- R108 -/
  | p1 (x : Word)
  /-- R109 -/
  | ff0 (x y z : Word)
  /-- R110 -/
  | ff1 (x y z : Word)
  /-- R111 -/
  | gg0 (x y z : Word)
  /-- R112 -/
  | gg1 (x y z : Word)
  /-- R113, the round index has 6 bits (R79). -/
  | tj (j : BitVec 6)
deriving DecidableEq, Repr

end Sys2Proof
end

