-- ==== Sys2Proof/WellFormed.lean ====
section
/-! DEFINITION. Which operations are well formed: the index of an indexed sequencer operation lies in the range
`30_encoding.md` rule R80 gives for it; everything outside is reserved (R82). -/

namespace Sys2Proof

/-- Index `j` lies in the closed range `lo..hi` (R9). -/
def idxIn (j : BitVec 7) (lo hi : Nat) : Bool := decide (lo ≤ j.toNat ∧ j.toNat ≤ hi)

/-- R80's column "idx range". An operation without an index, and an ALU function, has nothing to check: the types of its
operands hold exactly the values R79 allows. -/
def Instr.wellFormed : Instr → Bool
  | .wload j => idxIn j 0 15
  | .wexp j => idxIn j 16 67
  | .wprime j => idxIn j 0 63
  | .roundl j => idxIn j 0 15
  | .roundh j => idxIn j 16 63
  | .start | .enc1 | .enc2 | .enc3 | .enc4 | .encend | .pad80 | .padz | .padlen | .cinit | .cfeed | .dser | .dhex
  | .finish => true
  | .add32 _ _ | .xor32 _ _ | .and32 _ _ | .or32 _ _ | .not32 _ | .rotl32 _ _ | .p0 _ | .p1 _ | .ff0 _ _ _
  | .ff1 _ _ _ | .gg0 _ _ _ | .gg1 _ _ _ | .tj _ => true

end Sys2Proof
end

