-- ==== Sys2Proof/Decode.lean ====
section
/-! DEFINITION. Encodings: the 12-bit sequencer control word (`30_encoding.md` rule R78), the 4-bit ALU function code with
its operand lines (R79), the operation map (R80), what is reserved (R82), the decoder, and the encoder written from the
same map. The codes are the spec's labels: nothing fetches them from a memory (R65, R78). -/

namespace Sys2Proof

/-- An ALU function code and the operand lines that go with it (R79): up to three words, a 5-bit rotation amount and a
6-bit round index. A function reads only the lines of its own operands. DESIGN CHOICE (log entry 10): the spec gives the
lines no places in a word. -/
structure AluCode where
  fn : BitVec 4
  x : Word
  y : Word
  z : Word
  n : BitVec 5
  j : BitVec 6
deriving DecidableEq, Repr

/-- A code of one of the two formats of `spec/opcode_table.json`. -/
inductive Code where
  /-- Format SEQ (R78): bits 11:7 are `op`, bits 6:0 are `idx`. -/
  | seq (scw : BitVec 12)
  /-- Format ALU (R79). -/
  | alu (c : AluCode)
deriving DecidableEq, Repr

/-- Why a code is rejected (R82, U7). -/
inductive DecodeError where
  /-- `op` 0x00 or 0x14..0x1F. -/
  | reservedOp (op : BitVec 5)
  /-- An `idx` outside the range R80 gives for its `op`, or a non-zero `idx` on an operation without an index. -/
  | reservedIdx (op : BitVec 5) (idx : BitVec 7)
  /-- `fn` 0xD..0xF. -/
  | reservedFn (fn : BitVec 4)
deriving DecidableEq, Repr

/-- The decoder's answer. -/
inductive Decoded where
  | instr (i : Instr)
  | rejected (why : DecodeError)
deriving DecidableEq, Repr

/-- The operation, or no operation for a rejected code (U7: a decoder "returns 'no operation' for them"). -/
def Decoded.toOption : Decoded → Option Instr
  | .instr i => some i
  | .rejected _ => none

/-- R78: bits 11:7. -/
def opOf (scw : BitVec 12) : BitVec 5 := scw.extractLsb' 7 5

/-- R78: bits 6:0. -/
def idxOf (scw : BitVec 12) : BitVec 7 := scw.extractLsb' 0 7

/-- An operation without an index: `idx` must be 0 (R78). -/
def plainOp (op : BitVec 5) (idx : BitVec 7) (i : Instr) : Decoded :=
  if idx = 0 then .instr i else .rejected (.reservedIdx op idx)

/-- An operation with an index: `idx` must lie in its range (R80), which is what makes the operation well formed. -/
def indexedOp (op : BitVec 5) (idx : BitVec 7) (i : Instr) : Decoded :=
  if i.wellFormed then .instr i else .rejected (.reservedIdx op idx)

/-- R80, upper table. -/
def decodeOp (op : BitVec 5) (idx : BitVec 7) : Decoded :=
  match op.toNat with
  | 0x01 => plainOp op idx .start
  | 0x02 => plainOp op idx .enc1
  | 0x03 => plainOp op idx .enc2
  | 0x04 => plainOp op idx .enc3
  | 0x05 => plainOp op idx .enc4
  | 0x06 => plainOp op idx .encend
  | 0x07 => plainOp op idx .pad80
  | 0x08 => plainOp op idx .padz
  | 0x09 => plainOp op idx .padlen
  | 0x0A => indexedOp op idx (.wload idx)
  | 0x0B => indexedOp op idx (.wexp idx)
  | 0x0C => indexedOp op idx (.wprime idx)
  | 0x0D => plainOp op idx .cinit
  | 0x0E => indexedOp op idx (.roundl idx)
  | 0x0F => indexedOp op idx (.roundh idx)
  | 0x10 => plainOp op idx .cfeed
  | 0x11 => plainOp op idx .dser
  | 0x12 => plainOp op idx .dhex
  | 0x13 => plainOp op idx .finish
  | _ => .rejected (.reservedOp op)

/-- A sequencer control word, read. -/
def decodeSeq (scw : BitVec 12) : Decoded := decodeOp (opOf scw) (idxOf scw)

/-- R80, lower table. -/
def decodeAlu (c : AluCode) : Decoded :=
  match c.fn.toNat with
  | 0x0 => .instr (.add32 c.x c.y)
  | 0x1 => .instr (.xor32 c.x c.y)
  | 0x2 => .instr (.and32 c.x c.y)
  | 0x3 => .instr (.or32 c.x c.y)
  | 0x4 => .instr (.not32 c.x)
  | 0x5 => .instr (.rotl32 c.x c.n)
  | 0x6 => .instr (.p0 c.x)
  | 0x7 => .instr (.p1 c.x)
  | 0x8 => .instr (.ff0 c.x c.y c.z)
  | 0x9 => .instr (.ff1 c.x c.y c.z)
  | 0xA => .instr (.gg0 c.x c.y c.z)
  | 0xB => .instr (.gg1 c.x c.y c.z)
  | 0xC => .instr (.tj c.j)
  | _ => .rejected (.reservedFn c.fn)

/-- The decoder: total on every code of either format, rejecting by name. -/
def decode : Code → Decoded
  | .seq scw => decodeSeq scw
  | .alu c => decodeAlu c

/-- R80: "SCW value = `op`·128 + `idx`". -/
def scwOf (op : BitVec 5) (idx : BitVec 7) : BitVec 12 := op ++ idx

/-- The encoder, from R80's tables. Operand lines a function does not have are 0. -/
def encode : Instr → Code
  | .start => .seq (scwOf 0x01 0)
  | .enc1 => .seq (scwOf 0x02 0)
  | .enc2 => .seq (scwOf 0x03 0)
  | .enc3 => .seq (scwOf 0x04 0)
  | .enc4 => .seq (scwOf 0x05 0)
  | .encend => .seq (scwOf 0x06 0)
  | .pad80 => .seq (scwOf 0x07 0)
  | .padz => .seq (scwOf 0x08 0)
  | .padlen => .seq (scwOf 0x09 0)
  | .wload j => .seq (scwOf 0x0A j)
  | .wexp j => .seq (scwOf 0x0B j)
  | .wprime j => .seq (scwOf 0x0C j)
  | .cinit => .seq (scwOf 0x0D 0)
  | .roundl j => .seq (scwOf 0x0E j)
  | .roundh j => .seq (scwOf 0x0F j)
  | .cfeed => .seq (scwOf 0x10 0)
  | .dser => .seq (scwOf 0x11 0)
  | .dhex => .seq (scwOf 0x12 0)
  | .finish => .seq (scwOf 0x13 0)
  | .add32 x y => .alu ⟨0x0, x, y, 0, 0, 0⟩
  | .xor32 x y => .alu ⟨0x1, x, y, 0, 0, 0⟩
  | .and32 x y => .alu ⟨0x2, x, y, 0, 0, 0⟩
  | .or32 x y => .alu ⟨0x3, x, y, 0, 0, 0⟩
  | .not32 x => .alu ⟨0x4, x, 0, 0, 0, 0⟩
  | .rotl32 x n => .alu ⟨0x5, x, 0, 0, n, 0⟩
  | .p0 x => .alu ⟨0x6, x, 0, 0, 0, 0⟩
  | .p1 x => .alu ⟨0x7, x, 0, 0, 0, 0⟩
  | .ff0 x y z => .alu ⟨0x8, x, y, z, 0, 0⟩
  | .ff1 x y z => .alu ⟨0x9, x, y, z, 0, 0⟩
  | .gg0 x y z => .alu ⟨0xA, x, y, z, 0, 0⟩
  | .gg1 x y z => .alu ⟨0xB, x, y, z, 0, 0⟩
  | .tj j => .alu ⟨0xC, 0, 0, 0, 0, j⟩

/-- The code an opcode-table row's bits stand for: a row of at most 8 bits is of format ALU (its width is 4), a longer one
of format SEQ (its width is 12); bits above the row's width must be 0. The table gives an ALU row no operand bits, so its
operand lines are 0 (log entry 17). -/
def Code.ofTable (nbits w : Nat) : Option Code :=
  if nbits ≤ 8 then
    if w < 16 then some (.alu ⟨BitVec.ofNat 4 w, 0, 0, 0, 0, 0⟩) else none
  else if nbits ≤ 16 then
    if w < 4096 then some (.seq (BitVec.ofNat 12 w)) else none
  else none

/-- The operation this decoder reads from an opcode-table row's bits. -/
def decodeTableWord (nbits w : Nat) : Option Instr :=
  match Code.ofTable nbits w with
  | some c => (decode c).toOption
  | none => none

end Sys2Proof
end

