-- ==== Sys2Proof/Machine/State.lean ====
section
/-! DEFINITION. The state of one engine (`10_state.md` rule R20), plain data, with the reasons a step can stop and the
state right after power-on. -/

namespace Sys2Proof.Machine

/-- `PHASE` (R25): which stage is running. -/
inductive Phase where
  | idle | encode | pad | sched | compress | format | done | faulted
deriving DecidableEq, Repr

/-- The sequencer triple `seq` = (PHASE, SUB, IDX), what stands in place of a program counter (R25). -/
structure Seq where
  phase : Phase
  /-- Sub-step inside a phase, 0..2. -/
  sub : Nat
  /-- Index of the next indexed operation, 0..67. -/
  idx : Nat
deriving DecidableEq, Repr

/-- The working registers A..H (R22). -/
structure Work where
  a : Word
  b : Word
  c : Word
  d : Word
  e : Word
  f : Word
  g : Word
  h : Word
deriving DecidableEq, Repr

/-- A byte space that is written at given indices, DIGEST or HEX (R50, R54): the bytes written, by rising index. An index
that is not listed holds no value (R35; log entry 4). -/
abbrev Memory := List Host.Cell

/-- The canonical form of a byte space: indices strictly rising. -/
abbrev Memory.wf (m : Memory) : Prop := m.Pairwise (fun p q => p.1 < q.1)

/-- What the outside does at one step (R67, R222, R240; log entry 5). -/
inductive HostEvent where
  /-- Nothing: the engine moves. -/
  | wait
  /-- The HASH command (R195). -/
  | hash
  /-- The host places a complete TEXT; N is its length (R51, R195). -/
  | writeText (units : List CodeUnit)
  /-- A hardware reset (R240). -/
  | hardReset
deriving DecidableEq, Repr

/-- Why the machine stops with a fault. The engine's own two faults are not here: they are states (`PHASE` = FAULTED,
R216, R218). These are accesses to an element the spec says does not exist or holds no value; no run from a legal state
reaches them (R37, R57). -/
inductive Fault where
  /-- Raised by ENC1..ENC4: TEXT has no unit at TPOS (R51: indices 0..N−1). Safe. -/
  | textIndex
  /-- Raised by WLOAD: BUF has no byte at 64·BLK + 4·j + 3 (R50: indices below len(BUF)). Safe. -/
  | bufIndex
  /-- Raised by DHEX: a byte of DIGEST that nothing has written since START (R37, D24: "must fault on a read of it").
  Safe. -/
  | digestUnwritten
deriving DecidableEq, Repr

/-- Why a step is refused. -/
inductive Refusal where
  /-- An operation with no meaning in this model. Safe. -/
  | notModelled (mnemonic : String)
  /-- Raised by WLOAD, WEXP, WPRIME, ROUNDL, ROUNDH on a reserved index (R82, U7: "refuse"). Safe. -/
  | reservedIndex
  /-- Raised by the ALU port on a function code 0xD..0xF (R82, U7: "refuse"). Safe. -/
  | reservedFunction
  /-- Raised by ENC1..ENC4, ENCEND, PADZ, PADLEN where the condition under which their rule has the sequencer select them
  does not hold (R121..R125, R142, R143, R193 "There are no other transitions"; log entry 12). Safe. -/
  | notSelected
  /-- Raised by CFEED and by the sequencer in a state with no row in R193's table (log entry 13). Safe. -/
  | noTransition
  /-- Raised by the host interface when the script has the host write TEXT while `BUSY` = 1 (U6: "refuse"; log entry 7).
  Unsafe as U6 says: a claim holds only for hosts that keep the contract. -/
  | textWriteWhileBusy
deriving DecidableEq, Repr

/-- The state of one engine. The fields down to `finfo` are the spec's; `host`, `aluReq`, `aluOut` and `draws` are the
model's own. -/
structure State where
  /-- The engine's parameters, constants (R6). -/
  cfg : Config
  /-- `V[0..7]`, the chaining value (R21). -/
  v : Vector Word 8
  /-- `A B C D E F G H` (R22). -/
  work : Work
  /-- `W[0..67]` (R31). -/
  w : Vector Word 68
  /-- `Wp[0..63]` (R32). -/
  wp : Vector Word 64
  /-- `TEXT[0..N−1]`; N is its length (R51). -/
  text : List CodeUnit
  /-- `BUF`, a sequence of bytes (R52). -/
  buf : List Byte
  /-- `LEN` (R29). -/
  len : Nat
  /-- `DIGEST[0..31]` (R54). -/
  digest : Memory
  /-- `HEX[0..63]` (R54). -/
  hex : Memory
  /-- `PHASE`, `SUB`, `IDX` (R25). -/
  seq : Seq
  /-- `TPOS`, index of the next unread unit (R25). -/
  tpos : Nat
  /-- `BLK`, index of the block being processed (R25). -/
  blk : Nat
  /-- `NBLK`, number of blocks (R25). -/
  nblk : Nat
  /-- `BUSY` (R27). -/
  busy : Bool
  /-- `DONE` (R27). -/
  done : Bool
  /-- `FAULT` (R27). -/
  fault : Bool
  /-- `CAUSE`, 2 bits (R28). -/
  cause : BitVec 2
  /-- `FINFO`, a natural number (R28; conflict C11). -/
  finfo : Nat
  /-- MODEL'S OWN: what the outside does at the next steps, one entry a step (log entry 5). -/
  host : List HostEvent
  /-- MODEL'S OWN: an ALU function presented for evaluation by itself (log entry 9). -/
  aluReq : Option AluCode
  /-- MODEL'S OWN: the result of the last ALU function evaluated by itself; nothing reads it (log entry 9). -/
  aluOut : Word
  /-- MODEL'S OWN: how many times free values have been drawn (log entry 3). -/
  draws : Nat
deriving DecidableEq, Repr

/-- All eight working registers at 0. -/
def Work.zero : Work := ⟨0, 0, 0, 0, 0, 0, 0, 0⟩

/-- The state right after power-on (R35): `PHASE` = IDLE, the flags, CAUSE and FINFO 0; TEXT and BUF empty, DIGEST and HEX
with nothing listed. The spec leaves V, A..H, W, Wp, LEN, SUB, IDX, TPOS, BLK and NBLK unspecified; the 0 they hold here is
a DESIGN CHOICE (log entry 2), unsafe, and no statement rests on it. -/
def State.reset : State where
  cfg := Config.standard
  v := Vector.replicate 8 0
  work := Work.zero
  w := Vector.replicate 68 0
  wp := Vector.replicate 64 0
  text := []
  buf := []
  len := 0
  digest := []
  hex := []
  seq := ⟨.idle, 0, 0⟩
  tpos := 0
  blk := 0
  nblk := 0
  busy := false
  done := false
  fault := false
  cause := 0
  finfo := 0
  host := []
  aluReq := none
  aluOut := 0
  draws := 0

end Sys2Proof.Machine
end

