-- ==== Sys2Proof/Machine/Flags.lean ====
section
/-! DEFINITION. The status flags BUSY, DONE, FAULT, the host-visible STATUS, CAUSE and FINFO (`10_state.md` rules R27,
R28), and what a host read of DIGEST and HEX gives (`20_memory.md` rule R67). No operation computes a carry, zero, sign or
overflow flag (R27, R100). -/

namespace Sys2Proof.Machine

/-- The three flags, written together. -/
def State.setFlags (s : State) (busy done fault : Bool) : State := { s with busy := busy, done := done, fault := fault }

/-- R28: `CAUSE` 0, no fault recorded. -/
def causeNone : BitVec 2 := 0

/-- R211: `CAUSE` 1. -/
def causeEncSurrogate : BitVec 2 := 1

/-- R211: `CAUSE` 2. -/
def causeLenRange : BitVec 2 := 2

/-- `STATUS` as the host reads it (R28): bit 0 BUSY, bit 1 DONE, bit 2 FAULT. -/
def State.status (s : State) : BitVec 3 := BitVec.ofBool s.fault ++ BitVec.ofBool s.done ++ BitVec.ofBool s.busy

/-- R27: BUSY "equals `PHASE` ∉ {`IDLE`, `DONE`, `FAULTED`}". -/
def Phase.isBusy : Phase → Bool
  | .idle | .done | .faulted => false
  | .encode | .pad | .sched | .compress | .format => true

end Sys2Proof.Machine
end

