-- ==== Sys2Proof/Machine/Ops.lean ====
section
/-! DEFINITION. The named operations over the engine's state: byte spaces with MemRead and MemWrite (`20_memory.md` rule
R56), writes of the registers, what START and a hardware reset make unspecified, and the entry into a fault
(`60_exceptions.md` rule R216). -/

namespace Sys2Proof.Machine

/-! ## Byte spaces and byte order -/

/-- The byte at an index, if one has been written. -/
def Memory.read : Memory → Nat → Option Byte
  | [], _ => none
  | (k, c) :: m, a => if k = a then some c else Memory.read m a

/-- The byte at an index, written; the canonical form is kept. -/
def Memory.write : Memory → Nat → Byte → Memory
  | [], a, b => [(a, b)]
  | (k, c) :: m, a, b =>
    if a < k then (a, b) :: (k, c) :: m
    else if a = k then (a, b) :: m
    else (k, c) :: Memory.write m a b

/-- Bytes written at rising indices from `a`. -/
def Memory.writeBytes (m : Memory) (a : Nat) : List Byte → Memory
  | [] => m
  | b :: bs => Memory.writeBytes (m.write a b) (a + 1) bs

/-- The `n` bytes from index `a`, if all are written. -/
def Memory.readBytes (m : Memory) (a : Nat) : Nat → Option (List Byte)
  | 0 => some []
  | n + 1 =>
    match m.read a, Memory.readBytes m (a + 1) n with
    | some b, some bs => some (b :: bs)
    | _, _ => none

/-- The n-byte big-endian image of a number (R55, R56): byte k is (v div 256^(n−1−k)) mod 256. -/
def beBytes (n v : Nat) : List Byte := (List.range n).map fun k => BitVec.ofNat 8 (v / 256 ^ (n - 1 - k))

/-- MemRead on BUF (R56): the n-byte big-endian number at index `a`, if BUF has all n bytes. -/
def memRead (buf : List Byte) (a : Nat) : Nat → Option Nat
  | 0 => some 0
  | n + 1 =>
    match buf[a]?, memRead buf (a + 1) n with
    | some b, some v => some (b.toNat * 256 ^ n + v)
    | _, _ => none

/-- MemWrite (R56): the n-byte big-endian image of `v` at index `a`. -/
def Memory.memWrite (m : Memory) (a n v : Nat) : Memory := m.writeBytes a (beBytes n v)

/-! ## Writes of the state -/

/-- `seq <- (PHASE, SUB, IDX)` (R8). -/
def State.moveTo (s : State) (q : Seq) : State := { s with seq := q }

/-- `Append(BUF, b)` for each byte of a list, in order (R8, R52). -/
def State.append (s : State) (bs : List Byte) : State := { s with buf := s.buf ++ bs }

/-- `TPOS <- TPOS + n`. -/
def State.advance (s : State) (n : Nat) : State := { s with tpos := s.tpos + n }

/-- `LEN <- n` (R125). -/
def State.setLen (s : State) (n : Nat) : State := { s with len := n }

/-- `NBLK <- n; BLK <- b` (R143). -/
def State.setBlocks (s : State) (n b : Nat) : State := { s with nblk := n, blk := b }

/-- `BLK <- b` (R165). -/
def State.setBlk (s : State) (b : Nat) : State := { s with blk := b }

/-- `W[k] <- x` (R31). -/
def State.setW (s : State) (k : Fin 68) (x : Word) : State := { s with w := s.w.set k x }

/-- `Wp[k] <- x` (R32). -/
def State.setWp (s : State) (k : Fin 64) (x : Word) : State := { s with wp := s.wp.set k x }

/-- The eight working registers, written simultaneously (R22, R166). -/
def State.setWork (s : State) (r : Work) : State := { s with work := r }

/-- The eight words of V, written simultaneously (R21). -/
def State.setV (s : State) (v : Vector Word 8) : State := { s with v := v }

/-- DIGEST, written (R54). -/
def State.setDigest (s : State) (m : Memory) : State := { s with digest := m }

/-- HEX, written (R54). -/
def State.setHex (s : State) (m : Memory) : State := { s with hex := m }

/-- TEXT and N, written by the host (R51). -/
def State.setText (s : State) (units : List CodeUnit) : State := { s with text := units }

/-- What is left of the host's script. -/
def State.setHost (s : State) (rest : List HostEvent) : State := { s with host := rest }

/-- The result of an ALU function evaluated by itself (log entry 9): the request is answered. -/
def State.answerAlu (s : State) (x : Word) : State := { s with aluOut := x, aluReq := none }

/-! ## State made unspecified -/

/-- Eight free words from slot `k` on. -/
def freeWork (draw k : Nat) : Work :=
  ⟨Config.freeWord draw k, Config.freeWord draw (k + 1), Config.freeWord draw (k + 2), Config.freeWord draw (k + 3),
    Config.freeWord draw (k + 4), Config.freeWord draw (k + 5), Config.freeWord draw (k + 6), Config.freeWord draw (k + 7)⟩

/-- R36, R191: "LEN, BLK, NBLK, A..H, W, Wp, DIGEST, HEX become unspecified". A register takes a free value; a byte of
DIGEST or HEX holds no value (log entries 3 and 4). DESIGN CHOICE (log entry 25): the free values depend on `draws` and the
slot only, so two engines at equal `draws` hold equal ones, a relation the spec does not grant. -/
def State.invalidate (s : State) : State :=
  { s with
    work := freeWork s.draws 0
    w := Vector.ofFn fun k => Config.freeWord s.draws (8 + k)
    wp := Vector.ofFn fun k => Config.freeWord s.draws (76 + k)
    len := Config.freeNat s.draws 0
    blk := Config.freeNat s.draws 1
    nblk := Config.freeNat s.draws 2
    digest := []
    hex := []
    draws := s.draws + 1 }

/-- A hardware reset in any state (R35, R240): `PHASE` ← IDLE, the flags, CAUSE and FINFO ← 0, every other state element
unspecified; SUB, IDX and TPOS stay in the ranges R25 gives them. TEXT and N are the host's and the parameters are
constants: they keep their values (log entry 8). Two engines at equal `draws` hold equal free values (log entry 25). -/
def State.hardReset (s : State) : State :=
  { s.invalidate with
    v := Vector.ofFn fun k => Config.freeWord s.draws (140 + k)
    buf := Config.freeBytes s.draws
    seq := ⟨.idle, Config.freeNat s.draws 3 % 3, Config.freeNat s.draws 4 % 68⟩
    tpos := Config.freeNat s.draws 5 % (s.text.length + 1)
    busy := false
    done := false
    fault := false
    cause := causeNone
    finfo := 0 }

/-! ## The entry into a fault, and the ways out -/

/-- `raise Fault(cause, info)` (R216), the engine's one exception entry: CAUSE and FINFO are written, BUSY and DONE are
cleared, FAULT is set, PHASE becomes FAULTED, and nothing else is written. No state is saved and control goes nowhere.
What every other element holds afterwards means nothing (U4); the model keeps it (DESIGN CHOICE, log entry 26).
There is no return from a fault (R219): the ways out are a new HASH command (START) and `State.hardReset`. -/
def State.raise (s : State) (cause : BitVec 2) (info : Nat) : State :=
  { s with cause := cause, finfo := info, busy := false, done := false, fault := true, seq := { s.seq with phase := .faulted } }

end Sys2Proof.Machine
end

