-- ==== Sys2Proof/Machine/Operands.lean ====
section
/-! DEFINITION. How operands are formed: the class of a code unit (`30_encoding.md` rule R72), surrogate pairs (R73,
`41_byte_encoder.md` rules R126 and R127), the byte forms of a character (R71), message words (R75), the padding count
(R74), and hexadecimal digits (R77). -/

namespace Sys2Proof.Machine

/-! ## Code units -/

/-- The class of a code unit (R72). -/
inductive UnitClass where
  | oneByte | twoByte | surrogate | threeByte
deriving DecidableEq, Repr

/-- R72: a priority decode, the first matching row wins. -/
def classify (u : CodeUnit) : UnitClass :=
  if u &&& 0xFF80 = 0 then .oneByte
  else if u &&& 0xF800 = 0 then .twoByte
  else if u &&& 0xF800 = 0xD800 then .surrogate
  else .threeByte

/-- R72: a high surrogate, 0xD800..0xDBFF. -/
def isHigh (u : CodeUnit) : Bool := u &&& 0xFC00 == 0xD800

/-- R72: a low surrogate, 0xDC00..0xDFFF. -/
def isLow (u : CodeUnit) : Bool := u &&& 0xFC00 == 0xDC00

/-- Whether a unit of the surrogate band starts an admitted pair, given the next unit if TEXT has one: R126 under
`strict`, R127 under `blind`. -/
def pairLow (policy : SurrogatePolicy) (u : CodeUnit) (next : Option CodeUnit) : Option CodeUnit :=
  match policy, next with
  | _, none => none
  | .strict, some lo => if isHigh u && isLow lo then some lo else none
  | .blind, some lo => some lo

/-- R73: the code point of a pair. -/
def pairPoint (hi lo : CodeUnit) : Nat := (((hi.toNat &&& 0x3FF) <<< 10) ||| (lo.toNat &&& 0x3FF)) + 0x10000

/-- A natural number taken as a byte (R8). -/
def byteOf (n : Nat) : Byte := BitVec.ofNat 8 n

/-- A continuation byte: `0x80 | (x & 0x3F)` (R71). -/
def contByte (x : Nat) : Byte := byteOf (0x80 ||| (x &&& 0x3F))

/-- R71, one byte, verbatim. -/
def form1 (cp : Nat) : List Byte := [byteOf cp]

/-- R71, two bytes. -/
def form2 (cp : Nat) : List Byte := [byteOf (0xC0 ||| (cp >>> 6)), contByte cp]

/-- R71, three bytes. PRESUMED (log entry 19). -/
def form3 (cp : Nat) : List Byte := [byteOf (0xE0 ||| (cp >>> 12)), contByte (cp >>> 6), contByte cp]

/-- R71, four bytes. PRESUMED (log entry 19). -/
def form4 (cp : Nat) : List Byte :=
  [byteOf (0xF0 ||| (cp >>> 18)), contByte (cp >>> 12), contByte (cp >>> 6), contByte cp]

/-- The unit at an index of TEXT, if TEXT has one (R51). -/
def State.unit? (s : State) (k : Nat) : Option CodeUnit := s.text[k]?

/-- `N`, the number of units of TEXT (R51). -/
def State.numUnits (s : State) : Nat := s.text.length

/-! ## Blocks and lengths -/

/-- The index in BUF of the first byte of word `j` of block `blk` (R57, R151). -/
def wordIndex (blk j : Nat) : Nat := 64 * blk + 4 * j

/-- Word `j` of block `blk` of BUF, big-endian, if BUF has it (R75, R151). -/
def messageWord (buf : List Byte) (blk j : Nat) : Option Word :=
  match memRead buf (wordIndex blk j) 4 with
  | some v => some (BitVec.ofNat 32 v)
  | none => none

/-- R74, R142: the number k of zero bytes for a message of `l` bytes, the least k with l + 1 + k ≡ 56 (mod 64), written
without a subtraction that could go below 0. -/
def zeroCount (l : Nat) : Nat := (119 - l % 64) % 64

/-- R143: the 8-byte big-endian image of the bit length 8·l. -/
def lengthField (l : Nat) : List Byte := beBytes 8 (8 * l)

/-! ## Digits -/

/-- R182: the character code of a hexadecimal digit, upper case. PRESUMED (log entry 19): ASCII. -/
def hexDigit (n : Nat) : Byte := if n ≤ 9 then byteOf (0x30 + n) else byteOf (0x41 + (n - 10))

/-- R182: the two characters of a byte, high nibble first. -/
def hexPair (b : Byte) : List Byte := [hexDigit (b.toNat / 16), hexDigit (b.toNat % 16)]

/-- R77, R182: the characters of a byte sequence. -/
def hexImage (bs : List Byte) : List Byte := bs.flatMap hexPair

end Sys2Proof.Machine
end

