-- ==== Sys2Proof/Machine/Alu.lean ====
section
/-! DEFINITION. The thirteen ALU functions (`40_alu_primitives.md`), the selection by round index (R114), and the meaning of
an ALU function evaluated by itself. Each is a pure function of its operands: no flag, no fault (R100). -/

namespace Sys2Proof.Machine

/-- R101: (x + y) mod 2^32. -/
def add32 (x y : Word) : Word := x + y

/-- R102 -/
def xor32 (x y : Word) : Word := x ^^^ y

/-- R103 -/
def and32 (x y : Word) : Word := x &&& y

/-- R104 -/
def or32 (x y : Word) : Word := x ||| y

/-- R105 -/
def not32 (x : Word) : Word := ~~~x

/-- R106: 32-bit circular left rotation; an amount of 32 or more is reduced modulo 32 (U9), and by 0 is the identity
(R251). -/
def rotl (x : Word) (n : Nat) : Word := x.rotateLeft (n % 32)

/-- R107 -/
def p0 (x : Word) : Word := xor32 (xor32 x (rotl x 9)) (rotl x 17)

/-- R108 -/
def p1 (x : Word) : Word := xor32 (xor32 x (rotl x 15)) (rotl x 23)

/-- R109 -/
def ff0 (x y z : Word) : Word := xor32 (xor32 x y) z

/-- R110: bitwise majority. -/
def ff1 (x y z : Word) : Word := or32 (or32 (and32 x y) (and32 x z)) (and32 y z)

/-- R111 -/
def gg0 (x y z : Word) : Word := xor32 (xor32 x y) z

/-- R112: bit by bit, y where x has a 1 and z where x has a 0. -/
def gg1 (x y z : Word) : Word := or32 (and32 x y) (and32 (not32 x) z)

/-- R113 -/
def tConst (j : Nat) : Word := if j ≤ 15 then tLo else tHi

/-- R114 -/
def ff (j : Nat) (x y z : Word) : Word := if j ≤ 15 then ff0 x y z else ff1 x y z

/-- R114 -/
def gg (j : Nat) (x y z : Word) : Word := if j ≤ 15 then gg0 x y z else gg1 x y z

/-! ## An ALU function evaluated by itself

The functions are parts of operations, not steps of the sequencer (R84). Evaluated by itself on given operands, a function
puts its result on the model's own `aluOut` and touches nothing of the engine's state (R24; log entry 9). -/

/-- R101 -/
def execAdd32 (x y : Word) (s : State) : Host.Outcome State Fault Refusal := .next (s.answerAlu (add32 x y))

/-- R102 -/
def execXor32 (x y : Word) (s : State) : Host.Outcome State Fault Refusal := .next (s.answerAlu (xor32 x y))

/-- R103 -/
def execAnd32 (x y : Word) (s : State) : Host.Outcome State Fault Refusal := .next (s.answerAlu (and32 x y))

/-- R104 -/
def execOr32 (x y : Word) (s : State) : Host.Outcome State Fault Refusal := .next (s.answerAlu (or32 x y))

/-- R105 -/
def execNot32 (x : Word) (s : State) : Host.Outcome State Fault Refusal := .next (s.answerAlu (not32 x))

/-- R106 -/
def execRotl32 (x : Word) (n : BitVec 5) (s : State) : Host.Outcome State Fault Refusal :=
  .next (s.answerAlu (rotl x n.toNat))

/-- R107 -/
def execP0 (x : Word) (s : State) : Host.Outcome State Fault Refusal := .next (s.answerAlu (p0 x))

/-- R108 -/
def execP1 (x : Word) (s : State) : Host.Outcome State Fault Refusal := .next (s.answerAlu (p1 x))

/-- R109 -/
def execFf0 (x y z : Word) (s : State) : Host.Outcome State Fault Refusal := .next (s.answerAlu (ff0 x y z))

/-- R110 -/
def execFf1 (x y z : Word) (s : State) : Host.Outcome State Fault Refusal := .next (s.answerAlu (ff1 x y z))

/-- R111 -/
def execGg0 (x y z : Word) (s : State) : Host.Outcome State Fault Refusal := .next (s.answerAlu (gg0 x y z))

/-- R112 -/
def execGg1 (x y z : Word) (s : State) : Host.Outcome State Fault Refusal := .next (s.answerAlu (gg1 x y z))

/-- R113 -/
def execTj (j : BitVec 6) (s : State) : Host.Outcome State Fault Refusal := .next (s.answerAlu (tConst j.toNat))

end Sys2Proof.Machine
end

