-- ==== Sys2Proof/Machine/Sequencer.lean ====
section
/-! DEFINITION. The sequencer (`46_top_level_hash.md` rule R193): which operation a state issues, and the state after each
indexed operation and after the feedback. The next states of the other operations are constants and stand in their
meanings. -/

namespace Sys2Proof.Machine

/-- What the sequencer does next. -/
inductive Selection where
  /-- Issue no operation and stay (row 2). -/
  | quiet
  /-- Issue an operation. -/
  | issue (i : Instr)
  /-- Issue none and raise a fault (row 7). -/
  | raise (cause : BitVec 2) (info : Nat)
  /-- No row of the table covers the state; no run reaches it (log entry 13). -/
  | outside
deriving DecidableEq, Repr

/-- Rows 3 to 8, conditions on TPOS, N and TEXT. -/
def selectEncode (s : State) : Selection :=
  if s.tpos = s.numUnits then .issue .encend
  else
    match s.unit? s.tpos with
    | none => .outside
    | some u =>
      match classify u with
      | .oneByte => .issue .enc1
      | .twoByte => .issue .enc2
      | .threeByte => .issue .enc3
      | .surrogate =>
        match pairLow s.cfg.policy u (s.unit? (s.tpos + 1)) with
        | some _ => .issue .enc4
        | none => .raise causeEncSurrogate s.tpos

/-- Rows 9 to 11. -/
def selectPad (s : State) : Selection :=
  match s.seq.sub with
  | 0 => .issue .pad80
  | 1 => if s.buf.length % 64 = 56 then .issue .padlen else .issue .padz
  | _ => .outside

/-- Rows 12 to 14. -/
def selectSched (q : Seq) : Selection :=
  match q.sub with
  | 0 => if q.idx ≤ 15 then .issue (.wload (BitVec.ofNat 7 q.idx)) else .outside
  | 1 => if 16 ≤ q.idx ∧ q.idx ≤ 67 then .issue (.wexp (BitVec.ofNat 7 q.idx)) else .outside
  | 2 => if q.idx ≤ 63 then .issue (.wprime (BitVec.ofNat 7 q.idx)) else .outside
  | _ => .outside

/-- Rows 15 to 19. -/
def selectCompress (q : Seq) : Selection :=
  match q.sub with
  | 0 => .issue .cinit
  | 1 =>
    if q.idx ≤ 15 then .issue (.roundl (BitVec.ofNat 7 q.idx))
    else if q.idx ≤ 63 then .issue (.roundh (BitVec.ofNat 7 q.idx))
    else .outside
  | 2 => .issue .cfeed
  | _ => .outside

/-- Rows 20 to 22. -/
def selectFormat (q : Seq) : Selection :=
  match q.sub with
  | 0 => .issue .dser
  | 1 => .issue .dhex
  | 2 => .issue .finish
  | _ => .outside

/-- R193, rows 2 to 22, on the state before the operation. Row 1 is the host's command (`hostStep`). -/
def select (s : State) : Selection :=
  match s.seq.phase with
  | .idle | .done | .faulted => .quiet
  | .encode => selectEncode s
  | .pad => selectPad s
  | .sched => selectSched s.seq
  | .compress => selectCompress s.seq
  | .format => selectFormat s.seq

/-- Row 12, next state. -/
def seqAfterWload (j : Nat) : Seq := if j < 15 then ⟨.sched, 0, j + 1⟩ else ⟨.sched, 1, 16⟩

/-- Row 13, next state. -/
def seqAfterWexp (j : Nat) : Seq := if j < 67 then ⟨.sched, 1, j + 1⟩ else ⟨.sched, 2, 0⟩

/-- Row 14, next state. -/
def seqAfterWprime (j : Nat) : Seq := if j < 63 then ⟨.sched, 2, j + 1⟩ else ⟨.compress, 0, 0⟩

/-- Rows 16 and 17, next state. -/
def seqAfterRound (j : Nat) : Seq := if j < 63 then ⟨.compress, 1, j + 1⟩ else ⟨.compress, 2, 0⟩

/-- Rows 18 and 19, next state, on BLK and NBLK before the feedback; the table has no row for BLK + 1 > NBLK. -/
def seqAfterCfeed (blk nblk : Nat) : Option Seq :=
  if blk + 1 < nblk then some ⟨.sched, 0, 0⟩
  else if blk + 1 = nblk then some ⟨.format, 0, 0⟩
  else none

end Sys2Proof.Machine
end

