-- ==== Sys2Proof/Machine/Compression.lean ====
section
/-! DEFINITION. The compression core (`44_compression_core.md`): CINIT, ROUNDL, ROUNDH, CFEED. -/

namespace Sys2Proof.Machine

/-- The eight words of V as working registers, position by position (R21, R161). -/
def workOf (v : Vector Word 8) : Work := ⟨v[0], v[1], v[2], v[3], v[4], v[5], v[6], v[7]⟩

/-- R161 -/
def execCinit (s : State) : Host.Outcome State Fault Refusal := .next ((s.setWork (workOf s.v)).moveTo ⟨.compress, 1, 0⟩)

/-- R162: SS1 from A, E and the rotated constant; the three-term sum is reduced before the rotation. -/
def ss1 (t : Word) (j : Nat) (r : Work) : Word := rotl (add32 (add32 (rotl r.a 12) r.e) (rotl t (j % 32))) 7

/-- R162: SS2. -/
def ss2 (t : Word) (j : Nat) (r : Work) : Word := xor32 (ss1 t j r) (rotl r.a 12)

/-- R162: TT1, with W′. -/
def tt1 (f : Word → Word → Word → Word) (t : Word) (j : Nat) (r : Work) (wpj : Word) : Word :=
  add32 (add32 (add32 (f r.a r.b r.c) r.d) (ss2 t j r)) wpj

/-- R162: TT2, with W. -/
def tt2 (g : Word → Word → Word → Word) (t : Word) (j : Nat) (r : Work) (wj : Word) : Word :=
  add32 (add32 (add32 (g r.e r.f r.g) r.h) (ss1 t j r)) wj

/-- R162: the round, one parallel assignment in which every right-hand side reads the old registers (R166). `f`, `g` and
`t` are the round's FF, GG and T. -/
def roundWork (f g : Word → Word → Word → Word) (t : Word) (j : Nat) (r : Work) (wj wpj : Word) : Work where
  d := r.c
  c := rotl r.b 9
  b := r.a
  a := tt1 f t j r wpj
  h := r.g
  g := rotl r.f 19
  f := r.e
  e := p0 (tt2 g t j r wj)

/-- R163 -/
def execRoundl (j : BitVec 7) (s : State) : Host.Outcome State Fault Refusal :=
  if h : j.toNat ≤ 15 then
    .next ((s.setWork (roundWork ff0 gg0 tLo j.toNat s.work s.w[j.toNat] s.wp[j.toNat])).moveTo (seqAfterRound j.toNat))
  else .refused .reservedIndex

/-- R164 -/
def execRoundh (j : BitVec 7) (s : State) : Host.Outcome State Fault Refusal :=
  if h : 16 ≤ j.toNat ∧ j.toNat ≤ 63 then
    .next ((s.setWork (roundWork ff1 gg1 tHi j.toNat s.work s.w[j.toNat] s.wp[j.toNat])).moveTo (seqAfterRound j.toNat))
  else .refused .reservedIndex

/-- R165: the working registers XORed with the values held at block entry, matching positions. -/
def feedback (r : Work) (v : Vector Word 8) : Vector Word 8 :=
  #v[xor32 r.a v[0], xor32 r.b v[1], xor32 r.c v[2], xor32 r.d v[3],
     xor32 r.e v[4], xor32 r.f v[5], xor32 r.g v[6], xor32 r.h v[7]]

/-- R165. A..H, W and Wp mean nothing from here to their rewriting in the next block (R22, R155, U3), and the spec would
have a model fault on a read of them (D24): DESIGN CHOICE (log entry 26), the registers keep the old block's words. -/
def execCfeed (s : State) : Host.Outcome State Fault Refusal :=
  match seqAfterCfeed s.blk s.nblk with
  | some q => .next (((s.setV (feedback s.work s.v)).setBlk (s.blk + 1)).moveTo q)
  | none => .refused .noTransition

end Sys2Proof.Machine
end

