-- ==== Sys2Proof/Machine/Encoder.lean ====
section
/-! DEFINITION. The byte encoder (`41_byte_encoder.md`): ENC1, ENC2, ENC3, ENC4, ENCEND. -/

namespace Sys2Proof.Machine

/-- ENC1, ENC2 and ENC3: the unit at TPOS must be of the operation's class (R72), its bytes are appended and TPOS grows by
1. The next state is `ENCODE` (R193 rows 3 to 5). -/
def encodeUnit (cls : UnitClass) (form : Nat → List Byte) (s : State) : Host.Outcome State Fault Refusal :=
  match s.unit? s.tpos with
  | none => .fault .textIndex
  | some u =>
    if classify u = cls then .next (((s.append (form u.toNat)).advance 1).moveTo ⟨.encode, 0, 0⟩)
    else .refused .notSelected

/-- R121 -/
def execEnc1 (s : State) : Host.Outcome State Fault Refusal := encodeUnit .oneByte form1 s

/-- R122 -/
def execEnc2 (s : State) : Host.Outcome State Fault Refusal := encodeUnit .twoByte form2 s

/-- R123 -/
def execEnc3 (s : State) : Host.Outcome State Fault Refusal := encodeUnit .threeByte form3 s

/-- R124: the unit at TPOS must be of the surrogate band; a pair that is not admitted raises `ENC_SURROGATE` before any
write (R126, R127), an admitted pair appends four bytes and TPOS grows by 2. -/
def execEnc4 (s : State) : Host.Outcome State Fault Refusal :=
  match s.unit? s.tpos with
  | none => .fault .textIndex
  | some hi =>
    if classify hi = .surrogate then
      match pairLow s.cfg.policy hi (s.unit? (s.tpos + 1)) with
      | some lo => .next (((s.append (form4 (pairPoint hi lo))).advance 2).moveTo ⟨.encode, 0, 0⟩)
      | none => .next (s.raise causeEncSurrogate s.tpos)
    else .refused .notSelected

/-- R125: selected when TPOS = N; a length above `MAX_LEN` raises `LEN_RANGE` (R145, R213) before any write. -/
def execEncend (s : State) : Host.Outcome State Fault Refusal :=
  if s.tpos = s.numUnits then
    if s.buf.length ≤ s.cfg.maxLen then .next ((s.setLen s.buf.length).moveTo ⟨.pad, 0, 0⟩)
    else .next (s.raise causeLenRange s.buf.length)
  else .refused .notSelected

end Sys2Proof.Machine
end

