-- ==== Sys2Proof/Machine/Formatter.lean ====
section
/-! DEFINITION. The digest formatter (`45_digest_formatter.md`): DSER, DHEX. -/

namespace Sys2Proof.Machine

/-- R181: MemWrite(DIGEST, 4·i, 4, V[i]) for each word of a list, i counting on from `i`. -/
def serialise (m : Memory) (i : Nat) : List Word → Memory
  | [] => m
  | x :: xs => serialise (m.memWrite (4 * i) 4 x.toNat) (i + 1) xs

/-- R181 -/
def execDser (s : State) : Host.Outcome State Fault Refusal :=
  .next ((s.setDigest (serialise s.digest 0 s.v.toList)).moveTo ⟨.format, 1, 0⟩)

/-- R182: DHEX reads the 32 bytes of DIGEST and writes the 64 characters of HEX from index 0. -/
def execDhex (s : State) : Host.Outcome State Fault Refusal :=
  match s.digest.readBytes 0 32 with
  | some bs => .next ((s.setHex (s.hex.writeBytes 0 (hexImage bs))).moveTo ⟨.format, 2, 0⟩)
  | none => .fault .digestUnwritten

end Sys2Proof.Machine
end

