-- ==== Sys2Proof/Machine/Padding.lean ====
section
/-! DEFINITION. The padding stage (`42_padding.md`): PAD80, PADZ, PADLEN. -/

namespace Sys2Proof.Machine

/-- R141 -/
def execPad80 (s : State) : Host.Outcome State Fault Refusal := .next ((s.append [0x80]).moveTo ⟨.pad, 1, 0⟩)

/-- R142, under its precondition len(BUF) mod 64 ≠ 56. -/
def execPadz (s : State) : Host.Outcome State Fault Refusal :=
  if s.buf.length % 64 = 56 then .refused .notSelected
  else .next ((s.append [0x00]).moveTo ⟨.pad, 1, 0⟩)

/-- R143, under its precondition len(BUF) mod 64 = 56: the length field holds 8·LEN, not the length of the grown BUF
(R248). -/
def execPadlen (s : State) : Host.Outcome State Fault Refusal :=
  if s.buf.length % 64 = 56 then
    let t := s.append (lengthField s.len)
    .next ((t.setBlocks (t.buf.length / 64) 0).moveTo ⟨.sched, 0, 0⟩)
  else .refused .notSelected

end Sys2Proof.Machine
end

