-- ==== Sys2Proof/Machine/Scheduler.lean ====
section
/-! DEFINITION. The message scheduler (`43_message_scheduler.md`): WLOAD, WEXP, WPRIME. -/

namespace Sys2Proof.Machine

/-- R151 -/
def execWload (j : BitVec 7) (s : State) : Host.Outcome State Fault Refusal :=
  if h : j.toNat ≤ 15 then
    match messageWord s.buf s.blk j.toNat with
    | some x => .next ((s.setW ⟨j.toNat, by omega⟩ x).moveTo (seqAfterWload j.toNat))
    | none => .fault .bufIndex
  else .refused .reservedIndex

/-- R152: the new word from W[j−16], W[j−9], W[j−3], W[j−13] and W[j−6]. -/
def expandWord (w16 w9 w3 w13 w6 : Word) : Word :=
  xor32 (xor32 (p1 (xor32 (xor32 w16 w9) (rotl w3 15))) (rotl w13 7)) w6

/-- R152 -/
def execWexp (j : BitVec 7) (s : State) : Host.Outcome State Fault Refusal :=
  if h : 16 ≤ j.toNat ∧ j.toNat ≤ 67 then
    let x := expandWord s.w[j.toNat - 16] s.w[j.toNat - 9] s.w[j.toNat - 3] s.w[j.toNat - 13] s.w[j.toNat - 6]
    .next ((s.setW ⟨j.toNat, by omega⟩ x).moveTo (seqAfterWexp j.toNat))
  else .refused .reservedIndex

/-- R153 -/
def execWprime (j : BitVec 7) (s : State) : Host.Outcome State Fault Refusal :=
  if h : j.toNat ≤ 63 then
    .next ((s.setWp ⟨j.toNat, by omega⟩ (xor32 s.w[j.toNat] s.w[j.toNat + 4])).moveTo (seqAfterWprime j.toNat))
  else .refused .reservedIndex

end Sys2Proof.Machine
end

