-- ==== Sys2Proof/Machine/TopLevel.lean ====
section
/-! DEFINITION. The two bookkeeping operations of a call (`46_top_level_hash.md`): START, FINISH. -/

namespace Sys2Proof.Machine

/-- R191: V ← IV, BUF empty, TPOS ← 0, the flags, CAUSE and FINFO; everything else a previous call left becomes
unspecified (R36). The next state is (`ENCODE`, 0, 0) (R193 row 1). -/
def execStart (s : State) : Host.Outcome State Fault Refusal :=
  let t := s.invalidate
  .next { t with
    v := s.cfg.iv
    buf := []
    tpos := 0
    busy := true
    done := false
    fault := false
    cause := causeNone
    finfo := 0
    seq := ⟨.encode, 0, 0⟩ }

/-- R192: BUSY ← 0, DONE ← 1, PHASE ← DONE. What V, A..H, W, Wp, BUF and the counters hold from here on means nothing
(R197, U3); the model keeps it (DESIGN CHOICE, log entry 26). -/
def execFinish (s : State) : Host.Outcome State Fault Refusal :=
  .next ((s.setFlags false true s.fault).moveTo { s.seq with phase := .done })

end Sys2Proof.Machine
end

