-- ==== Sys2Proof/Machine/Dispatch.lean ====
section
/-! DEFINITION. Which meaning each operation has: one arm per constructor of `Instr`. -/

namespace Sys2Proof.Machine

def exec (i : Instr) (s : State) : Host.Outcome State Fault Refusal :=
  match i with
  | .start => Sys2Proof.Machine.execStart s
  | .enc1 => Sys2Proof.Machine.execEnc1 s
  | .enc2 => Sys2Proof.Machine.execEnc2 s
  | .enc3 => Sys2Proof.Machine.execEnc3 s
  | .enc4 => Sys2Proof.Machine.execEnc4 s
  | .encend => Sys2Proof.Machine.execEncend s
  | .pad80 => Sys2Proof.Machine.execPad80 s
  | .padz => Sys2Proof.Machine.execPadz s
  | .padlen => Sys2Proof.Machine.execPadlen s
  | .wload j => Sys2Proof.Machine.execWload j s
  | .wexp j => Sys2Proof.Machine.execWexp j s
  | .wprime j => Sys2Proof.Machine.execWprime j s
  | .cinit => Sys2Proof.Machine.execCinit s
  | .roundl j => Sys2Proof.Machine.execRoundl j s
  | .roundh j => Sys2Proof.Machine.execRoundh j s
  | .cfeed => Sys2Proof.Machine.execCfeed s
  | .dser => Sys2Proof.Machine.execDser s
  | .dhex => Sys2Proof.Machine.execDhex s
  | .finish => Sys2Proof.Machine.execFinish s
  | .add32 x y => Sys2Proof.Machine.execAdd32 x y s
  | .xor32 x y => Sys2Proof.Machine.execXor32 x y s
  | .and32 x y => Sys2Proof.Machine.execAnd32 x y s
  | .or32 x y => Sys2Proof.Machine.execOr32 x y s
  | .not32 x => Sys2Proof.Machine.execNot32 x s
  | .rotl32 x n => Sys2Proof.Machine.execRotl32 x n s
  | .p0 x => Sys2Proof.Machine.execP0 x s
  | .p1 x => Sys2Proof.Machine.execP1 x s
  | .ff0 x y z => Sys2Proof.Machine.execFf0 x y z s
  | .ff1 x y z => Sys2Proof.Machine.execFf1 x y z s
  | .gg0 x y z => Sys2Proof.Machine.execGg0 x y z s
  | .gg1 x y z => Sys2Proof.Machine.execGg1 x y z s
  | .tj j => Sys2Proof.Machine.execTj j s

end Sys2Proof.Machine
end

