-- ==== Sys2Proof/Machine/HostPort.lean ====
section
/-! DEFINITION. The engine's moves and the host's (`46_top_level_hash.md` rules R193, R195, R196; `20_memory.md` rule R67;
`70_reset_and_hazards.md` rule R240), and what the host may read. -/

namespace Sys2Proof.Machine

/-- One move of the engine by itself: rows 2 to 22 of R193. -/
def engineStep (s : State) : Host.Outcome State Fault Refusal :=
  match select s with
  | .quiet => .next s
  | .issue i => exec i s
  | .raise cause info => .next (s.raise cause info)
  | .outside => .refused .noTransition

/-- One step in which the outside does `e`. A HASH command is accepted when no call is in progress, and acceptance is
START (R193 row 1, R195); while a call is in progress it is ignored and not remembered (R195, R254). The host places TEXT
only between calls (R67); a script that breaks this is refused (U6). -/
def hostStep (e : HostEvent) (s : State) : Host.Outcome State Fault Refusal :=
  match e with
  | .wait => engineStep s
  | .hash => if s.seq.phase.isBusy then engineStep s else exec .start s
  | .writeText units => if s.seq.phase.isBusy then .refused .textWriteWhileBusy else .next (s.setText units)
  | .hardReset => .next s.hardReset

/-- An ALU function evaluated by itself (log entry 9); a reserved code is refused (R82, U7). -/
def aluPortStep (c : AluCode) (s : State) : Host.Outcome State Fault Refusal :=
  match decode (.alu c) with
  | .instr i => exec i s
  | .rejected _ => .refused .reservedFunction

/-- One step: a presented ALU function first; otherwise the head of the outside's script is used up; with no script left
the engine moves by itself. -/
def stepOnce (s : State) : Host.Outcome State Fault Refusal :=
  match s.aluReq with
  | some c => aluPortStep c s
  | none =>
    match s.host with
    | [] => engineStep s
    | e :: rest => hostStep e (s.setHost rest)

/-- A host read of DIGEST (R67, R196): the 32 bytes while `DONE` = 1, and no value the host may rely on otherwise (U3). -/
def State.hostDigest (s : State) : Option (List Byte) := if s.done then s.digest.readBytes 0 32 else none

/-- A host read of HEX (R67, R196): the 64 characters while `DONE` = 1. -/
def State.hostHex (s : State) : Option (List Byte) := if s.done then s.hex.readBytes 0 64 else none

end Sys2Proof.Machine
end

