-- ==== Sys2Proof/Machine/Placement.lean ====
section
/-! DEFINITION. How a given operation is put where the next step issues it (log entry 16). The engine fetches nothing: the
sequencer state names the next operation (`10_state.md` rule R25), so placing an operation is placing the sequencer, and
the data R193's conditions read, where the state at hand does not meet them already. -/

namespace Sys2Proof.Machine

/-- The sequencer at `q`, the flags as R27 ties them to PHASE, no ALU request, and a step in which the outside does
nothing. -/
def State.enterAt (s : State) (q : Seq) : State :=
  { s with
    seq := q
    busy := q.phase.isBusy
    done := false
    fault := false
    cause := causeNone
    finfo := 0
    aluReq := none
    host := .wait :: s.host }

/-- TEXT as given and TPOS at its start, unless the sequencer selects `i` on the TEXT it has. -/
def State.withUnitsFor (s : State) (i : Instr) (units : List CodeUnit) : State :=
  if selectEncode s = .issue i then s else { s with text := units, tpos := 0 }

/-- BUF as given, unless its length already leaves residue 56 or not, as wanted. -/
def State.withResidue (s : State) (at56 : Bool) (bytes : List Byte) : State :=
  if (s.buf.length % 64 == 56) = at56 then s else { s with buf := bytes }

/-- The state in which the next step issues `i`. -/
def State.placeFor (s : State) (i : Instr) : State :=
  match i with
  | .start =>
    let t := if s.seq.phase.isBusy then s.enterAt ⟨.idle, 0, 0⟩ else s
    { t with aluReq := none, host := .hash :: s.host }
  | .enc1 => (s.enterAt ⟨.encode, 0, 0⟩).withUnitsFor .enc1 [0x0000]
  | .enc2 => (s.enterAt ⟨.encode, 0, 0⟩).withUnitsFor .enc2 [0x0080]
  | .enc3 => (s.enterAt ⟨.encode, 0, 0⟩).withUnitsFor .enc3 [0x0800]
  | .enc4 => (s.enterAt ⟨.encode, 0, 0⟩).withUnitsFor .enc4 [0xD800, 0xDC00]
  | .encend => { s.enterAt ⟨.encode, 0, 0⟩ with tpos := s.numUnits }
  | .pad80 => s.enterAt ⟨.pad, 0, 0⟩
  | .padz => (s.enterAt ⟨.pad, 1, 0⟩).withResidue false []
  | .padlen => (s.enterAt ⟨.pad, 1, 0⟩).withResidue true (List.replicate 56 0)
  | .wload j =>
    let t := s.enterAt ⟨.sched, 0, j.toNat⟩
    if (messageWord s.buf s.blk j.toNat).isSome then t
    else { t with buf := List.replicate 64 0, blk := 0, nblk := 1 }
  | .wexp j => s.enterAt ⟨.sched, 1, j.toNat⟩
  | .wprime j => s.enterAt ⟨.sched, 2, j.toNat⟩
  | .cinit => s.enterAt ⟨.compress, 0, 0⟩
  | .roundl j => s.enterAt ⟨.compress, 1, j.toNat⟩
  | .roundh j => s.enterAt ⟨.compress, 1, j.toNat⟩
  | .cfeed =>
    let t := s.enterAt ⟨.compress, 2, 0⟩
    if s.blk + 1 ≤ s.nblk then t else { t with nblk := s.blk + 1 }
  | .dser => s.enterAt ⟨.format, 0, 0⟩
  | .dhex =>
    let t := s.enterAt ⟨.format, 1, 0⟩
    if (s.digest.readBytes 0 32).isSome then t
    else { t with digest := Memory.writeBytes [] 0 (List.replicate 32 0) }
  | .finish => s.enterAt ⟨.format, 2, 0⟩
  | .add32 _ _ | .xor32 _ _ | .and32 _ _ | .or32 _ _ | .not32 _ | .rotl32 _ _ | .p0 _ | .p1 _ | .ff0 _ _ _
  | .ff1 _ _ _ | .gg0 _ _ _ | .gg1 _ _ _ | .tj _ =>
    match encode i with
    | .alu c => { s with aluReq := some c }
    | .seq _ => s

/-- An opcode-table row's bits placed where the next step takes its operation from. Bits the decoder rejects are placed
nowhere: nothing in the engine decodes a control word (R65, U7). -/
def State.placeTableWord (s : State) (nbits w : Nat) : State :=
  match decodeTableWord nbits w with
  | some i => s.placeFor i
  | none => s

end Sys2Proof.Machine
end

