-- ==== Sys2Proof/Machine/Step.lean ====
section
/-! DEFINITION. The step of the engine, and where an operation is placed to be the next one. -/

namespace Sys2Proof.Machine

/-- One step (R59, R193): what the outside does at this step, then the operation the sequencer issues. -/
def step : State → Host.Outcome State Fault Refusal := fun s => stepOnce s

/-- `s` with an opcode-table row's operation placed so that the very next step issues it. -/
def State.withFetchWord (s : State) (nbits w : Nat) : State := s.placeTableWord nbits w

end Sys2Proof.Machine
end

