-- ==== Sys2Proof/Machine/Cluster.lean ====
section
/-! DEFINITION. Several engines (`60_exceptions.md` rule R223, decision D27): a list of independent engines that share
nothing; at each move one of them makes its step. Their unspecified contents are equal where their counters `draws` are
(DESIGN CHOICE, log entry 25). -/

namespace Sys2Proof.Machine

/-- Engine `k` makes its step; an engine that stops, or a number no engine has, changes nothing. -/
def clusterStep (k : Nat) (engines : List State) : List State :=
  match engines[k]? with
  | none => engines
  | some s =>
    match step s with
    | .next t => engines.set k t
    | _ => engines

/-- A sequence of moves, each given by the number of the engine that makes it. -/
def clusterRun : List Nat → List State → List State
  | [], engines => engines
  | k :: ks, engines => clusterRun ks (clusterStep k engines)

end Sys2Proof.Machine
end

