-- ==== Sys2Proof/Machine/BigStep.lean ====
section
/-! DEFINITION. The public operation as a function of TEXT and the parameters (`46_top_level_hash.md` rule R190), written
apart from the step machine: the text by recursion on its units, the schedule and the rounds over lists. -/

namespace Sys2Proof.Machine

/-- The encoder's result: the bytes, or the index of the first unit that starts no admitted pair. -/
inductive Encoded where
  | bytes (bs : List Byte)
  | bad (pos : Nat)
deriving DecidableEq, Repr

/-- Bytes put before a result. -/
def Encoded.after (bs : List Byte) : Encoded → Encoded
  | .bytes cs => .bytes (bs ++ cs)
  | .bad pos => .bad pos

/-- R120: the units of TEXT from index `pos` on, encoded in order. -/
def encodeFrom (policy : SurrogatePolicy) (pos : Nat) : List CodeUnit → Encoded
  | [] => .bytes []
  | u :: rest =>
    match classify u with
    | .oneByte => (encodeFrom policy (pos + 1) rest).after (form1 u.toNat)
    | .twoByte => (encodeFrom policy (pos + 1) rest).after (form2 u.toNat)
    | .threeByte => (encodeFrom policy (pos + 1) rest).after (form3 u.toNat)
    | .surrogate =>
      match rest with
      | [] => .bad pos
      | next :: rest' =>
        match pairLow policy u (some next) with
        | some lo => (encodeFrom policy (pos + 2) rest').after (form4 (pairPoint u lo))
        | none => .bad pos

/-- R74, R140: what padding appends to a message of `l` bytes. -/
def padding (l : Nat) : List Byte := 0x80 :: (List.replicate (zeroCount l) 0x00 ++ lengthField l)

/-- R75: consecutive groups of four bytes as big-endian words. -/
def wordsOf : List Byte → List Word
  | b0 :: b1 :: b2 :: b3 :: rest => (b0 ++ b1 ++ b2 ++ b3) :: wordsOf rest
  | _ => []

/-- R152: `n` more words of W, each from five of the words before it. -/
def expandBy : Nat → List Word → List Word
  | 0, ws => ws
  | n + 1, ws =>
    let j := ws.length
    expandBy n (ws ++ [expandWord (ws.getD (j - 16) 0) (ws.getD (j - 9) 0) (ws.getD (j - 3) 0) (ws.getD (j - 13) 0)
      (ws.getD (j - 6) 0)])

/-- R150: W[0..67] of a block. -/
def scheduleW (block : List Byte) : List Word := expandBy 52 (wordsOf block)

/-- R153: W′[0..63] from W. -/
def scheduleWp (ws : List Word) : List Word := (List.range 64).map fun j => xor32 (ws.getD j 0) (ws.getD (j + 4) 0)

/-- R162, R114: round `j` with T, FF and GG selected by the round index. -/
def roundAt (ws wps : List Word) (r : Work) (j : Nat) : Work :=
  roundWork (ff j) (gg j) (tConst j) j r (ws.getD j 0) (wps.getD j 0)

/-- R160: the compression function CF. -/
def compress (v : Vector Word 8) (ws wps : List Word) : Vector Word 8 :=
  feedback ((List.range 64).foldl (roundAt ws wps) (workOf v)) v

/-- R53: the 64 bytes of block `i`. -/
def blockOf (buf : List Byte) (i : Nat) : List Byte := (buf.drop (64 * i)).take 64

/-- R190: one block's schedule and compression. -/
def compressBlock (buf : List Byte) (v : Vector Word 8) (i : Nat) : Vector Word 8 :=
  let ws := scheduleW (blockOf buf i)
  compress v ws (scheduleWp ws)

/-- R190: the blocks in increasing order. -/
def hashBlocks (iv : Vector Word 8) (buf : List Byte) : Vector Word 8 :=
  (List.range (buf.length / 64)).foldl (compressBlock buf) iv

/-- R76, R181: the digest of a register state. -/
def digestOf (v : Vector Word 8) : List Byte := v.toList.flatMap fun x => beBytes 4 x.toNat

/-- The result of a call (R190, R197): a digest with its rendering, or a fault with its cause and information. -/
inductive CallResult where
  | digest (bytes hex : List Byte)
  | fault (cause : BitVec 2) (info : Nat)
deriving DecidableEq, Repr

/-- R190 from the encoded bytes on. -/
def hashBytes (c : Config) (msg : List Byte) : CallResult :=
  if msg.length ≤ c.maxLen then
    let d := digestOf (hashBlocks c.iv (msg ++ padding msg.length))
    .digest d (hexImage d)
  else .fault causeLenRange msg.length

/-- R190: HASH as a function of TEXT and the parameters. -/
def hashText (c : Config) (text : List CodeUnit) : CallResult :=
  match encodeFrom c.policy 0 text with
  | .bytes msg => hashBytes c msg
  | .bad pos => .fault causeEncSurrogate pos

/-! ## The code-point view (R128) -/

/-- A code point that is text: below 0x110000 and outside the surrogate band (R128). -/
def isScalar (cp : Nat) : Bool := cp < 0xD800 || (0xE000 ≤ cp && cp < 0x110000)

/-- R128: the units the host presents for a code point. -/
def unitsOf (cp : Nat) : List CodeUnit :=
  if cp < 0x10000 then [BitVec.ofNat 16 cp]
  else [BitVec.ofNat 16 (0xD800 + ((cp - 0x10000) >>> 10)), BitVec.ofNat 16 (0xDC00 + ((cp - 0x10000) &&& 0x3FF))]

/-- R71: the form of a code point, by its value. -/
def formOf (cp : Nat) : List Byte :=
  if cp < 0x80 then form1 cp else if cp < 0x800 then form2 cp else if cp < 0x10000 then form3 cp else form4 cp

end Sys2Proof.Machine
end

