-- ==== Sys2Proof/Machine/Trace.lean ====
section
/-! DEFINITION. Mnemonics and trace lines (`30_encoding.md` rule R84), the pseudo-operations and their expansions (R85),
and the operations a run issues. -/

namespace Sys2Proof.Machine

/-- R80: the mnemonic of an operation. -/
def mnemonic : Instr → String
  | .start => "START"
  | .enc1 => "ENC1"
  | .enc2 => "ENC2"
  | .enc3 => "ENC3"
  | .enc4 => "ENC4"
  | .encend => "ENCEND"
  | .pad80 => "PAD80"
  | .padz => "PADZ"
  | .padlen => "PADLEN"
  | .wload _ => "WLOAD"
  | .wexp _ => "WEXP"
  | .wprime _ => "WPRIME"
  | .cinit => "CINIT"
  | .roundl _ => "ROUNDL"
  | .roundh _ => "ROUNDH"
  | .cfeed => "CFEED"
  | .dser => "DSER"
  | .dhex => "DHEX"
  | .finish => "FINISH"
  | .add32 _ _ => "ADD32"
  | .xor32 _ _ => "XOR32"
  | .and32 _ _ => "AND32"
  | .or32 _ _ => "OR32"
  | .not32 _ => "NOT32"
  | .rotl32 _ _ => "ROTL32"
  | .p0 _ => "P0"
  | .p1 _ => "P1"
  | .ff0 _ _ _ => "FF0"
  | .ff1 _ _ _ => "FF1"
  | .gg0 _ _ _ => "GG0"
  | .gg1 _ _ _ => "GG1"
  | .tj _ => "TJ"

/-- R84: one trace line of a sequencer operation, the mnemonic and for an indexed operation its decimal index. ALU
functions are never trace lines. -/
def traceLine (i : Instr) : Option String :=
  match i, encode i with
  | .wload j, _ | .wexp j, _ | .wprime j, _ | .roundl j, _ | .roundh j, _ =>
    some (mnemonic i ++ " " ++ toString j.toNat)
  | _, .seq _ => some (mnemonic i)
  | _, .alu _ => none

/-- R84: `MNEMONIC a..b`, from `a` on, `n` operations. -/
def indexed (op : BitVec 7 → Instr) (a n : Nat) : List Instr := (List.range n).map fun k => op (BitVec.ofNat 7 (a + k))

/-- R85, `ENCODE` without its ENCEND: the operation of each character, in order, up to the first unit that starts no
admitted pair. -/
def encodeOps (policy : SurrogatePolicy) : List CodeUnit → List Instr
  | [] => []
  | u :: rest =>
    match classify u with
    | .oneByte => .enc1 :: encodeOps policy rest
    | .twoByte => .enc2 :: encodeOps policy rest
    | .threeByte => .enc3 :: encodeOps policy rest
    | .surrogate =>
      match rest with
      | [] => []
      | next :: rest' =>
        match pairLow policy u (some next) with
        | some _ => .enc4 :: encodeOps policy rest'
        | none => []

/-- R85, `PAD` for a message of `l` bytes. -/
def padOps (l : Nat) : List Instr := .pad80 :: (List.replicate (zeroCount l) .padz ++ [.padlen])

/-- R85, `SCHEDULE`. -/
def scheduleOps : List Instr := indexed .wload 0 16 ++ indexed .wexp 16 52 ++ indexed .wprime 0 64

/-- R85, `COMPRESS`. -/
def compressOps : List Instr := .cinit :: (indexed .roundl 0 16 ++ indexed .roundh 16 48 ++ [.cfeed])

/-- R85, `BLOCK`. -/
def blockOps : List Instr := scheduleOps ++ compressOps

/-- R85, `FORMAT`. -/
def formatOps : List Instr := [.dser, .dhex, .finish]

/-- R85, `HASH` on a text whose encoding is `msg`: the whole trace of a call that ends in DONE. -/
def hashOps (policy : SurrogatePolicy) (text : List CodeUnit) (msg : List Byte) : List Instr :=
  .start :: (encodeOps policy text ++ .encend :: (padOps msg.length
    ++ ((List.replicate ((msg ++ padding msg.length).length / 64) blockOps).flatten ++ formatOps)))

/-- The operation a step issues, if it issues one: an ALU function presented by itself, START for an accepted command, or
the sequencer's selection. -/
def issuedAt (s : State) : Option Instr :=
  match s.aluReq with
  | some c => (decode (.alu c)).toOption
  | none =>
    match s.host with
    | .hardReset :: _ => none
    | .writeText _ :: _ => none
    | .hash :: _ =>
      if s.seq.phase.isBusy then
        match select s with
        | .issue i => some i
        | _ => none
      else some .start
    | _ =>
      match select s with
      | .issue i => some i
      | _ => none

/-- The operations issued in `n` steps, in order. -/
def issued : Nat → State → List Instr
  | 0, _ => []
  | n + 1, s =>
    match step s with
    | .next t => (issuedAt s).toList ++ issued n t
    | _ => (issuedAt s).toList

end Sys2Proof.Machine
end

