-- ==== Sys2Proof/Safety.lean ====
section
/-! DEFINITION. What counts as a legal state and a good end of a call, and which elements of the state an operation reads
and writes: the terms the statements use. -/

namespace Sys2Proof.Machine

/-! ## The end of a call (`46_top_level_hash.md` rule R197) and what the host sees of it (R196) -/

/-- R197: a call is over exactly when `PHASE` is DONE or FAULTED. -/
def State.ended (s : State) : Bool := s.seq.phase == .done || s.seq.phase == .faulted

/-- What the host reads at the end of a call: DIGEST and HEX, or CAUSE and FINFO; nothing before the end. -/
def State.observed (s : State) : Option CallResult :=
  if s.done then
    match s.hostDigest, s.hostHex with
    | some d, some h => some (.digest d h)
    | _, _ => none
  else if s.fault then some (.fault s.cause s.finfo)
  else none

/-! ## Legal states -/

/-- DIGEST holds 32 bytes and HEX their 64 characters. -/
def holdsResult (digest hex : Memory) : Prop :=
  ∃ ds : List Byte, digest.readBytes 0 32 = some ds ∧ hex.readBytes 0 64 = some (hexImage ds)

/-- The buffer after PADLEN (R52, R144). -/
def paddedBuf (s : State) : Prop :=
  s.len ≤ s.cfg.maxLen ∧ s.nblk = (s.len + 72) / 64 ∧ s.buf.length = 64 * s.nblk

/-- What holds in each phase besides the ranges of R25. -/
def StageLegal (s : State) : Prop :=
  match s.seq.phase with
  | .idle => True
  | .faulted => True
  | .encode => s.seq.sub = 0 ∧ s.seq.idx = 0 ∧ s.tpos ≤ s.numUnits ∧ s.digest = [] ∧ s.hex = []
  | .pad =>
    s.seq.idx = 0 ∧ s.len ≤ s.cfg.maxLen ∧ s.digest = [] ∧ s.hex = [] ∧
      ((s.seq.sub = 0 ∧ s.buf.length = s.len) ∨
        (s.seq.sub = 1 ∧ s.len + 1 ≤ s.buf.length ∧ s.buf.length ≤ s.len + 1 + zeroCount s.len))
  | .sched =>
    paddedBuf s ∧ s.blk < s.nblk ∧ s.digest = [] ∧ s.hex = [] ∧
      ((s.seq.sub = 0 ∧ s.seq.idx ≤ 15) ∨ (s.seq.sub = 1 ∧ 16 ≤ s.seq.idx ∧ s.seq.idx ≤ 67) ∨
        (s.seq.sub = 2 ∧ s.seq.idx ≤ 63))
  | .compress =>
    paddedBuf s ∧ s.blk < s.nblk ∧ s.digest = [] ∧ s.hex = [] ∧
      ((s.seq.sub = 0 ∧ s.seq.idx = 0) ∨ (s.seq.sub = 1 ∧ s.seq.idx ≤ 63) ∨ (s.seq.sub = 2 ∧ s.seq.idx = 0))
  | .format =>
    s.seq.idx = 0 ∧ paddedBuf s ∧ s.blk = s.nblk ∧
      ((s.seq.sub = 0 ∧ s.digest = [] ∧ s.hex = []) ∨
        (s.seq.sub = 1 ∧ s.digest.readBytes 0 32 = some (digestOf s.v) ∧ s.hex = []) ∨
        (s.seq.sub = 2 ∧ s.digest.readBytes 0 32 = some (digestOf s.v) ∧
          s.hex.readBytes 0 64 = some (hexImage (digestOf s.v))))
  | .done => holdsResult s.digest s.hex

/-- A legal state: the parameters in their range (R143), DIGEST and HEX in canonical form inside their index ranges (R50),
the flags as PHASE says (R27), CAUSE and FINFO as FAULT says (R28), SUB and IDX in range (R25), and what the phase
brings. -/
structure Legal (s : State) : Prop where
  params : s.cfg.wf = true
  digestForm : s.digest.wf ∧ ∀ c ∈ s.digest, c.1 < 32
  hexForm : s.hex.wf ∧ ∀ c ∈ s.hex, c.1 < 64
  flags : s.busy = s.seq.phase.isBusy ∧ s.done = (s.seq.phase == .done) ∧ s.fault = (s.seq.phase == .faulted)
  report : if s.seq.phase = .faulted then s.cause = causeEncSurrogate ∨ s.cause = causeLenRange
    else s.cause = causeNone ∧ s.finfo = 0
  place : s.seq.sub ≤ 2 ∧ s.seq.idx ≤ 67
  stage : StageLegal s

/-! ## Elements of the state, and who reads and writes them (`10_state.md` rule R24) -/

/-- A piece of the state that an operation reads or writes as a whole. -/
inductive Elem where
  | cfg | text | buf | len | v | work
  | w (k : Nat)
  | wp (k : Nat)
  | digest | hex | tpos | blk | nblk
  /-- BUSY, DONE, FAULT, CAUSE, FINFO. -/
  | report
  /-- PHASE, SUB, IDX. -/
  | seq
deriving DecidableEq, Repr

/-- Two states hold the same in an element. -/
def agree (e : Elem) (s t : State) : Prop :=
  match e with
  | .cfg => s.cfg = t.cfg
  | .text => s.text = t.text
  | .buf => s.buf = t.buf
  | .len => s.len = t.len
  | .v => s.v = t.v
  | .work => s.work = t.work
  | .w k => s.w[k]? = t.w[k]?
  | .wp k => s.wp[k]? = t.wp[k]?
  | .digest => s.digest = t.digest
  | .hex => s.hex = t.hex
  | .tpos => s.tpos = t.tpos
  | .blk => s.blk = t.blk
  | .nblk => s.nblk = t.nblk
  | .report => s.busy = t.busy ∧ s.done = t.done ∧ s.fault = t.fault ∧ s.cause = t.cause ∧ s.finfo = t.finfo
  | .seq => s.seq = t.seq

/-- R24's column "w" (and the sequencer, the flags and the report, which the matrix leaves to R193 and R216). START also
makes LEN, BLK, NBLK, A..H, W, Wp, DIGEST and HEX unspecified (R36). An ALU function writes none of these. -/
def writes (i : Instr) (e : Elem) : Bool :=
  match i with
  | .start => e != .cfg && e != .text
  | .enc1 | .enc2 | .enc3 => e == .buf || e == .tpos || e == .seq
  | .enc4 => e == .buf || e == .tpos || e == .seq || e == .report
  | .encend => e == .len || e == .seq || e == .report
  | .pad80 | .padz => e == .buf || e == .seq
  | .padlen => e == .buf || e == .blk || e == .nblk || e == .seq
  | .wload j | .wexp j => e == .w j.toNat || e == .seq
  | .wprime j => e == .wp j.toNat || e == .seq
  | .cinit | .roundl _ | .roundh _ => e == .work || e == .seq
  | .cfeed => e == .v || e == .blk || e == .seq
  | .dser => e == .digest || e == .seq
  | .dhex => e == .hex || e == .seq
  | .finish => e == .report || e == .seq
  | .add32 _ _ | .xor32 _ _ | .and32 _ _ | .or32 _ _ | .not32 _ | .rotl32 _ _ | .p0 _ | .p1 _ | .ff0 _ _ _
  | .ff1 _ _ _ | .gg0 _ _ _ | .gg1 _ _ _ | .tj _ => false

/-- R24's column "r", with the constants an operation uses (`cfg`). -/
def reads (i : Instr) (e : Elem) : Bool :=
  match i with
  | .start => e == .cfg
  | .enc1 | .enc2 | .enc3 => e == .text || e == .tpos
  | .enc4 => e == .text || e == .tpos || e == .cfg
  | .encend => e == .buf || e == .tpos || e == .text || e == .cfg
  | .pad80 | .padz => e == .buf
  | .padlen => e == .buf || e == .len
  | .wload _ => e == .buf || e == .blk
  | .wexp j =>
    e == .w (j.toNat - 16) || e == .w (j.toNat - 13) || e == .w (j.toNat - 9) || e == .w (j.toNat - 6) ||
      e == .w (j.toNat - 3)
  | .wprime j => e == .w j.toNat || e == .w (j.toNat + 4)
  | .cinit => e == .v
  | .roundl j | .roundh j => e == .work || e == .w j.toNat || e == .wp j.toNat
  | .cfeed => e == .v || e == .work || e == .blk || e == .nblk
  | .dser => e == .v
  | .dhex => e == .digest
  | .finish => false
  | .add32 _ _ | .xor32 _ _ | .and32 _ _ | .or32 _ _ | .not32 _ | .rotl32 _ _ | .p0 _ | .p1 _ | .ff0 _ _ _
  | .ff1 _ _ _ | .gg0 _ _ _ | .gg1 _ _ _ | .tj _ => false

/-- Whether, with the sequencer at `q` inside a call, an element has been written in this call, and for W, Wp and A..H in
this block (R36, R37, R241). -/
def writtenAt (q : Seq) (e : Elem) : Bool :=
  match e with
  | .cfg | .text | .report | .seq => true
  | .buf | .v | .tpos => q.phase.isBusy
  | .len => q.phase == .pad || q.phase == .sched || q.phase == .compress || q.phase == .format
  | .blk | .nblk => q.phase == .sched || q.phase == .compress || q.phase == .format
  | .w k =>
    (q.phase == .sched && (q.sub == 2 || k < q.idx) && k < 68) || (q.phase == .compress && k < 68)
  | .wp k => (q.phase == .sched && q.sub == 2 && k < q.idx && k < 64) || (q.phase == .compress && k < 64)
  | .work => q.phase == .compress && q.sub != 0
  | .digest => q.phase == .format && q.sub != 0
  | .hex => q.phase == .format && q.sub == 2

end Sys2Proof.Machine
end

