-- ==== Sys2Proof/Certificates/Slice0/Obligations.lean ====
section
/-! DEFINITION. The statements for the provers. Each docstring names the rule of spec/ it formalises; expected values are
written from the rule, with bit vectors' own operations, not with the model's functions, wherever the rule gives a formula.
A conclusion `exec i s = .next { s with … }` says what the operation writes and that everything else, every register, every
space, the flags and the model's own fields, is unchanged. -/

open Sys2Proof Sys2Proof.Machine

/-! ## Encodings -/

/-- R78 to R80: decoding the code of a well-formed operation gives the operation back, with every operand. -/
def Obligations.DecodeOfEncodeIsTheOperation : Prop :=
  ∀ i : Instr, i.wellFormed = true → decode (encode i) = .instr i

/-- R78 to R80: a control word has one meaning: the operation a control word decodes to is well formed and encodes to that
word. -/
def Obligations.ControlWordsHaveOneMeaning : Prop :=
  ∀ (scw : BitVec 12) (i : Instr), decode (.seq scw) = .instr i → i.wellFormed = true ∧ encode i = .seq scw

/-- R80 with R78, R79, R82: the operation map, row by row, in both directions: a control word or an ALU code decodes to an
operation exactly where a row says so; everything else is reserved and decodes to none. -/
def Obligations.CodesFollowTheOperationMap : Prop :=
  (∀ (scw : BitVec 12) (i : Instr), decode (.seq scw) = .instr i ↔
    (scw = 0x080 ∧ i = .start) ∨ (scw = 0x100 ∧ i = .enc1) ∨ (scw = 0x180 ∧ i = .enc2) ∨ (scw = 0x200 ∧ i = .enc3) ∨
    (scw = 0x280 ∧ i = .enc4) ∨ (scw = 0x300 ∧ i = .encend) ∨ (scw = 0x380 ∧ i = .pad80) ∨ (scw = 0x400 ∧ i = .padz) ∨
    (scw = 0x480 ∧ i = .padlen) ∨
    (∃ j : BitVec 7, j.toNat ≤ 15 ∧ scw.toNat = 0x500 + j.toNat ∧ i = .wload j) ∨
    (∃ j : BitVec 7, 16 ≤ j.toNat ∧ j.toNat ≤ 67 ∧ scw.toNat = 0x580 + j.toNat ∧ i = .wexp j) ∨
    (∃ j : BitVec 7, j.toNat ≤ 63 ∧ scw.toNat = 0x600 + j.toNat ∧ i = .wprime j) ∨
    (scw = 0x680 ∧ i = .cinit) ∨
    (∃ j : BitVec 7, j.toNat ≤ 15 ∧ scw.toNat = 0x700 + j.toNat ∧ i = .roundl j) ∨
    (∃ j : BitVec 7, 16 ≤ j.toNat ∧ j.toNat ≤ 63 ∧ scw.toNat = 0x780 + j.toNat ∧ i = .roundh j) ∨
    (scw = 0x800 ∧ i = .cfeed) ∨ (scw = 0x880 ∧ i = .dser) ∨ (scw = 0x900 ∧ i = .dhex) ∨ (scw = 0x980 ∧ i = .finish)) ∧
  (∀ (c : AluCode) (i : Instr), decode (.alu c) = .instr i ↔
    (c.fn = 0x0 ∧ i = .add32 c.x c.y) ∨ (c.fn = 0x1 ∧ i = .xor32 c.x c.y) ∨ (c.fn = 0x2 ∧ i = .and32 c.x c.y) ∨
    (c.fn = 0x3 ∧ i = .or32 c.x c.y) ∨ (c.fn = 0x4 ∧ i = .not32 c.x) ∨ (c.fn = 0x5 ∧ i = .rotl32 c.x c.n) ∨
    (c.fn = 0x6 ∧ i = .p0 c.x) ∨ (c.fn = 0x7 ∧ i = .p1 c.x) ∨ (c.fn = 0x8 ∧ i = .ff0 c.x c.y c.z) ∨
    (c.fn = 0x9 ∧ i = .ff1 c.x c.y c.z) ∨ (c.fn = 0xA ∧ i = .gg0 c.x c.y c.z) ∨ (c.fn = 0xB ∧ i = .gg1 c.x c.y c.z) ∨
    (c.fn = 0xC ∧ i = .tj c.j))

/-- R80: a few words written out from the table, one of each family. -/
def Obligations.SampleWordsDecode : Prop :=
  decode (.seq 0b00001_0000000) = .instr .start ∧
  decode (.seq 0b00101_0000000) = .instr .enc4 ∧
  decode (.seq 0b01001_0000000) = .instr .padlen ∧
  decode (.seq 0b01011_1000011) = .instr (.wexp 67) ∧
  decode (.seq 0b01111_0010000) = .instr (.roundh 16) ∧
  decode (.seq 0b10010_0000000) = .instr .dhex ∧
  decode (.alu ⟨0b0101, 0x80000000, 0, 0, 1, 0⟩) = .instr (.rotl32 0x80000000 1)

/-! ## The ALU functions -/

/-- R101 to R106, each function with its code: bit by bit or by arithmetic, with the corner cases R106 names (a rotation by
0, larger amounts, composition). -/
def Obligations.BasicAluFunctionsFollowTheirRules : Prop :=
  (∀ (x y z : Word) (n : BitVec 5) (j : BitVec 6),
    decode (.alu ⟨0x0, x, y, z, n, j⟩) = .instr (.add32 x y) ∧ decode (.alu ⟨0x1, x, y, z, n, j⟩) = .instr (.xor32 x y) ∧
    decode (.alu ⟨0x2, x, y, z, n, j⟩) = .instr (.and32 x y) ∧ decode (.alu ⟨0x3, x, y, z, n, j⟩) = .instr (.or32 x y) ∧
    decode (.alu ⟨0x4, x, y, z, n, j⟩) = .instr (.not32 x) ∧ decode (.alu ⟨0x5, x, y, z, n, j⟩) = .instr (.rotl32 x n)) ∧
  (∀ x y : Word,
    (add32 x y).toNat = (x.toNat + y.toNat) % 2 ^ 32 ∧
    (∀ k, k < 32 → (xor32 x y).getLsbD k = (x.getLsbD k != y.getLsbD k)) ∧
    (∀ k, k < 32 → (and32 x y).getLsbD k = (x.getLsbD k && y.getLsbD k)) ∧
    (∀ k, k < 32 → (or32 x y).getLsbD k = (x.getLsbD k || y.getLsbD k)) ∧
    (not32 x).toNat = 2 ^ 32 - 1 - x.toNat ∧
    (∀ n, 1 ≤ n → n ≤ 31 → (rotl x n).toNat = x.toNat * 2 ^ n % 2 ^ 32 + x.toNat / 2 ^ (32 - n)) ∧
    rotl x 0 = x ∧ (∀ n, rotl x n = rotl x (n % 32)) ∧
    (∀ a b, a ≤ 31 → b ≤ 31 → rotl (rotl x a) b = rotl x ((a + b) % 32)))

/-- R107 to R113, each function with its code and with the algebra its corner cases name: P0 and P1 are linear over XOR,
the majority is symmetric, and GG1's OR may be an XOR or an addition. -/
def Obligations.RoundAndScheduleFunctionsFollowTheirRules : Prop :=
  (∀ (x y z : Word) (n : BitVec 5) (j : BitVec 6),
    decode (.alu ⟨0x6, x, y, z, n, j⟩) = .instr (.p0 x) ∧ decode (.alu ⟨0x7, x, y, z, n, j⟩) = .instr (.p1 x) ∧
    decode (.alu ⟨0x8, x, y, z, n, j⟩) = .instr (.ff0 x y z) ∧ decode (.alu ⟨0x9, x, y, z, n, j⟩) = .instr (.ff1 x y z) ∧
    decode (.alu ⟨0xA, x, y, z, n, j⟩) = .instr (.gg0 x y z) ∧ decode (.alu ⟨0xB, x, y, z, n, j⟩) = .instr (.gg1 x y z) ∧
    decode (.alu ⟨0xC, x, y, z, n, j⟩) = .instr (.tj j)) ∧
  (∀ x y : Word, p0 x = x ^^^ x.rotateLeft 9 ^^^ x.rotateLeft 17 ∧ p0 (x ^^^ y) = p0 x ^^^ p0 y) ∧
  (∀ x y : Word, p1 x = x ^^^ x.rotateLeft 15 ^^^ x.rotateLeft 23 ∧ p1 (x ^^^ y) = p1 x ^^^ p1 y) ∧
  (∀ x y z : Word, ff0 x y z = x ^^^ y ^^^ z ∧ gg0 x y z = x ^^^ y ^^^ z) ∧
  (∀ x y z : Word, ff1 x y z = (x &&& y) ||| (x &&& z) ||| (y &&& z) ∧ ff1 x y z = ff1 y x z ∧ ff1 x y z = ff1 x z y) ∧
  (∀ (x y z : Word) (k : Nat), k < 32 →
    (gg1 x y z).getLsbD k = if x.getLsbD k then y.getLsbD k else z.getLsbD k) ∧
  (∀ x y z : Word, gg1 x y z = (x &&& y) ||| (~~~x &&& z) ∧ gg1 x y z = (x &&& y) ^^^ (~~~x &&& z) ∧
    gg1 x y z = (x &&& y) + (~~~x &&& z)) ∧
  (∀ j, j ≤ 15 → tConst j = 0x79CC4519) ∧ (∀ j, 16 ≤ j → j ≤ 63 → tConst j = 0x7A879D8A)

/-- R114: the selection by round index switches between 15 and 16, for FF, GG and T alike. -/
def Obligations.FunctionsSwitchBetweenRounds15And16 : Prop :=
  ∀ (x y z : Word) (j : Nat),
    (j ≤ 15 → ff j x y z = x ^^^ y ^^^ z ∧ gg j x y z = x ^^^ y ^^^ z ∧ tConst j = 0x79CC4519) ∧
    (16 ≤ j → j ≤ 63 →
      ff j x y z = (x &&& y) ||| (x &&& z) ||| (y &&& z) ∧ gg j x y z = (x &&& y) ||| (~~~x &&& z) ∧
      tConst j = 0x7A879D8A)

/-- Log entry 9 (the model's choice, not a rule): an ALU function evaluated by itself completes in every state, puts its
value on the model's own `aluOut`, takes the request away, and touches nothing else (R24: the functions "touch no
state"). -/
def Obligations.AluFunctionsCompleteAndTouchNoState : Prop :=
  ∀ (s : State) (x y z : Word) (n : BitVec 5) (j : BitVec 6),
    exec (.add32 x y) s = .next { s with aluOut := x + y, aluReq := none } ∧
    exec (.xor32 x y) s = .next { s with aluOut := x ^^^ y, aluReq := none } ∧
    exec (.and32 x y) s = .next { s with aluOut := x &&& y, aluReq := none } ∧
    exec (.or32 x y) s = .next { s with aluOut := x ||| y, aluReq := none } ∧
    exec (.not32 x) s = .next { s with aluOut := ~~~x, aluReq := none } ∧
    exec (.rotl32 x n) s = .next { s with aluOut := x.rotateLeft n.toNat, aluReq := none } ∧
    exec (.p0 x) s = .next { s with aluOut := x ^^^ x.rotateLeft 9 ^^^ x.rotateLeft 17, aluReq := none } ∧
    exec (.p1 x) s = .next { s with aluOut := x ^^^ x.rotateLeft 15 ^^^ x.rotateLeft 23, aluReq := none } ∧
    exec (.ff0 x y z) s = .next { s with aluOut := x ^^^ y ^^^ z, aluReq := none } ∧
    exec (.ff1 x y z) s = .next { s with aluOut := (x &&& y) ||| (x &&& z) ||| (y &&& z), aluReq := none } ∧
    exec (.gg0 x y z) s = .next { s with aluOut := x ^^^ y ^^^ z, aluReq := none } ∧
    exec (.gg1 x y z) s = .next { s with aluOut := (x &&& y) ||| (~~~x &&& z), aluReq := none } ∧
    exec (.tj j) s =
      .next { s with aluOut := if j.toNat ≤ 15 then 0x79CC4519 else 0x7A879D8A, aluReq := none }

/-! ## The byte encoder -/

/-- R121, R122, R123, with the bit fields of R71: the unit at TPOS, of the operation's class, is appended in 1, 2 or 3
bytes and TPOS grows by 1; with the control words. -/
def Obligations.Enc123AppendTheUnitsBytes : Prop :=
  encode .enc1 = .seq 0x100 ∧ encode .enc2 = .seq 0x180 ∧ encode .enc3 = .seq 0x200 ∧
  ∀ (s : State) (u : CodeUnit), s.text[s.tpos]? = some u →
    (u.toNat < 0x80 →
      exec .enc1 s = .next
        { s with buf := s.buf ++ [u.extractLsb' 0 8], tpos := s.tpos + 1, seq := ⟨.encode, 0, 0⟩ }) ∧
    (0x80 ≤ u.toNat → u.toNat < 0x800 →
      exec .enc2 s = .next
        { s with
          buf := s.buf ++ [0b110#3 ++ u.extractLsb' 6 5, 0b10#2 ++ u.extractLsb' 0 6]
          tpos := s.tpos + 1, seq := ⟨.encode, 0, 0⟩ }) ∧
    (0x800 ≤ u.toNat → ¬ (0xD800 ≤ u.toNat ∧ u.toNat ≤ 0xDFFF) →
      exec .enc3 s = .next
        { s with
          buf := s.buf ++ [0b1110#4 ++ u.extractLsb' 12 4, 0b10#2 ++ u.extractLsb' 6 6, 0b10#2 ++ u.extractLsb' 0 6]
          tpos := s.tpos + 1, seq := ⟨.encode, 0, 0⟩ })

/-- R124, R126, R127 (with R71, R73): a unit of the surrogate band at TPOS with the unit after it, where the policy admits
them as a pair (under `strict` a high surrogate followed by a low one, under `blind` any next unit), is appended as four
bytes and TPOS grows by 2; where it is not admitted, `ENC_SURROGATE` is raised with FINFO = TPOS, and BUF, TPOS and LEN are
unchanged. -/
def Obligations.Enc4EncodesAdmittedPairsAndRejectsTheRest : Prop :=
  encode .enc4 = .seq 0x280 ∧
  ∀ (s : State) (hi : CodeUnit), s.text[s.tpos]? = some hi → 0xD800 ≤ hi.toNat → hi.toNat ≤ 0xDFFF →
    (∀ lo : CodeUnit, s.text[s.tpos + 1]? = some lo →
      (s.cfg.policy = .strict → hi.toNat ≤ 0xDBFF ∧ 0xDC00 ≤ lo.toNat ∧ lo.toNat ≤ 0xDFFF) →
      ∀ cp : BitVec 21, cp.toNat = hi.toNat % 0x400 * 0x400 + lo.toNat % 0x400 + 0x10000 →
        exec .enc4 s = .next
          { s with
            buf := s.buf ++ [0b11110#5 ++ cp.extractLsb' 18 3, 0b10#2 ++ cp.extractLsb' 12 6,
              0b10#2 ++ cp.extractLsb' 6 6, 0b10#2 ++ cp.extractLsb' 0 6]
            tpos := s.tpos + 2, seq := ⟨.encode, 0, 0⟩ }) ∧
    ((∀ lo : CodeUnit, s.text[s.tpos + 1]? = some lo →
        s.cfg.policy = .strict ∧ ¬ (hi.toNat ≤ 0xDBFF ∧ 0xDC00 ≤ lo.toNat ∧ lo.toNat ≤ 0xDFFF)) →
      exec .enc4 s = .next
        { s with
          cause := 1, finfo := s.tpos, busy := false, done := false, fault := true
          seq := { s.seq with phase := .faulted } })

/-- R125: at TPOS = N, ENCEND latches len(BUF) in LEN, or raises `LEN_RANGE` with FINFO = len(BUF) where it exceeds
`MAX_LEN`, writing nothing else. -/
def Obligations.EncendLatchesTheLengthOrRaisesLenRange : Prop :=
  encode .encend = .seq 0x300 ∧
  ∀ s : State, s.tpos = s.text.length →
    (s.buf.length ≤ s.cfg.maxLen → exec .encend s = .next { s with len := s.buf.length, seq := ⟨.pad, 0, 0⟩ }) ∧
    (s.cfg.maxLen < s.buf.length →
      exec .encend s = .next
        { s with
          cause := 2, finfo := s.buf.length, busy := false, done := false, fault := true
          seq := { s.seq with phase := .faulted } })

/-- R129: the encoding of a text of N units has between N and 3·N bytes, and a text of units below 0x80 is encoded element
by element, under either policy. -/
def Obligations.EncodedLengthIsBetweenNAnd3N : Prop :=
  ∀ (policy : SurrogatePolicy) (text : List CodeUnit) (msg : List Byte), encodeFrom policy 0 text = .bytes msg →
    text.length ≤ msg.length ∧ msg.length ≤ 3 * text.length ∧
    ((∀ u ∈ text, u.toNat < 0x80) → msg = text.map fun u => u.extractLsb' 0 8)

/-- R128: on a text made of code points below 0x110000 outside the surrogate band, presented as units, the encoder never
rejects and its output is the concatenation of the forms of the code points, under either policy. -/
def Obligations.EncoderRecoversTheCodePointView : Prop :=
  ∀ (policy : SurrogatePolicy) (cps : List Nat), (∀ cp ∈ cps, isScalar cp = true) →
    encodeFrom policy 0 (cps.flatMap unitsOf) = .bytes (cps.flatMap formOf)

/-- R212, R215: under `strict`, the reported index is that of the first unit at which no character can start: everything
before it encodes, and it is of the band and starts no well-formed pair. -/
def Obligations.TheFirstIllFormedUnitIsReported : Prop :=
  ∀ (text : List CodeUnit) (pos : Nat), encodeFrom .strict 0 text = .bad pos →
    (∃ msg, encodeFrom .strict 0 (text.take pos) = .bytes msg) ∧
    ∃ u, text[pos]? = some u ∧ 0xD800 ≤ u.toNat ∧ u.toNat ≤ 0xDFFF ∧
      ¬ (u.toNat ≤ 0xDBFF ∧ ∃ lo, text[pos + 1]? = some lo ∧ 0xDC00 ≤ lo.toNat ∧ lo.toNat ≤ 0xDFFF)

/-! ## The padding stage -/

/-- R141, R142, R143: PAD80 appends the marker in every state, PADZ a zero byte where len(BUF) mod 64 ≠ 56, and PADLEN,
where it is 56, the eight bytes of 8·LEN, most significant first, with NBLK and BLK. -/
def Obligations.PaddingOperationsAppendTheirBytes : Prop :=
  encode .pad80 = .seq 0x380 ∧ encode .padz = .seq 0x400 ∧ encode .padlen = .seq 0x480 ∧
  ∀ s : State,
    exec .pad80 s = .next { s with buf := s.buf ++ [0x80], seq := ⟨.pad, 1, 0⟩ } ∧
    (s.buf.length % 64 ≠ 56 → exec .padz s = .next { s with buf := s.buf ++ [0x00], seq := ⟨.pad, 1, 0⟩ }) ∧
    (s.buf.length % 64 = 56 → ∀ bits, bits = 8 * s.len →
      exec .padlen s = .next
        { s with
          buf := s.buf ++ [BitVec.ofNat 8 (bits / 256 ^ 7), BitVec.ofNat 8 (bits / 256 ^ 6),
            BitVec.ofNat 8 (bits / 256 ^ 5), BitVec.ofNat 8 (bits / 256 ^ 4), BitVec.ofNat 8 (bits / 256 ^ 3),
            BitVec.ofNat 8 (bits / 256 ^ 2), BitVec.ofNat 8 (bits / 256), BitVec.ofNat 8 bits]
          nblk := (s.buf.length + 8) / 64, blk := 0, seq := ⟨.sched, 0, 0⟩ })

/-- R140, R144: padding makes the length the least multiple of 64 that is at least L + 9, with at most 63 zero bytes, and
the number of blocks is the closed form. -/
def Obligations.PaddedLengthIsTheLeastMultipleOf64 : Prop :=
  ∀ msg : List Byte, ∀ n, n = (msg ++ padding msg.length).length →
    n % 64 = 0 ∧ msg.length + 9 ≤ n ∧ n < msg.length + 9 + 64 ∧
    n = msg.length + 1 + zeroCount msg.length + 8 ∧
    n / 64 = msg.length / 64 + (if msg.length % 64 ≤ 55 then 1 else 2) ∧ n / 64 = (msg.length + 9 + 63) / 64 ∧
    (padding msg.length).length = 1 + zeroCount msg.length + 8 ∧ zeroCount msg.length ≤ 63 ∧
    (msg.length + 1 + zeroCount msg.length) % 64 = 56

/-- R145, R143: for every L up to 2^61 − 1 the length field, read back big-endian, is exactly 8·L. -/
def Obligations.LengthFieldHoldsTheExactBitLength : Prop :=
  ∀ (pre : List Byte) (l : Nat), l ≤ 2 ^ 61 - 1 → memRead (pre ++ lengthField l) pre.length 8 = some (8 * l)

/-! ## The message scheduler -/

/-- R151: WLOAD j writes W[j] with the big-endian word of four bytes of BUF at 64·BLK + 4·j. -/
def Obligations.WloadLoadsOneMessageWord : Prop :=
  (∀ j : BitVec 7, encode (.wload j) = .seq (0x500 + j.setWidth 12)) ∧
  ∀ (s : State) (j : BitVec 7) (b0 b1 b2 b3 : Byte), j.toNat ≤ 15 →
    s.buf[64 * s.blk + 4 * j.toNat]? = some b0 → s.buf[64 * s.blk + 4 * j.toNat + 1]? = some b1 →
    s.buf[64 * s.blk + 4 * j.toNat + 2]? = some b2 → s.buf[64 * s.blk + 4 * j.toNat + 3]? = some b3 →
    exec (.wload j) s = .next
      { s with
        w := s.w.setIfInBounds j.toNat (b0 ++ b1 ++ b2 ++ b3)
        seq := if j.toNat < 15 then ⟨.sched, 0, j.toNat + 1⟩ else ⟨.sched, 1, 16⟩ }

/-- R152: WEXP j writes W[j] from W[j−16], W[j−13], W[j−9], W[j−6] and W[j−3]. -/
def Obligations.WexpExpandsOneWord : Prop :=
  (∀ j : BitVec 7, encode (.wexp j) = .seq (0x580 + j.setWidth 12)) ∧
  ∀ (s : State) (j : BitVec 7) (w16 w13 w9 w6 w3 x : Word), 16 ≤ j.toNat → j.toNat ≤ 67 →
    s.w[j.toNat - 16]? = some w16 → s.w[j.toNat - 13]? = some w13 → s.w[j.toNat - 9]? = some w9 →
    s.w[j.toNat - 6]? = some w6 → s.w[j.toNat - 3]? = some w3 →
    x = w16 ^^^ w9 ^^^ w3.rotateLeft 15 →
    exec (.wexp j) s = .next
      { s with
        w := s.w.setIfInBounds j.toNat
          ((x ^^^ x.rotateLeft 15 ^^^ x.rotateLeft 23) ^^^ w13.rotateLeft 7 ^^^ w6)
        seq := if j.toNat < 67 then ⟨.sched, 1, j.toNat + 1⟩ else ⟨.sched, 2, 0⟩ }

/-- R153: WPRIME j writes Wp[j] with W[j] XOR W[j+4]. -/
def Obligations.WprimeXorsTwoWords : Prop :=
  (∀ j : BitVec 7, encode (.wprime j) = .seq (0x600 + j.setWidth 12)) ∧
  ∀ (s : State) (j : BitVec 7) (a b : Word), j.toNat ≤ 63 → s.w[j.toNat]? = some a → s.w[j.toNat + 4]? = some b →
    exec (.wprime j) s = .next
      { s with
        wp := s.wp.setIfInBounds j.toNat (a ^^^ b)
        seq := if j.toNat < 63 then ⟨.sched, 2, j.toNat + 1⟩ else ⟨.compress, 0, 0⟩ }

/-- V-SCH-3 (derived from R151 to R153): the schedule of a block is linear over XOR, word by word. -/
def Obligations.ScheduleIsLinearOverXor : Prop :=
  ∀ a b : List Byte, a.length = 64 → b.length = 64 →
    scheduleW (List.zipWith (· ^^^ ·) a b) = List.zipWith (· ^^^ ·) (scheduleW a) (scheduleW b) ∧
    scheduleWp (scheduleW (List.zipWith (· ^^^ ·) a b)) =
      List.zipWith (· ^^^ ·) (scheduleWp (scheduleW a)) (scheduleWp (scheduleW b)) ∧
    (scheduleW a).length = 68

/-! ## The compression core -/

/-- R161: CINIT copies V into A..H, in every state, and V keeps its value. -/
def Obligations.CinitCopiesTheChainingValue : Prop :=
  encode .cinit = .seq 0x680 ∧
  ∀ s : State,
    exec .cinit s = .next
      { s with
        work := { a := s.v[0], b := s.v[1], c := s.v[2], d := s.v[3], e := s.v[4], f := s.v[5], g := s.v[6], h := s.v[7] }
        seq := ⟨.compress, 1, 0⟩ }

/-- R163 with R162: a round of the first kind. -/
def Obligations.RoundlIsARoundOfTheFirstKind : Prop :=
  (∀ j : BitVec 7, encode (.roundl j) = .seq (0x700 + j.setWidth 12)) ∧
  ∀ (s : State) (j : BitVec 7) (wj wpj a12 ss1 ss2 tt1 tt2 : Word), j.toNat ≤ 15 →
    s.w[j.toNat]? = some wj → s.wp[j.toNat]? = some wpj →
    a12 = s.work.a.rotateLeft 12 →
    ss1 = (a12 + s.work.e + (0x79CC4519 : Word).rotateLeft (j.toNat % 32)).rotateLeft 7 →
    ss2 = ss1 ^^^ a12 →
    tt1 = (s.work.a ^^^ s.work.b ^^^ s.work.c) + s.work.d + ss2 + wpj →
    tt2 = (s.work.e ^^^ s.work.f ^^^ s.work.g) + s.work.h + ss1 + wj →
    exec (.roundl j) s = .next
      { s with
        work := { a := tt1, b := s.work.a, c := s.work.b.rotateLeft 9, d := s.work.c,
                  e := tt2 ^^^ tt2.rotateLeft 9 ^^^ tt2.rotateLeft 17, f := s.work.e,
                  g := s.work.f.rotateLeft 19, h := s.work.g }
        seq := ⟨.compress, 1, j.toNat + 1⟩ }

/-- R164 with R162: a round of the second kind. -/
def Obligations.RoundhIsARoundOfTheSecondKind : Prop :=
  (∀ j : BitVec 7, encode (.roundh j) = .seq (0x780 + j.setWidth 12)) ∧
  ∀ (s : State) (j : BitVec 7) (wj wpj a12 ss1 ss2 tt1 tt2 : Word), 16 ≤ j.toNat → j.toNat ≤ 63 →
    s.w[j.toNat]? = some wj → s.wp[j.toNat]? = some wpj →
    a12 = s.work.a.rotateLeft 12 →
    ss1 = (a12 + s.work.e + (0x7A879D8A : Word).rotateLeft (j.toNat % 32)).rotateLeft 7 →
    ss2 = ss1 ^^^ a12 →
    tt1 = ((s.work.a &&& s.work.b) ||| (s.work.a &&& s.work.c) ||| (s.work.b &&& s.work.c)) + s.work.d + ss2 + wpj →
    tt2 = ((s.work.e &&& s.work.f) ||| (~~~s.work.e &&& s.work.g)) + s.work.h + ss1 + wj →
    exec (.roundh j) s = .next
      { s with
        work := { a := tt1, b := s.work.a, c := s.work.b.rotateLeft 9, d := s.work.c,
                  e := tt2 ^^^ tt2.rotateLeft 9 ^^^ tt2.rotateLeft 17, f := s.work.e,
                  g := s.work.f.rotateLeft 19, h := s.work.g }
        seq := if j.toNat < 63 then ⟨.compress, 1, j.toNat + 1⟩ else ⟨.compress, 2, 0⟩ }

/-- R165: CFEED XORs A..H into V, matching positions, and BLK grows by 1; R193 rows 18 and 19 give the next state. -/
def Obligations.CfeedXorsTheEntryValueBack : Prop :=
  encode .cfeed = .seq 0x800 ∧
  ∀ s : State, s.blk + 1 ≤ s.nblk →
    exec .cfeed s = .next
      { s with
        v := #v[s.work.a ^^^ s.v[0], s.work.b ^^^ s.v[1], s.work.c ^^^ s.v[2], s.work.d ^^^ s.v[3],
                s.work.e ^^^ s.v[4], s.work.f ^^^ s.v[5], s.work.g ^^^ s.v[6], s.work.h ^^^ s.v[7]]
        blk := s.blk + 1
        seq := if s.blk + 1 < s.nblk then ⟨.sched, 0, 0⟩ else ⟨.format, 0, 0⟩ }

/-! ## The digest formatter -/

/-- R181: after DSER, in every state, byte 4·i + k of DIGEST is byte k of V[i], most significant first; the indices from
32 on and everything else are unchanged. -/
def Obligations.DserStoresTheRegistersBigEndian : Prop :=
  encode .dser = .seq 0x880 ∧
  ∀ s : State, ∃ m : Memory,
    exec .dser s = .next { s with digest := m, seq := ⟨.format, 1, 0⟩ } ∧
    (∀ (i : Nat) (x : Word), s.v[i]? = some x →
      m.read (4 * i) = some (x.extractLsb' 24 8) ∧ m.read (4 * i + 1) = some (x.extractLsb' 16 8) ∧
      m.read (4 * i + 2) = some (x.extractLsb' 8 8) ∧ m.read (4 * i + 3) = some (x.extractLsb' 0 8)) ∧
    ∀ a, 32 ≤ a → m.read a = s.digest.read a

/-- R182: where DIGEST holds 32 bytes, after DHEX characters 2·k and 2·k+1 of HEX are the upper-case digits of the high and
the low nibble of byte k; the indices from 64 on and everything else are unchanged. -/
def Obligations.DhexRendersUpperCaseHighNibbleFirst : Prop :=
  encode .dhex = .seq 0x900 ∧
  ∀ (s : State) (ds : List Byte), ds.length = 32 → (∀ k, k < 32 → s.digest.read k = ds[k]?) →
    ∃ m : Memory,
      exec .dhex s = .next { s with hex := m, seq := ⟨.format, 2, 0⟩ } ∧
      (∀ (k : Nat) (b : Byte), ds[k]? = some b → ∀ hi lo : Nat, hi = b.toNat / 16 → lo = b.toNat % 16 →
        m.read (2 * k) = some (BitVec.ofNat 8 (if hi ≤ 9 then 0x30 + hi else 0x41 + (hi - 10))) ∧
        m.read (2 * k + 1) = some (BitVec.ofNat 8 (if lo ≤ 9 then 0x30 + lo else 0x41 + (lo - 10)))) ∧
      ∀ a, 64 ≤ a → m.read a = s.hex.read a

/-- R183: DIGEST determines V and HEX determines DIGEST. -/
def Obligations.DigestAndHexAreInjective : Prop :=
  (∀ v v' : Vector Word 8, digestOf v = digestOf v' → v = v') ∧
  (∀ ds ds' : List Byte, hexImage ds = hexImage ds' → ds = ds')

/-! ## START and FINISH -/

/-- R191: START, in every state: V ← IV, BUF empty, TPOS ← 0, the flags, CAUSE and FINFO, and the next state of R193 row 1;
the host's TEXT, the parameters and the model's own script and ALU fields are unchanged. Nothing is said of what START makes
unspecified (R36). -/
def Obligations.StartInitialisesTheCall : Prop :=
  encode .start = .seq 0x080 ∧
  ∀ s : State, ∃ t : State,
    exec .start s = .next t ∧
    t.v = s.cfg.iv ∧ t.buf = [] ∧ t.tpos = 0 ∧ t.busy = true ∧ t.done = false ∧ t.fault = false ∧ t.cause = 0 ∧
    t.finfo = 0 ∧ t.seq = ⟨.encode, 0, 0⟩ ∧
    t.cfg = s.cfg ∧ t.text = s.text ∧ t.host = s.host ∧ t.aluReq = s.aluReq ∧ t.aluOut = s.aluOut

/-- R192: FINISH, in every state. -/
def Obligations.FinishSetsDone : Prop :=
  encode .finish = .seq 0x980 ∧
  ∀ s : State,
    exec .finish s = .next { s with busy := false, done := true, seq := { s.seq with phase := .done } }

/-! ## Faults -/

/-- R216, on both causes of R211: raising a fault, as one step instead of the operation that would have been issued,
writes CAUSE, FINFO, the flags and PHASE and nothing else. -/
def Obligations.FaultEntryWritesOnlyTheReport : Prop :=
  ∀ s : State, s.aluReq = none → s.host = [] → s.seq.phase = .encode →
    (∀ u : CodeUnit, s.text[s.tpos]? = some u → 0xD800 ≤ u.toNat → u.toNat ≤ 0xDFFF →
      (∀ lo : CodeUnit, s.text[s.tpos + 1]? = some lo →
        s.cfg.policy = .strict ∧ ¬ (u.toNat ≤ 0xDBFF ∧ 0xDC00 ≤ lo.toNat ∧ lo.toNat ≤ 0xDFFF)) →
      step s = .next
        { s with
          cause := 1, finfo := s.tpos, busy := false, done := false, fault := true
          seq := { s.seq with phase := .faulted } }) ∧
    (s.tpos = s.text.length → s.cfg.maxLen < s.buf.length →
      step s = .next
        { s with
          cause := 2, finfo := s.buf.length, busy := false, done := false, fault := true
          seq := { s.seq with phase := .faulted } })

/-- R210: an operation other than ENC4 and ENCEND never raises a fault: if it answers a next state, that state is not
FAULTED unless the state before was. -/
def Obligations.OnlyEnc4AndEncendRaise : Prop :=
  ∀ (i : Instr) (s t : State), i ≠ .enc4 → i ≠ .encend → exec i s = .next t →
    (t.fault = true → s.fault = true) ∧ (t.seq.phase = .faulted → s.seq.phase = .faulted) ∧
    (i ≠ .start → t.cause = s.cause ∧ t.finfo = s.finfo)

/-- R82, U7: an index outside the range R80 gives is refused. The last clause rests on the model's own ALU port (log
entry 9, the model's choice, not a rule; R84: the functions are never steps): a reserved ALU code presented there is
refused by the step. -/
def Obligations.ReservedOperandsAreRefused : Prop :=
  ∀ (s : State) (j : BitVec 7),
    (15 < j.toNat → exec (.wload j) s = .refused .reservedIndex ∧ exec (.roundl j) s = .refused .reservedIndex) ∧
    (j.toNat < 16 ∨ 67 < j.toNat → exec (.wexp j) s = .refused .reservedIndex) ∧
    (63 < j.toNat → exec (.wprime j) s = .refused .reservedIndex) ∧
    (j.toNat < 16 ∨ 63 < j.toNat → exec (.roundh j) s = .refused .reservedIndex) ∧
    (∀ c : AluCode, 0xD ≤ c.fn.toNat → s.aluReq = some c → step s = .refused .reservedFunction)

/-- Log entries 4, 12, 13 and 14 (the model's choice, not rules): where an operation is executed out of its place, and what
it would read does not exist or the condition its rule names does not hold, it stops under a name and writes nothing; and
in a sequencer state that no row of R193 covers ("There are no other transitions") the step is refused as
`noTransition` (log entry 13). -/
def Obligations.OperationsOutOfPlaceStop : Prop :=
  ∀ s : State,
    (s.text.length ≤ s.tpos → ∀ i ∈ [Instr.enc1, .enc2, .enc3, .enc4], exec i s = .fault .textIndex) ∧
    (∀ u : CodeUnit, s.text[s.tpos]? = some u →
      (0x80 ≤ u.toNat → exec .enc1 s = .refused .notSelected) ∧
      (u.toNat < 0x80 ∨ 0x800 ≤ u.toNat → exec .enc2 s = .refused .notSelected) ∧
      (u.toNat < 0x800 ∨ (0xD800 ≤ u.toNat ∧ u.toNat ≤ 0xDFFF) → exec .enc3 s = .refused .notSelected) ∧
      (¬ (0xD800 ≤ u.toNat ∧ u.toNat ≤ 0xDFFF) → exec .enc4 s = .refused .notSelected)) ∧
    (s.tpos ≠ s.text.length → exec .encend s = .refused .notSelected) ∧
    (s.buf.length % 64 = 56 → exec .padz s = .refused .notSelected) ∧
    (s.buf.length % 64 ≠ 56 → exec .padlen s = .refused .notSelected) ∧
    (∀ j : BitVec 7, j.toNat ≤ 15 → s.buf.length ≤ 64 * s.blk + 4 * j.toNat + 3 →
      exec (.wload j) s = .fault .bufIndex) ∧
    (s.nblk < s.blk + 1 → exec .cfeed s = .refused .noTransition) ∧
    (∀ k, k < 32 → s.digest.read k = none → exec .dhex s = .fault .digestUnwritten) ∧
    (s.aluReq = none → s.host = [] →
      (s.seq.phase = .encode ∧ s.text.length < s.tpos) ∨
      (s.seq.phase = .pad ∧ 2 ≤ s.seq.sub) ∨
      (s.seq.phase = .sched ∧
        ((s.seq.sub = 0 ∧ 16 ≤ s.seq.idx) ∨ (s.seq.sub = 1 ∧ (s.seq.idx < 16 ∨ 68 ≤ s.seq.idx)) ∨
          (s.seq.sub = 2 ∧ 64 ≤ s.seq.idx) ∨ 3 ≤ s.seq.sub)) ∨
      (s.seq.phase = .compress ∧
        ((s.seq.sub = 1 ∧ 64 ≤ s.seq.idx) ∨ (s.seq.sub = 2 ∧ s.nblk < s.blk + 1) ∨ 3 ≤ s.seq.sub)) ∨
      (s.seq.phase = .format ∧ 3 ≤ s.seq.sub) →
      step s = .refused .noTransition)

/-! ## The sequencer and the host -/

/-- R193: the transition table, row by row: in each state, under its condition, the step is the row's operation on that
state, and after it, unless a fault was raised, the sequencer is in the row's next state. -/
def Obligations.SequencerFollowsTheTransitionTable : Prop :=
  ∀ s : State, s.aluReq = none →
    let issues := fun (i : Instr) (q : Seq) =>
      step s = exec i s ∧ ∀ t, step s = .next t → t.seq.phase ≠ .faulted → t.seq = q
    (∀ rest, s.host = .hash :: rest → s.seq.phase ∈ [Phase.idle, .done, .faulted] →
      step s = exec .start { s with host := rest } ∧ ∀ t, step s = .next t → t.seq = ⟨.encode, 0, 0⟩) ∧
    (s.host = [] →
      (s.seq.phase ∈ [Phase.idle, .done, .faulted] → step s = .next s) ∧
      (s.seq.phase = .encode →
        (∀ u : CodeUnit, s.text[s.tpos]? = some u →
          (u.toNat < 0x80 → issues .enc1 ⟨.encode, 0, 0⟩) ∧
          (0x80 ≤ u.toNat → u.toNat < 0x800 → issues .enc2 ⟨.encode, 0, 0⟩) ∧
          (0x800 ≤ u.toNat → ¬ (0xD800 ≤ u.toNat ∧ u.toNat ≤ 0xDFFF) → issues .enc3 ⟨.encode, 0, 0⟩) ∧
          (0xD800 ≤ u.toNat → u.toNat ≤ 0xDFFF →
            ((pairLow s.cfg.policy u s.text[s.tpos + 1]?).isSome = true → issues .enc4 ⟨.encode, 0, 0⟩) ∧
            (pairLow s.cfg.policy u s.text[s.tpos + 1]? = none → step s = .next (s.raise causeEncSurrogate s.tpos)))) ∧
        (s.tpos = s.text.length → issues .encend ⟨.pad, 0, 0⟩)) ∧
      (s.seq.phase = .pad → s.seq.sub = 0 → issues .pad80 ⟨.pad, 1, 0⟩) ∧
      (s.seq.phase = .pad → s.seq.sub = 1 → s.buf.length % 64 ≠ 56 → issues .padz ⟨.pad, 1, 0⟩) ∧
      (s.seq.phase = .pad → s.seq.sub = 1 → s.buf.length % 64 = 56 → issues .padlen ⟨.sched, 0, 0⟩) ∧
      (∀ j : BitVec 7, s.seq.idx = j.toNat →
        (s.seq.phase = .sched → s.seq.sub = 0 → j.toNat ≤ 15 →
          issues (.wload j) (if j.toNat < 15 then ⟨.sched, 0, j.toNat + 1⟩ else ⟨.sched, 1, 16⟩)) ∧
        (s.seq.phase = .sched → s.seq.sub = 1 → 16 ≤ j.toNat → j.toNat ≤ 67 →
          issues (.wexp j) (if j.toNat < 67 then ⟨.sched, 1, j.toNat + 1⟩ else ⟨.sched, 2, 0⟩)) ∧
        (s.seq.phase = .sched → s.seq.sub = 2 → j.toNat ≤ 63 →
          issues (.wprime j) (if j.toNat < 63 then ⟨.sched, 2, j.toNat + 1⟩ else ⟨.compress, 0, 0⟩)) ∧
        (s.seq.phase = .compress → s.seq.sub = 1 → j.toNat ≤ 15 → issues (.roundl j) ⟨.compress, 1, j.toNat + 1⟩) ∧
        (s.seq.phase = .compress → s.seq.sub = 1 → 16 ≤ j.toNat → j.toNat ≤ 63 →
          issues (.roundh j) (if j.toNat < 63 then ⟨.compress, 1, j.toNat + 1⟩ else ⟨.compress, 2, 0⟩))) ∧
      (s.seq.phase = .compress → s.seq.sub = 0 → issues .cinit ⟨.compress, 1, 0⟩) ∧
      (s.seq.phase = .compress → s.seq.sub = 2 → s.blk + 1 < s.nblk → issues .cfeed ⟨.sched, 0, 0⟩) ∧
      (s.seq.phase = .compress → s.seq.sub = 2 → s.blk + 1 = s.nblk → issues .cfeed ⟨.format, 0, 0⟩) ∧
      (s.seq.phase = .format → s.seq.sub = 0 → issues .dser ⟨.format, 1, 0⟩) ∧
      (s.seq.phase = .format → s.seq.sub = 1 → issues .dhex ⟨.format, 2, 0⟩) ∧
      (s.seq.phase = .format → s.seq.sub = 2 →
        step s = exec .finish s ∧ ∀ t, step s = .next t → t.seq.phase = .done))

/-- Log entries 9 and 16 (the model's choice, not rules): an operation of the opcode table placed by `withFetchWord` in any
state is what the next step executes, on the state it was placed in with the placed script entry used up, and that step
completes. -/
def Obligations.APlacedTableWordIsExecutedNext : Prop :=
  ∀ (s : State) (nbits w : Nat) (i : Instr), decodeTableWord nbits w = some i →
    step (s.withFetchWord nbits w) = exec i { s.withFetchWord nbits w with host := s.host } ∧
    ∃ t, step (s.withFetchWord nbits w) = .next t

/-- Log entry 9 (the model's choice, not a rule): an ALU code presented to the ALU that decodes is executed by the next
step, whatever the sequencer and the host's script hold. -/
def Obligations.APresentedAluCodeIsExecutedNext : Prop :=
  ∀ (s : State) (c : AluCode) (i : Instr), s.aluReq = some c → decode (.alu c) = .instr i →
    step s = exec i s ∧ ∃ t, step s = .next t ∧ t.aluReq = none

/-- R195, R67, R242, U6 (the script is the model's form of the host, log entries 5, 6 and 7): a HASH command is START when no
call is in progress and nothing when one is, the engine moving as it would; TEXT is placed between calls only; a step in
which the outside does nothing, by an entry `wait` or by an empty script, is the engine's own move. -/
def Obligations.HostMovesAreAcceptedOnlyBetweenCalls : Prop :=
  ∀ (s : State) (rest : List HostEvent) (units : List CodeUnit), s.aluReq = none →
    step { s with host := .wait :: rest } = engineStep { s with host := rest } ∧
    step { s with host := [] } = engineStep { s with host := [] } ∧
    (s.seq.phase.isBusy = false →
      step { s with host := .hash :: rest } = exec .start { s with host := rest } ∧
      step { s with host := .writeText units :: rest } = .next { s with host := rest, text := units }) ∧
    (s.seq.phase.isBusy = true →
      step { s with host := .hash :: rest } = step { s with host := .wait :: rest } ∧
      step { s with host := .writeText units :: rest } = .refused .textWriteWhileBusy)

/-- R240: a hardware reset in any state: PHASE ← IDLE, the flags, CAUSE and FINFO ← 0, no result for the host; and a call
in progress ends only by FINISH, by a fault, or by a hardware reset. -/
def Obligations.HardResetEndsACallWithoutResult : Prop :=
  ∀ s : State, s.aluReq = none →
    (∀ rest, s.host = .hardReset :: rest → ∃ t, step s = .next t ∧ t.seq.phase = .idle ∧ t.busy = false ∧
      t.done = false ∧ t.fault = false ∧ t.cause = 0 ∧ t.finfo = 0 ∧ t.observed = none) ∧
    (∀ t, step s = .next t → s.seq.phase.isBusy = true → t.seq.phase.isBusy = false →
      (∃ rest, s.host = .hardReset :: rest) ∨ select s = .issue .finish ∨ t.seq.phase = .faulted)

/-- R67, R196: while no call is in progress and the host gives no command, nothing changes, so a result stays readable and
constant. The last clause is the model's choice (log entry 4), not a rule: in every state with `DONE` = 0, during a call
too, the host's read of DIGEST or HEX has no value, where the spec has it return an unspecified one (R37, R67, U3). -/
def Obligations.AResultStaysUntilTheNextCommand : Prop :=
  (∀ s : State, s.aluReq = none → s.seq.phase.isBusy = false →
    (s.host = [] → step s = .next s) ∧
    (∀ rest, s.host = .wait :: rest → step s = .next { s with host := rest }) ∧
    (∀ units rest, s.host = .writeText units :: rest → ∃ t, step s = .next t ∧
      t.observed = s.observed ∧ t.hostDigest = s.hostDigest ∧ t.hostHex = s.hostHex ∧ t.status = s.status)) ∧
  ∀ s : State, s.done = false → s.hostDigest = none ∧ s.hostHex = none

/-! ## Reset and invariants -/

/-- R35, the values it states for reset. The values of the registers it leaves unspecified are the model's choice (log
entry 2) and are not stated. -/
def Obligations.ResetIsIdleWithoutResult : Prop :=
  State.reset.seq.phase = .idle ∧ State.reset.busy = false ∧ State.reset.done = false ∧ State.reset.fault = false ∧
  State.reset.cause = 0 ∧ State.reset.finfo = 0 ∧ State.reset.status = 0 ∧ State.reset.observed = none

/-- The reset state is legal. -/
def Obligations.ResetIsLegal : Prop := Legal State.reset

/-- R25, R27, R28, R50, R52, R144: every step from a legal state leads to a legal state. -/
def Obligations.StepKeepsLegal : Prop :=
  ∀ s t : State, Legal s → step s = .next t → Legal t

/-- R57, R37, R210: from a legal state a step never faults on an access, and is refused only where the host's script has
TEXT written during a call (U6) or a reserved ALU code is presented (U7). -/
def Obligations.LegalStatesStepOn : Prop :=
  ∀ s : State, Legal s →
    (∃ t, step s = .next t) ∨
    (step s = .refused .textWriteWhileBusy ∧ s.busy = true ∧ ∃ units rest, s.host = .writeText units :: rest) ∨
    (step s = .refused .reservedFunction ∧ ∃ c, s.aluReq = some c ∧ 0xD ≤ c.fn.toNat)

/-- R28, R30, R51, R38: no step changes the parameters, and only the host, between calls, changes TEXT. Of a step that is a
hardware reset, "TEXT is unchanged" is the model's deduction (log entry 8: R240 makes every other state element
unspecified, and only R35's list leaves TEXT out), not a rule. -/
def Obligations.OnlyTheHostChangesText : Prop :=
  ∀ s t : State, step s = .next t →
    t.cfg = s.cfg ∧
    (t.text = s.text ∨
      ∃ units rest, s.host = .writeText units :: rest ∧ s.seq.phase.isBusy = false ∧ t.text = units)

/-- R52: BUF is only appended to, except where START empties it and a hardware reset leaves it unspecified; and after
PADLEN (in SCHED, COMPRESS, FORMAT and DONE) it is constant until the next START. -/
def Obligations.BufIsOnlyAppendedTo : Prop :=
  ∀ s t : State, step s = .next t → issuedAt s ≠ some .start → (∀ rest, s.host ≠ .hardReset :: rest) →
    (∃ bs, t.buf = s.buf ++ bs) ∧
    (s.seq.phase = .sched ∨ s.seq.phase = .compress ∨ s.seq.phase = .format ∨ s.seq.phase = .done → t.buf = s.buf)

/-- R24 (with R216 and R193 for the report and the sequencer, R36 for START): an operation changes nothing outside the
elements it writes. -/
def Obligations.OperationsChangeOnlyWhatTheMatrixSays : Prop :=
  ∀ (i : Instr) (s t : State) (e : Elem), exec i s = .next t → writes i e = false → agree e s t

/-- R24, R256: an operation is a function of the elements it reads: on two states that agree on what it reads, and on the
elements an operation only extends or overwrites in part (BUF, DIGEST, HEX, the report, the sequencer), it completes in
both, and each element it writes then agrees, except that LEN stays as it was in each where ENCEND raises a fault. Of
START's writes only those R191 gives a value are compared. -/
def Obligations.OperationsDependOnlyOnWhatTheyRead : Prop :=
  ∀ (i : Instr) (s s' t : State),
    (∀ e, reads i e = true → agree e s s') →
    (∀ e ∈ [Elem.buf, .digest, .hex, .report, .seq], agree e s s') →
    exec i s = .next t →
    ∃ t', exec i s' = .next t' ∧
      ∀ e, writes i e = true → (i = .start → writtenAt t.seq e = true) →
        agree e t t' ∨ (i = .encend ∧ e = .len ∧ t.fault = true ∧ agree e s t ∧ agree e s' t')

/-- R37: "every read in … R193 is preceded, in the same call and for W, Wp and A..H in the same block, by the write of the
same element": in a legal state, whatever the issued operation reads holds a written value, and an element holds a written
value only if an operation has written it since. -/
def Obligations.IssuedOperationsReadOnlyWrittenElements : Prop :=
  ∀ (s : State) (i : Instr), Legal s → select s = .issue i →
    (∀ e, reads i e = true → writtenAt s.seq e = true) ∧
    (∀ t e, exec i s = .next t → writtenAt t.seq e = true → writtenAt s.seq e = true ∨ writes i e = true)

/-! ## The whole call -/

/-- R200, R190, R194: from every state in which no call is in progress, whatever earlier calls left, the command leads in
finitely many steps to the end of the call, and the host then reads exactly what the big-step function gives: the same
fault with the same CAUSE and FINFO, or the same DIGEST and HEX. -/
def Obligations.ACallEndsWithTheBigStepResult : Prop :=
  ∀ s : State, s.seq.phase.isBusy = false → s.aluReq = none → s.host = [.hash] →
    ∃ (n : Nat) (t : State),
      Host.Core.run core n s = .next t ∧ t.ended = true ∧ t.observed = some (hashText s.cfg s.text)

/-- R201, R85, R197: a call that ends in DONE issues exactly the operations of the expansion of HASH, one a step, as many
as R201 counts, and is in progress at every step between. -/
def Obligations.ACallIssuesTheExpansionOfHash : Prop :=
  ∀ (s : State) (msg : List Byte), s.seq.phase.isBusy = false → s.aluReq = none → s.host = [.hash] →
    encodeFrom s.cfg.policy 0 s.text = .bytes msg → msg.length ≤ s.cfg.maxLen →
    ∀ c k nblk n : Nat, c = (encodeOps s.cfg.policy s.text).length → k ≤ 63 → (msg.length + 1 + k) % 64 = 56 →
      64 * nblk = msg.length + 9 + k → n = 1 + (c + 1) + (2 + k) + 198 * nblk + 3 →
      issued n s = hashOps s.cfg.policy s.text msg ∧ (issued n s).length = n ∧
      (∃ t, Host.Core.run core n s = .next t ∧ t.seq.phase = .done) ∧
      ∀ m, 1 ≤ m → m < n → ∃ u, Host.Core.run core m s = .next u ∧ u.seq.phase.isBusy = true

/-- R199: an engine in DONE holds 32 bytes and 64 characters, each `0`..`9` or `A`..`F`, and so does the big-step
result. -/
def Obligations.AResultIsAlways64UpperCaseDigits : Prop :=
  (∀ s : State, Legal s → s.seq.phase = .done → ∃ d h : List Byte, s.observed = some (.digest d h)) ∧
  ∀ (d h : List Byte),
    (∃ s : State, Legal s ∧ s.observed = some (.digest d h)) ∨
      (∃ (c : Config) (text : List CodeUnit), hashText c text = .digest d h) →
    d.length = 32 ∧ h.length = 64 ∧
    ∀ ch ∈ h, (0x30 ≤ ch.toNat ∧ ch.toNat ≤ 0x39) ∨ (0x41 ≤ ch.toNat ∧ ch.toNat ≤ 0x46)

/-- R36, R34, R198: nothing an earlier call left influences a call: two engines with the same parameters and TEXT, in any
legal states, accept the command and then go through the same sequencer states, with the same status and the same result
for the host, step by step. -/
def Obligations.ACallIsIndependentOfEarlierCalls : Prop :=
  ∀ s s' : State, Legal s → Legal s' → s.seq.phase.isBusy = false → s'.seq.phase.isBusy = false →
    s.aluReq = none → s'.aluReq = none → s.host = [.hash] → s'.host = [.hash] → s.cfg = s'.cfg → s.text = s'.text →
    ∀ (n : Nat) (t : State), Host.Core.run core (n + 1) s = .next t →
      ∃ t', Host.Core.run core (n + 1) s' = .next t' ∧ t'.seq = t.seq ∧ t'.status = t.status ∧
        t'.observed = t.observed

/-- R223: several engines share nothing: any interleaving of their steps yields the same states. -/
def Obligations.EnginesAreIndependent : Prop :=
  ∀ (engines : List State) (ks ks' : List Nat), ks.Perm ks' → clusterRun ks engines = clusterRun ks' engines
end

