-- ==== Sys2Proof/Laws/Bits.lean ====
section
/-! SUPPORT. The bit tests, masks and shifts of the operand forms as arithmetic: the classes of code units by value, the
byte forms by their bit fields, and big-endian images by their bit slices. -/

namespace Sys2Proof.Machine

/-- A mask of `m` ones above bit `k`. -/
theorem and_mask_eq (m k n : Nat) : n &&& ((2 ^ m - 1) <<< k) = (n / 2 ^ k % 2 ^ m) * 2 ^ k := by
  rw [← Nat.shiftRight_eq_div_pow, ← Nat.and_two_pow_sub_one_eq_mod, ← Nat.shiftLeft_eq]
  apply Nat.eq_of_testBit_eq
  intro i
  simp only [Nat.testBit_and, Nat.testBit_shiftLeft, Nat.testBit_shiftRight]
  by_cases h : k ≤ i
  · simp [h, Nat.add_sub_cancel' h]
  · simp [h]

/-- OR with a multiple of 2^k above a value below 2^k is addition. -/
theorem or_eq_add {a b : Nat} (k : Nat) (hb : b < 2 ^ k) : (2 ^ k * a) ||| b = 2 ^ k * a + b :=
  (Nat.two_pow_add_eq_or_of_lt hb a).symm

/-! ## Classes of code units (R72) -/

theorem and_FF80_eq_zero (u : CodeUnit) : u &&& 0xFF80 = 0 ↔ u.toNat < 0x80 := by
  rw [← BitVec.toNat_inj]
  have := and_mask_eq 9 7 u.toNat
  simp at this ⊢
  rw [this]; omega

theorem and_F800_eq_zero (u : CodeUnit) : u &&& 0xF800 = 0 ↔ u.toNat < 0x800 := by
  rw [← BitVec.toNat_inj]
  have := and_mask_eq 5 11 u.toNat
  simp at this ⊢
  rw [this]; omega

theorem and_F800_eq_band (u : CodeUnit) : u &&& 0xF800 = 0xD800 ↔ 0xD800 ≤ u.toNat ∧ u.toNat ≤ 0xDFFF := by
  rw [← BitVec.toNat_inj]
  have := and_mask_eq 5 11 u.toNat
  simp at this ⊢
  rw [this]; omega

theorem isHigh_iff (u : CodeUnit) : isHigh u = true ↔ 0xD800 ≤ u.toNat ∧ u.toNat ≤ 0xDBFF := by
  rw [isHigh, beq_iff_eq, ← BitVec.toNat_inj]
  have := and_mask_eq 6 10 u.toNat
  simp at this ⊢
  rw [this]; omega

theorem isLow_iff (u : CodeUnit) : isLow u = true ↔ 0xDC00 ≤ u.toNat ∧ u.toNat ≤ 0xDFFF := by
  rw [isLow, beq_iff_eq, ← BitVec.toNat_inj]
  have := and_mask_eq 6 10 u.toNat
  simp at this ⊢
  rw [this]; omega

/-- The class of a unit, by its value. -/
theorem classify_eq (u : CodeUnit) :
    classify u = if u.toNat < 0x80 then .oneByte else if u.toNat < 0x800 then .twoByte
      else if 0xD800 ≤ u.toNat ∧ u.toNat ≤ 0xDFFF then .surrogate else .threeByte := by
  simp only [classify, and_FF80_eq_zero, and_F800_eq_zero, and_F800_eq_band]

theorem classify_oneByte_iff (u : CodeUnit) : classify u = .oneByte ↔ u.toNat < 0x80 := by
  rw [classify_eq]; split
  · simp [*]
  · split
    · simp [*]
    · split <;> simp [*]

theorem classify_twoByte_iff (u : CodeUnit) : classify u = .twoByte ↔ 0x80 ≤ u.toNat ∧ u.toNat < 0x800 := by
  rw [classify_eq]; split
  · simp; omega
  · split
    · simp; omega
    · split <;> simp <;> omega

theorem classify_surrogate_iff (u : CodeUnit) : classify u = .surrogate ↔ 0xD800 ≤ u.toNat ∧ u.toNat ≤ 0xDFFF := by
  rw [classify_eq]; split
  · simp; omega
  · split
    · simp; omega
    · split <;> simp <;> omega

theorem classify_threeByte_iff (u : CodeUnit) :
    classify u = .threeByte ↔ 0x800 ≤ u.toNat ∧ ¬ (0xD800 ≤ u.toNat ∧ u.toNat ≤ 0xDFFF) := by
  rw [classify_eq]; split
  · simp; omega
  · split
    · simp; omega
    · split <;> simp <;> omega

/-- The low half of an admitted pair under `strict` (R126). -/
theorem pairLow_strict (u : CodeUnit) (next : Option CodeUnit) (lo : CodeUnit) :
    pairLow .strict u next = some lo ↔
      next = some lo ∧ (0xD800 ≤ u.toNat ∧ u.toNat ≤ 0xDBFF) ∧ 0xDC00 ≤ lo.toNat ∧ lo.toNat ≤ 0xDFFF := by
  cases next with
  | none => simp [pairLow]
  | some x =>
    simp only [pairLow, ← isHigh_iff, ← isLow_iff]
    cases hh : isHigh u <;> cases hx : isLow x <;> simp_all
    all_goals rintro rfl <;> simp_all

/-- The low half of an admitted pair under `blind` (R127): the next unit, if there is one. -/
@[simp] theorem pairLow_blind (u : CodeUnit) (next : Option CodeUnit) : pairLow .blind u next = next := by
  cases next <;> rfl

@[simp] theorem pairLow_none (p : SurrogatePolicy) (u : CodeUnit) : pairLow p u none = none := by
  cases p <;> rfl

/-- An admitted low half is the next unit. -/
theorem pairLow_next {p : SurrogatePolicy} {u : CodeUnit} {next : Option CodeUnit} {lo : CodeUnit}
    (h : pairLow p u next = some lo) : next = some lo := by
  cases p with
  | strict => exact ((pairLow_strict u next lo).1 h).1
  | blind => simpa using h

/-! ## Byte forms (R71, R73) -/

theorem byteOf_toNat (n : Nat) : (byteOf n).toNat = n % 256 := by simp [byteOf]

theorem contByte_toNat (x : Nat) : (contByte x).toNat = 128 + x % 64 := by
  have h := or_eq_add (a := 2) (b := x % 64) 6 (Nat.mod_lt _ (by decide))
  have h2 := Nat.and_two_pow_sub_one_eq_mod x 6
  simp only [contByte, byteOf_toNat]
  simp at h h2
  rw [h2, h]; omega

/-- A continuation byte by its fields: `10xxxxxx`. -/
theorem contByte_eq {w : Nat} (x : BitVec w) (k : Nat) : contByte (x.toNat >>> k) = 0b10#2 ++ x.extractLsb' k 6 := by
  apply BitVec.eq_of_toNat_eq
  rw [contByte_toNat, BitVec.toNat_append, BitVec.extractLsb'_toNat]
  have h := or_eq_add (a := 2) (b := x.toNat >>> k % 2 ^ 6) 6 (Nat.mod_lt _ (by decide))
  simp at h ⊢
  rw [h]

theorem contByte_eq_zero {w : Nat} (x : BitVec w) : contByte x.toNat = 0b10#2 ++ x.extractLsb' 0 6 := by
  simpa using contByte_eq x 0

/-- A leading byte by its fields: a prefix above a payload of `m` bits that fits. -/
theorem leadByte_eq {w m n : Nat} (p : BitVec n) (x : BitVec w) (k : Nat) (hmn : n + m = 8)
    (hx : x.toNat >>> k < 2 ^ m) : byteOf (p.toNat * 2 ^ m ||| x.toNat >>> k) = (p ++ x.extractLsb' k m).cast hmn := by
  apply BitVec.eq_of_toNat_eq
  have hp := p.isLt
  have h := or_eq_add (a := p.toNat) (b := x.toNat >>> k) m hx
  rw [byteOf_toNat, BitVec.toNat_cast, BitVec.toNat_append, BitVec.extractLsb'_toNat, Nat.mod_eq_of_lt hx,
    Nat.shiftLeft_eq, Nat.mul_comm, h, Nat.mod_eq_of_lt]
  have : 2 ^ m * p.toNat + 2 ^ m ≤ 2 ^ m * 2 ^ n := by
    rw [← Nat.mul_succ]; exact Nat.mul_le_mul_left _ hp
  have h256 : 2 ^ m * 2 ^ n = 256 := by rw [← Nat.pow_add, Nat.add_comm, hmn]
  omega

/-- R121: one byte, `0xxxxxxx` when the unit is below 0x80. -/
theorem form1_eq (u : CodeUnit) : form1 u.toNat = [u.extractLsb' 0 8] := by
  simp only [form1, byteOf, List.cons.injEq, and_true]
  apply BitVec.eq_of_toNat_eq
  simp

/-- R122: `110xxxxx 10xxxxxx`. -/
theorem form2_eq (u : CodeUnit) (h : u.toNat < 0x800) :
    form2 u.toNat = [0b110#3 ++ u.extractLsb' 6 5, 0b10#2 ++ u.extractLsb' 0 6] := by
  have hx : u.toNat >>> 6 < 2 ^ 5 := by rw [Nat.shiftRight_eq_div_pow]; omega
  have h1 := leadByte_eq 0b110#3 u 6 (m := 5) rfl hx
  rw [form2, contByte_eq_zero]
  exact congrArg (fun b => [b, _]) h1

/-- R123: `1110xxxx 10xxxxxx 10xxxxxx`. -/
theorem form3_eq (u : CodeUnit) :
    form3 u.toNat = [0b1110#4 ++ u.extractLsb' 12 4, 0b10#2 ++ u.extractLsb' 6 6, 0b10#2 ++ u.extractLsb' 0 6] := by
  have hx : u.toNat >>> 12 < 2 ^ 4 := by rw [Nat.shiftRight_eq_div_pow]; have := u.isLt; omega
  have h1 := leadByte_eq 0b1110#4 u 12 (m := 4) rfl hx
  rw [form3, contByte_eq_zero, contByte_eq]
  exact congrArg (fun b => [b, _, _]) h1

/-- R124: `11110xxx 10xxxxxx 10xxxxxx 10xxxxxx`. -/
theorem form4_eq (cp : BitVec 21) :
    form4 cp.toNat = [0b11110#5 ++ cp.extractLsb' 18 3, 0b10#2 ++ cp.extractLsb' 12 6,
      0b10#2 ++ cp.extractLsb' 6 6, 0b10#2 ++ cp.extractLsb' 0 6] := by
  have hx : cp.toNat >>> 18 < 2 ^ 3 := by rw [Nat.shiftRight_eq_div_pow]; have := cp.isLt; omega
  have h1 := leadByte_eq 0b11110#5 cp 18 (m := 3) rfl hx
  rw [form4, contByte_eq_zero, contByte_eq, contByte_eq]
  exact congrArg (fun b => [b, _, _, _]) h1

/-- R73 by arithmetic: ten bits of each unit, offset by 0x10000. -/
theorem pairPoint_eq (hi lo : CodeUnit) :
    pairPoint hi lo = hi.toNat % 0x400 * 0x400 + lo.toNat % 0x400 + 0x10000 := by
  have h1 := Nat.and_two_pow_sub_one_eq_mod hi.toNat 10
  have h2 := Nat.and_two_pow_sub_one_eq_mod lo.toNat 10
  have h := or_eq_add (a := hi.toNat % 1024) (b := lo.toNat % 1024) 10 (Nat.mod_lt _ (by decide))
  simp at h1 h2 h
  simp only [pairPoint, h1, h2, Nat.shiftLeft_eq]
  rw [show hi.toNat % 1024 * 2 ^ 10 = 1024 * (hi.toNat % 1024) by omega, h]
  try omega

theorem pairPoint_lt (hi lo : CodeUnit) : pairPoint hi lo < 0x110000 := by
  rw [pairPoint_eq]; omega

/-! ## Big-endian images (R55, R56) -/

/-- A word's image is its four byte slices. -/
theorem beBytes_word (x : Word) :
    beBytes 4 x.toNat = [x.extractLsb' 24 8, x.extractLsb' 16 8, x.extractLsb' 8 8, x.extractLsb' 0 8] := by
  simp only [beBytes, List.range, List.range.loop, List.map]
  congr 1
  · apply BitVec.eq_of_toNat_eq; simp [Nat.shiftRight_eq_div_pow]
  · congr 1
    · apply BitVec.eq_of_toNat_eq; simp [Nat.shiftRight_eq_div_pow]
    · congr 1
      · apply BitVec.eq_of_toNat_eq; simp [Nat.shiftRight_eq_div_pow]
      · congr 1
        apply BitVec.eq_of_toNat_eq; simp

/-- Eight bytes, most significant first. -/
theorem beBytes_eight (n : Nat) :
    beBytes 8 n = [BitVec.ofNat 8 (n / 256 ^ 7), BitVec.ofNat 8 (n / 256 ^ 6), BitVec.ofNat 8 (n / 256 ^ 5),
      BitVec.ofNat 8 (n / 256 ^ 4), BitVec.ofNat 8 (n / 256 ^ 3), BitVec.ofNat 8 (n / 256 ^ 2),
      BitVec.ofNat 8 (n / 256), BitVec.ofNat 8 n] := by
  simp [beBytes, List.range, List.range.loop]

/-- Four bytes of BUF read as a number are their concatenation. -/
theorem memRead_four {buf : List Byte} {a : Nat} {b0 b1 b2 b3 : Byte} (h0 : buf[a]? = some b0)
    (h1 : buf[a + 1]? = some b1) (h2 : buf[a + 2]? = some b2) (h3 : buf[a + 3]? = some b3) :
    memRead buf a 4 = some (b0 ++ b1 ++ b2 ++ b3).toNat := by
  have e1 := or_eq_add (a := b0.toNat) (b := b1.toNat) 8 b1.isLt
  have e2 := or_eq_add (a := 2 ^ 8 * b0.toNat + b1.toNat) (b := b2.toNat) 8 b2.isLt
  have e3 := or_eq_add (a := 2 ^ 8 * (2 ^ 8 * b0.toNat + b1.toNat) + b2.toNat) (b := b3.toNat) 8 b3.isLt
  simp only [memRead, h0, h1, h2, h3]
  simp only [BitVec.toNat_append, Nat.shiftLeft_eq, Nat.mul_comm _ (2 ^ 8), e1, e2, e3]
  simp only [Option.some.injEq]
  omega

/-- A word of a block is the concatenation of its four bytes (R75, R151). -/
theorem messageWord_eq {buf : List Byte} {blk j : Nat} {b0 b1 b2 b3 : Byte}
    (h0 : buf[64 * blk + 4 * j]? = some b0) (h1 : buf[64 * blk + 4 * j + 1]? = some b1)
    (h2 : buf[64 * blk + 4 * j + 2]? = some b2) (h3 : buf[64 * blk + 4 * j + 3]? = some b3) :
    messageWord buf blk j = some (b0 ++ b1 ++ b2 ++ b3) := by
  simp [messageWord, wordIndex, memRead_four h0 h1 h2 h3]

/-- MemRead fails exactly where BUF ends too early. -/
theorem memRead_isSome {buf : List Byte} {a : Nat} (n : Nat) : (memRead buf a n).isSome = true ↔ n = 0 ∨ a + n ≤ buf.length := by
  induction n generalizing a with
  | zero => simp [memRead]
  | succ n ih =>
    have := @ih (a + 1)
    simp only [memRead]
    by_cases ha : a < buf.length
    · rw [List.getElem?_eq_getElem ha]
      cases h : memRead buf (a + 1) n with
      | none => rw [h] at this; simp at this ⊢; omega
      | some v => rw [h] at this; simp at this ⊢; omega
    · rw [List.getElem?_eq_none (by omega)]
      simp; omega

/-- A word of a block exists exactly where BUF reaches its last byte. -/
theorem messageWord_isSome (buf : List Byte) (blk j : Nat) :
    (messageWord buf blk j).isSome = true ↔ 64 * blk + 4 * j + 3 < buf.length := by
  have := @memRead_isSome buf (wordIndex blk j) 4
  simp only [messageWord]
  cases h : memRead buf (wordIndex blk j) 4 <;> rw [h] at this <;> simp [wordIndex] at this ⊢ <;> omega

end Sys2Proof.Machine
end

