-- ==== Sys2Proof/Laws/Alu.lean ====
section
/-! SUPPORT. Rotation by arithmetic and bit by bit, and rotations put together. -/

namespace Sys2Proof.Machine

/-- A rotation by an amount in range is the bit vector's own. -/
theorem rotl_eq (x : Word) {n : Nat} (h : n < 32) : rotl x n = x.rotateLeft n := by
  rw [rotl, Nat.mod_eq_of_lt h]

/-- R106 by arithmetic. -/
theorem rotl_toNat (x : Word) {n : Nat} (h1 : 1 ≤ n) (h : n ≤ 31) :
    (rotl x n).toNat = x.toNat * 2 ^ n % 2 ^ 32 + x.toNat / 2 ^ (32 - n) := by
  have hx := x.isLt
  have hd : x.toNat / 2 ^ (32 - n) < 2 ^ n := by
    apply Nat.div_lt_of_lt_mul
    rw [← Nat.pow_add]
    simpa [show 32 - n + n = 32 by omega] using hx
  rw [rotl, Nat.mod_eq_of_lt (by omega), BitVec.rotateLeft_def, Nat.mod_eq_of_lt (by omega)]
  simp only [BitVec.toNat_or, BitVec.toNat_shiftLeft, BitVec.toNat_ushiftRight, Nat.shiftLeft_eq,
    Nat.shiftRight_eq_div_pow]
  have : x.toNat * 2 ^ n % 2 ^ 32 = 2 ^ n * (x.toNat % 2 ^ (32 - n)) := by
    rw [Nat.mul_comm, show (2 : Nat) ^ 32 = 2 ^ n * 2 ^ (32 - n) by rw [← Nat.pow_add]; congr 1; omega,
      Nat.mul_mod_mul_left]
  rw [this, or_eq_add n hd]

/-- R106 bit by bit: bit k of the result is bit k − n of the operand, counted round. -/
theorem rotl_getLsbD (x : Word) (n : Nat) {k : Nat} (hk : k < 32) :
    (rotl x n).getLsbD k = x.getLsbD ((k + 32 - n % 32) % 32) := by
  have : n % 32 < 32 := Nat.mod_lt _ (by decide)
  rw [rotl, BitVec.getLsbD_rotateLeft]
  by_cases h : k < n % 32
  · simp only [Nat.mod_mod, h, decide_true, cond_true]; congr 1; omega
  · rw [show (k + 32 - n % 32) % 32 = k - n % 32 by omega]; simp [h, hk]

/-- Rotations compose modulo 32. -/
theorem rotl_rotl (x : Word) (a b : Nat) : rotl (rotl x a) b = rotl x ((a + b) % 32) := by
  apply BitVec.eq_of_getLsbD_eq
  intro k hk
  rw [rotl_getLsbD _ _ hk, rotl_getLsbD _ _ (Nat.mod_lt _ (by decide)), rotl_getLsbD _ _ hk]
  congr 1; omega

/-- Rotation is linear over XOR. -/
theorem rotl_xor (x y : Word) (n : Nat) : rotl (xor32 x y) n = xor32 (rotl x n) (rotl y n) := by
  apply BitVec.eq_of_getLsbD_eq
  intro k hk
  simp only [xor32, BitVec.getLsbD_xor, rotl_getLsbD _ _ hk]

/-- P1 is linear over XOR. -/
theorem p1_xor (x y : Word) : p1 (xor32 x y) = xor32 (p1 x) (p1 y) := by
  simp only [p1, rotl_xor]
  simp only [xor32]; ac_rfl

/-- The expansion of a word is linear over XOR, in its five words together. -/
theorem expandWord_xor (a b c d e a' b' c' d' e' : Word) :
    expandWord (xor32 a a') (xor32 b b') (xor32 c c') (xor32 d d') (xor32 e e') =
      xor32 (expandWord a b c d e) (expandWord a' b' c' d' e') := by
  have h : xor32 (xor32 (xor32 a a') (xor32 b b')) (rotl (xor32 c c') 15) =
      xor32 (xor32 (xor32 a b) (rotl c 15)) (xor32 (xor32 a' b') (rotl c' 15)) := by
    rw [rotl_xor]; simp only [xor32]; ac_rfl
  rw [expandWord, h, p1_xor, rotl_xor d d' 7]
  simp only [expandWord, xor32]; ac_rfl

end Sys2Proof.Machine
end

