-- ==== Sys2Proof/Laws/Encoding.lean ====
section
/-! SUPPORT. The two fields of a control word and their places (R78). -/

namespace Sys2Proof

open Machine (or_eq_add)

theorem scwOf_toNat (op : BitVec 5) (idx : BitVec 7) : (scwOf op idx).toNat = 128 * op.toNat + idx.toNat := by
  rw [scwOf, BitVec.toNat_append, Nat.shiftLeft_eq, Nat.mul_comm]
  exact or_eq_add 7 idx.isLt

theorem opOf_toNat (scw : BitVec 12) : (opOf scw).toNat = scw.toNat / 128 := by
  have := scw.isLt
  simp [opOf, Nat.shiftRight_eq_div_pow]; omega

theorem idxOf_toNat (scw : BitVec 12) : (idxOf scw).toNat = scw.toNat % 128 := by
  simp [idxOf]

@[simp] theorem opOf_scwOf (op : BitVec 5) (idx : BitVec 7) : opOf (scwOf op idx) = op := by
  apply BitVec.eq_of_toNat_eq
  have := idx.isLt
  rw [opOf_toNat, scwOf_toNat]; omega

@[simp] theorem idxOf_scwOf (op : BitVec 5) (idx : BitVec 7) : idxOf (scwOf op idx) = idx := by
  apply BitVec.eq_of_toNat_eq
  have := idx.isLt
  rw [idxOf_toNat, scwOf_toNat]; omega

@[simp] theorem scwOf_opOf_idxOf (scw : BitVec 12) : scwOf (opOf scw) (idxOf scw) = scw := by
  apply BitVec.eq_of_toNat_eq
  rw [scwOf_toNat, idxOf_toNat, opOf_toNat]; omega

end Sys2Proof
end

