-- ==== Sys2Proof/Laws/Memory.lean ====
section
/-! SUPPORT. The laws of the byte spaces: read after write, the canonical form, and what big-endian writes and reads do. -/

namespace Sys2Proof.Machine

@[simp] theorem read_nil (a : Nat) : Memory.read [] a = none := rfl

theorem read_cons (k : Nat) (c : Byte) (m : Memory) (a : Nat) :
    Memory.read ((k, c) :: m) a = if k = a then some c else Memory.read m a := rfl

/-- Read after write, at the same index and at another one. -/
theorem read_write (m : Memory) (a b : Nat) (x : Byte) :
    (m.write a x).read b = if a = b then some x else m.read b := by
  induction m with
  | nil => simp [Memory.write, read_cons]
  | cons p m ih =>
    obtain ⟨k, c⟩ := p
    unfold Memory.write
    split
    · simp [read_cons]
    · split
      · subst_vars
        by_cases h : k = b <;> simp [read_cons, h]
      · by_cases h : k = b
        · subst h
          have : a ≠ k := by omega
          simp [read_cons, this]
        · simp [read_cons, h, ih]

/-- Every cell of a written space is the written one or an old one. -/
theorem mem_write {m : Memory} {a : Nat} {x : Byte} {p : Host.Cell} (h : p ∈ m.write a x) : p = (a, x) ∨ p ∈ m := by
  induction m with
  | nil => exact .inl (by simpa [Memory.write] using h)
  | cons q m ih =>
    obtain ⟨k, c⟩ := q
    unfold Memory.write at h
    split at h
    · simpa using h
    · split at h
      · rcases List.mem_cons.1 h with h | h
        · exact .inl h
        · exact .inr (List.mem_cons_of_mem _ h)
      · rcases List.mem_cons.1 h with h | h
        · exact .inr (h ▸ List.mem_cons_self)
        · exact (ih h).imp id (List.mem_cons_of_mem _)

/-- A write keeps the canonical form. -/
theorem write_wf {m : Memory} (hm : m.wf) (a : Nat) (x : Byte) : (m.write a x).wf := by
  induction m with
  | nil => simp [Memory.write, Memory.wf]
  | cons p m ih =>
    obtain ⟨k, c⟩ := p
    obtain ⟨h1, h2⟩ := List.pairwise_cons.1 hm
    unfold Memory.write
    split
    · next hlt =>
      refine List.pairwise_cons.2 ⟨fun q hq => ?_, hm⟩
      rcases List.mem_cons.1 hq with rfl | hq
      · exact hlt
      · exact Nat.lt_trans hlt (h1 q hq)
    · split
      · next _ he =>
        subst he
        exact List.pairwise_cons.2 ⟨h1, h2⟩
      · refine List.pairwise_cons.2 ⟨fun q hq => ?_, ih h2⟩
        rcases mem_write hq with rfl | hq
        · show k < a
          omega
        · exact h1 q hq

/-- Writing bytes keeps the canonical form. -/
theorem writeBytes_wf {m : Memory} (hm : m.wf) (a : Nat) (bs : List Byte) : (m.writeBytes a bs).wf := by
  induction bs generalizing m a with
  | nil => exact hm
  | cons b bs ih => exact ih (write_wf hm a b) (a + 1)

/-- Every cell of a space after a write of bytes lies in the written range or is an old one. -/
theorem mem_writeBytes {m : Memory} {a : Nat} {bs : List Byte} {p : Host.Cell} (h : p ∈ m.writeBytes a bs) :
    (a ≤ p.1 ∧ p.1 < a + bs.length) ∨ p ∈ m := by
  induction bs generalizing m a with
  | nil => exact .inr h
  | cons b bs ih =>
    rcases ih h with ⟨h1, h2⟩ | h
    · exact .inl ⟨by omega, by simp; omega⟩
    · rcases mem_write h with rfl | h
      · exact .inl ⟨Nat.le_refl _, by simp⟩
      · exact .inr h

/-- What a read gives after a write of bytes. -/
theorem read_writeBytes (m : Memory) (a : Nat) (bs : List Byte) (b : Nat) :
    (m.writeBytes a bs).read b = if a ≤ b ∧ b < a + bs.length then bs[b - a]? else m.read b := by
  induction bs generalizing m a with
  | nil =>
    have : ¬ (a ≤ b ∧ b < a + ([] : List Byte).length) := by simp
    simp only [this, if_false]; rfl
  | cons x bs ih =>
    show (Memory.writeBytes (m.write a x) (a + 1) bs).read b = _
    rw [ih, read_write]
    by_cases h1 : a = b
    · subst h1
      have : ¬ (a + 1 ≤ a ∧ a < a + 1 + bs.length) := by omega
      simp [this]
    · by_cases h2 : a + 1 ≤ b ∧ b < a + 1 + bs.length
      · have h3 : a ≤ b ∧ b < a + (x :: bs).length := by simp; omega
        have h4 : b - a = (b - (a + 1)) + 1 := by omega
        rw [if_pos h2, if_pos h3, h4, List.getElem?_cons_succ]
      · have h3 : ¬ (a ≤ b ∧ b < a + (x :: bs).length) := by simp; omega
        rw [if_neg h2, if_neg h3, if_neg h1]

/-- Bytes read are as many as asked for. -/
theorem readBytes_length {m : Memory} {a n : Nat} {bs : List Byte} (h : m.readBytes a n = some bs) : bs.length = n := by
  induction n generalizing a bs with
  | zero => simp only [Memory.readBytes, Option.some.injEq] at h; simp [← h]
  | succ n ih =>
    simp only [Memory.readBytes] at h
    split at h
    · next b cs hb hcs =>
      obtain rfl := Option.some.inj h
      simp [ih hcs]
    · cases h

/-- Bytes are read exactly where each of them is. -/
theorem readBytes_eq_some_iff {m : Memory} {a n : Nat} {bs : List Byte} :
    m.readBytes a n = some bs ↔ bs.length = n ∧ ∀ k, k < n → m.read (a + k) = bs[k]? := by
  induction n generalizing a bs with
  | zero =>
    simp only [Memory.readBytes, Option.some.injEq, Nat.not_lt_zero, false_imp_iff, implies_true, and_true]
    exact ⟨fun h => by simp [← h], fun h => (List.eq_nil_of_length_eq_zero h).symm⟩
  | succ n ih =>
    constructor
    · intro h
      refine ⟨readBytes_length h, ?_⟩
      simp only [Memory.readBytes] at h
      split at h
      · next b cs hb hcs =>
        obtain rfl := Option.some.inj h
        intro k hk
        cases k with
        | zero => simpa using hb
        | succ k =>
          have := (ih.1 hcs).2 k (by omega)
          rw [List.getElem?_cons_succ, ← this]
          congr 1; omega
      · cases h
    · rintro ⟨hl, h⟩
      cases bs with
      | nil => simp at hl
      | cons b cs =>
        have h0 := h 0 (by omega)
        have hr : m.readBytes (a + 1) n = some cs := by
          refine ih.2 ⟨by simpa using hl, fun k hk => ?_⟩
          have := h (k + 1) (by omega)
          rw [List.getElem?_cons_succ] at this
          rw [← this]; congr 1; omega
        simp only [Memory.readBytes, hr]
        simp only [Nat.add_zero, List.getElem?_cons_zero] at h0
        rw [h0]

/-- A range of bytes just written reads back. -/
theorem readBytes_writeBytes (m : Memory) (a : Nat) (bs : List Byte) :
    (m.writeBytes a bs).readBytes a bs.length = some bs := by
  refine readBytes_eq_some_iff.2 ⟨rfl, fun k hk => ?_⟩
  rw [read_writeBytes, if_pos ⟨by omega, by omega⟩]
  congr 1; omega

/-- Writing two runs of bytes one after the other is writing them together. -/
theorem writeBytes_append (m : Memory) (a : Nat) (bs cs : List Byte) :
    m.writeBytes a (bs ++ cs) = (m.writeBytes a bs).writeBytes (a + bs.length) cs := by
  induction bs generalizing m a with
  | nil => rfl
  | cons b bs ih =>
    show Memory.writeBytes (m.write a b) (a + 1) (bs ++ cs) = _
    rw [ih]
    show Memory.writeBytes _ _ cs = Memory.writeBytes (Memory.writeBytes (m.write a b) (a + 1) bs) _ cs
    congr 1; simp; omega

@[simp] theorem beBytes_length (n v : Nat) : (beBytes n v).length = n := by simp [beBytes]

end Sys2Proof.Machine
end

