-- ==== Sys2Proof/Laws/Images.lean ====
section
/-! SUPPORT. Byte images: the length field, the digest of a register state and the rendering of a byte sequence, by
position; and what writing them leaves. -/

namespace Sys2Proof.Machine

/-! ## Pieces of one length put together -/

theorem flatMap_length {α β : Type} {f : α → List β} {c : Nat} (hf : ∀ x, (f x).length = c) (xs : List α) :
    (xs.flatMap f).length = c * xs.length := by
  induction xs with
  | nil => rfl
  | cons x xs ih => rw [List.flatMap_cons, List.length_append, ih, hf, List.length_cons, Nat.mul_succ, Nat.add_comm]

theorem flatMap_getElem? {α β : Type} {f : α → List β} {c : Nat} (hf : ∀ x, (f x).length = c) (xs : List α) (i : Nat)
    {k : Nat} (hk : k < c) : (xs.flatMap f)[c * i + k]? = xs[i]?.bind fun x => (f x)[k]? := by
  induction xs generalizing i with
  | nil => simp
  | cons x xs ih =>
    rw [List.flatMap_cons]
    cases i with
    | zero => rw [List.getElem?_append_left (by rw [hf]; omega)]; simp
    | succ i =>
      rw [List.getElem?_append_right (by rw [hf, Nat.mul_succ]; omega), hf]
      simp only [List.getElem?_cons_succ, ← ih]
      congr 1; rw [Nat.mul_succ]; omega

theorem flatMap_inj {α β : Type} {f : α → List β} {c : Nat} (hc : 0 < c) (hf : ∀ x, (f x).length = c)
    (inj : ∀ x y, f x = f y → x = y) {xs ys : List α} (h : xs.flatMap f = ys.flatMap f) : xs = ys := by
  induction xs generalizing ys with
  | nil =>
    cases ys with
    | nil => rfl
    | cons y ys => have := congrArg List.length h; simp [hf] at this; omega
  | cons x xs ih =>
    cases ys with
    | nil => have := congrArg List.length h; simp [hf] at this; omega
    | cons y ys =>
      rw [List.flatMap_cons, List.flatMap_cons] at h
      obtain ⟨h1, h2⟩ := List.append_inj h (by rw [hf, hf])
      rw [inj _ _ h1, ih h2]

/-! ## The length field (R143) -/

@[simp] theorem lengthField_length (l : Nat) : (lengthField l).length = 8 := by simp [lengthField]

/-- A read past a prefix is a read of what follows it. -/
theorem memRead_append (pre bs : List Byte) (k n : Nat) : memRead (pre ++ bs) (pre.length + k) n = memRead bs k n := by
  induction n generalizing k with
  | zero => rfl
  | succ n ih =>
    simp only [memRead, Nat.add_assoc, ih]
    rw [List.getElem?_append_right (by omega)]; congr; omega

/-! ## DIGEST (R76, R181) -/

@[simp] theorem digestOf_length (v : Vector Word 8) : (digestOf v).length = 32 := by
  rw [digestOf, flatMap_length (fun _ => beBytes_length _ _)]; simp

theorem digestOf_getElem? (v : Vector Word 8) (i : Nat) {k : Nat} (hk : k < 4) :
    (digestOf v)[4 * i + k]? = v[i]?.bind fun x => (beBytes 4 x.toNat)[k]? := by
  rw [digestOf, flatMap_getElem? (fun _ => beBytes_length _ _) _ _ hk]
  simp

/-- What DSER writes, as one run of bytes. -/
theorem serialise_eq (m : Memory) (i : Nat) (xs : List Word) :
    serialise m i xs = m.writeBytes (4 * i) (xs.flatMap fun x => beBytes 4 x.toNat) := by
  induction xs generalizing m i with
  | nil => rfl
  | cons x xs ih =>
    rw [serialise, ih, List.flatMap_cons, writeBytes_append, beBytes_length, Memory.memWrite, Nat.mul_add]

/-! ## HEX (R77, R182) -/

@[simp] theorem hexImage_length (ds : List Byte) : (hexImage ds).length = 2 * ds.length :=
  flatMap_length (f := hexPair) (c := 2) (fun _ => rfl) ds

theorem hexImage_getElem? (ds : List Byte) (i : Nat) {k : Nat} (hk : k < 2) :
    (hexImage ds)[2 * i + k]? = ds[i]?.bind fun b => (hexPair b)[k]? :=
  flatMap_getElem? (f := hexPair) (c := 2) (fun _ => rfl) ds i hk

theorem hexDigit_eq (n : Nat) : hexDigit n = BitVec.ofNat 8 (if n ≤ 9 then 0x30 + n else 0x41 + (n - 10)) := by
  unfold hexDigit byteOf; split <;> rfl

end Sys2Proof.Machine
end

