-- ==== Sys2Proof/Laws/State.lean ====
section
/-! SUPPORT. One lemma per field per update of the state, so that no proof unfolds a record update. A field that an update
leaves free has no lemma. -/

namespace Sys2Proof.Machine

variable (s : State)

/-! ### setFlags -/

@[simp] theorem setFlags_cfg (b d f : Bool) : (s.setFlags b d f).cfg = s.cfg := rfl
@[simp] theorem setFlags_v (b d f : Bool) : (s.setFlags b d f).v = s.v := rfl
@[simp] theorem setFlags_work (b d f : Bool) : (s.setFlags b d f).work = s.work := rfl
@[simp] theorem setFlags_w (b d f : Bool) : (s.setFlags b d f).w = s.w := rfl
@[simp] theorem setFlags_wp (b d f : Bool) : (s.setFlags b d f).wp = s.wp := rfl
@[simp] theorem setFlags_text (b d f : Bool) : (s.setFlags b d f).text = s.text := rfl
@[simp] theorem setFlags_buf (b d f : Bool) : (s.setFlags b d f).buf = s.buf := rfl
@[simp] theorem setFlags_len (b d f : Bool) : (s.setFlags b d f).len = s.len := rfl
@[simp] theorem setFlags_digest (b d f : Bool) : (s.setFlags b d f).digest = s.digest := rfl
@[simp] theorem setFlags_hex (b d f : Bool) : (s.setFlags b d f).hex = s.hex := rfl
@[simp] theorem setFlags_seq (b d f : Bool) : (s.setFlags b d f).seq = s.seq := rfl
@[simp] theorem setFlags_tpos (b d f : Bool) : (s.setFlags b d f).tpos = s.tpos := rfl
@[simp] theorem setFlags_blk (b d f : Bool) : (s.setFlags b d f).blk = s.blk := rfl
@[simp] theorem setFlags_nblk (b d f : Bool) : (s.setFlags b d f).nblk = s.nblk := rfl
@[simp] theorem setFlags_busy (b d f : Bool) : (s.setFlags b d f).busy = b := rfl
@[simp] theorem setFlags_done (b d f : Bool) : (s.setFlags b d f).done = d := rfl
@[simp] theorem setFlags_fault (b d f : Bool) : (s.setFlags b d f).fault = f := rfl
@[simp] theorem setFlags_cause (b d f : Bool) : (s.setFlags b d f).cause = s.cause := rfl
@[simp] theorem setFlags_finfo (b d f : Bool) : (s.setFlags b d f).finfo = s.finfo := rfl
@[simp] theorem setFlags_host (b d f : Bool) : (s.setFlags b d f).host = s.host := rfl
@[simp] theorem setFlags_aluReq (b d f : Bool) : (s.setFlags b d f).aluReq = s.aluReq := rfl
@[simp] theorem setFlags_aluOut (b d f : Bool) : (s.setFlags b d f).aluOut = s.aluOut := rfl
@[simp] theorem setFlags_draws (b d f : Bool) : (s.setFlags b d f).draws = s.draws := rfl

/-! ### moveTo -/

@[simp] theorem moveTo_cfg (q : Seq) : (s.moveTo q).cfg = s.cfg := rfl
@[simp] theorem moveTo_v (q : Seq) : (s.moveTo q).v = s.v := rfl
@[simp] theorem moveTo_work (q : Seq) : (s.moveTo q).work = s.work := rfl
@[simp] theorem moveTo_w (q : Seq) : (s.moveTo q).w = s.w := rfl
@[simp] theorem moveTo_wp (q : Seq) : (s.moveTo q).wp = s.wp := rfl
@[simp] theorem moveTo_text (q : Seq) : (s.moveTo q).text = s.text := rfl
@[simp] theorem moveTo_buf (q : Seq) : (s.moveTo q).buf = s.buf := rfl
@[simp] theorem moveTo_len (q : Seq) : (s.moveTo q).len = s.len := rfl
@[simp] theorem moveTo_digest (q : Seq) : (s.moveTo q).digest = s.digest := rfl
@[simp] theorem moveTo_hex (q : Seq) : (s.moveTo q).hex = s.hex := rfl
@[simp] theorem moveTo_seq (q : Seq) : (s.moveTo q).seq = q := rfl
@[simp] theorem moveTo_tpos (q : Seq) : (s.moveTo q).tpos = s.tpos := rfl
@[simp] theorem moveTo_blk (q : Seq) : (s.moveTo q).blk = s.blk := rfl
@[simp] theorem moveTo_nblk (q : Seq) : (s.moveTo q).nblk = s.nblk := rfl
@[simp] theorem moveTo_busy (q : Seq) : (s.moveTo q).busy = s.busy := rfl
@[simp] theorem moveTo_done (q : Seq) : (s.moveTo q).done = s.done := rfl
@[simp] theorem moveTo_fault (q : Seq) : (s.moveTo q).fault = s.fault := rfl
@[simp] theorem moveTo_cause (q : Seq) : (s.moveTo q).cause = s.cause := rfl
@[simp] theorem moveTo_finfo (q : Seq) : (s.moveTo q).finfo = s.finfo := rfl
@[simp] theorem moveTo_host (q : Seq) : (s.moveTo q).host = s.host := rfl
@[simp] theorem moveTo_aluReq (q : Seq) : (s.moveTo q).aluReq = s.aluReq := rfl
@[simp] theorem moveTo_aluOut (q : Seq) : (s.moveTo q).aluOut = s.aluOut := rfl
@[simp] theorem moveTo_draws (q : Seq) : (s.moveTo q).draws = s.draws := rfl

/-! ### append -/

@[simp] theorem append_cfg (bs : List Byte) : (s.append bs).cfg = s.cfg := rfl
@[simp] theorem append_v (bs : List Byte) : (s.append bs).v = s.v := rfl
@[simp] theorem append_work (bs : List Byte) : (s.append bs).work = s.work := rfl
@[simp] theorem append_w (bs : List Byte) : (s.append bs).w = s.w := rfl
@[simp] theorem append_wp (bs : List Byte) : (s.append bs).wp = s.wp := rfl
@[simp] theorem append_text (bs : List Byte) : (s.append bs).text = s.text := rfl
@[simp] theorem append_buf (bs : List Byte) : (s.append bs).buf = s.buf ++ bs := rfl
@[simp] theorem append_len (bs : List Byte) : (s.append bs).len = s.len := rfl
@[simp] theorem append_digest (bs : List Byte) : (s.append bs).digest = s.digest := rfl
@[simp] theorem append_hex (bs : List Byte) : (s.append bs).hex = s.hex := rfl
@[simp] theorem append_seq (bs : List Byte) : (s.append bs).seq = s.seq := rfl
@[simp] theorem append_tpos (bs : List Byte) : (s.append bs).tpos = s.tpos := rfl
@[simp] theorem append_blk (bs : List Byte) : (s.append bs).blk = s.blk := rfl
@[simp] theorem append_nblk (bs : List Byte) : (s.append bs).nblk = s.nblk := rfl
@[simp] theorem append_busy (bs : List Byte) : (s.append bs).busy = s.busy := rfl
@[simp] theorem append_done (bs : List Byte) : (s.append bs).done = s.done := rfl
@[simp] theorem append_fault (bs : List Byte) : (s.append bs).fault = s.fault := rfl
@[simp] theorem append_cause (bs : List Byte) : (s.append bs).cause = s.cause := rfl
@[simp] theorem append_finfo (bs : List Byte) : (s.append bs).finfo = s.finfo := rfl
@[simp] theorem append_host (bs : List Byte) : (s.append bs).host = s.host := rfl
@[simp] theorem append_aluReq (bs : List Byte) : (s.append bs).aluReq = s.aluReq := rfl
@[simp] theorem append_aluOut (bs : List Byte) : (s.append bs).aluOut = s.aluOut := rfl
@[simp] theorem append_draws (bs : List Byte) : (s.append bs).draws = s.draws := rfl

/-! ### advance -/

@[simp] theorem advance_cfg (n : Nat) : (s.advance n).cfg = s.cfg := rfl
@[simp] theorem advance_v (n : Nat) : (s.advance n).v = s.v := rfl
@[simp] theorem advance_work (n : Nat) : (s.advance n).work = s.work := rfl
@[simp] theorem advance_w (n : Nat) : (s.advance n).w = s.w := rfl
@[simp] theorem advance_wp (n : Nat) : (s.advance n).wp = s.wp := rfl
@[simp] theorem advance_text (n : Nat) : (s.advance n).text = s.text := rfl
@[simp] theorem advance_buf (n : Nat) : (s.advance n).buf = s.buf := rfl
@[simp] theorem advance_len (n : Nat) : (s.advance n).len = s.len := rfl
@[simp] theorem advance_digest (n : Nat) : (s.advance n).digest = s.digest := rfl
@[simp] theorem advance_hex (n : Nat) : (s.advance n).hex = s.hex := rfl
@[simp] theorem advance_seq (n : Nat) : (s.advance n).seq = s.seq := rfl
@[simp] theorem advance_tpos (n : Nat) : (s.advance n).tpos = s.tpos + n := rfl
@[simp] theorem advance_blk (n : Nat) : (s.advance n).blk = s.blk := rfl
@[simp] theorem advance_nblk (n : Nat) : (s.advance n).nblk = s.nblk := rfl
@[simp] theorem advance_busy (n : Nat) : (s.advance n).busy = s.busy := rfl
@[simp] theorem advance_done (n : Nat) : (s.advance n).done = s.done := rfl
@[simp] theorem advance_fault (n : Nat) : (s.advance n).fault = s.fault := rfl
@[simp] theorem advance_cause (n : Nat) : (s.advance n).cause = s.cause := rfl
@[simp] theorem advance_finfo (n : Nat) : (s.advance n).finfo = s.finfo := rfl
@[simp] theorem advance_host (n : Nat) : (s.advance n).host = s.host := rfl
@[simp] theorem advance_aluReq (n : Nat) : (s.advance n).aluReq = s.aluReq := rfl
@[simp] theorem advance_aluOut (n : Nat) : (s.advance n).aluOut = s.aluOut := rfl
@[simp] theorem advance_draws (n : Nat) : (s.advance n).draws = s.draws := rfl

/-! ### setLen -/

@[simp] theorem setLen_cfg (n : Nat) : (s.setLen n).cfg = s.cfg := rfl
@[simp] theorem setLen_v (n : Nat) : (s.setLen n).v = s.v := rfl
@[simp] theorem setLen_work (n : Nat) : (s.setLen n).work = s.work := rfl
@[simp] theorem setLen_w (n : Nat) : (s.setLen n).w = s.w := rfl
@[simp] theorem setLen_wp (n : Nat) : (s.setLen n).wp = s.wp := rfl
@[simp] theorem setLen_text (n : Nat) : (s.setLen n).text = s.text := rfl
@[simp] theorem setLen_buf (n : Nat) : (s.setLen n).buf = s.buf := rfl
@[simp] theorem setLen_len (n : Nat) : (s.setLen n).len = n := rfl
@[simp] theorem setLen_digest (n : Nat) : (s.setLen n).digest = s.digest := rfl
@[simp] theorem setLen_hex (n : Nat) : (s.setLen n).hex = s.hex := rfl
@[simp] theorem setLen_seq (n : Nat) : (s.setLen n).seq = s.seq := rfl
@[simp] theorem setLen_tpos (n : Nat) : (s.setLen n).tpos = s.tpos := rfl
@[simp] theorem setLen_blk (n : Nat) : (s.setLen n).blk = s.blk := rfl
@[simp] theorem setLen_nblk (n : Nat) : (s.setLen n).nblk = s.nblk := rfl
@[simp] theorem setLen_busy (n : Nat) : (s.setLen n).busy = s.busy := rfl
@[simp] theorem setLen_done (n : Nat) : (s.setLen n).done = s.done := rfl
@[simp] theorem setLen_fault (n : Nat) : (s.setLen n).fault = s.fault := rfl
@[simp] theorem setLen_cause (n : Nat) : (s.setLen n).cause = s.cause := rfl
@[simp] theorem setLen_finfo (n : Nat) : (s.setLen n).finfo = s.finfo := rfl
@[simp] theorem setLen_host (n : Nat) : (s.setLen n).host = s.host := rfl
@[simp] theorem setLen_aluReq (n : Nat) : (s.setLen n).aluReq = s.aluReq := rfl
@[simp] theorem setLen_aluOut (n : Nat) : (s.setLen n).aluOut = s.aluOut := rfl
@[simp] theorem setLen_draws (n : Nat) : (s.setLen n).draws = s.draws := rfl

/-! ### setBlocks -/

@[simp] theorem setBlocks_cfg (n b : Nat) : (s.setBlocks n b).cfg = s.cfg := rfl
@[simp] theorem setBlocks_v (n b : Nat) : (s.setBlocks n b).v = s.v := rfl
@[simp] theorem setBlocks_work (n b : Nat) : (s.setBlocks n b).work = s.work := rfl
@[simp] theorem setBlocks_w (n b : Nat) : (s.setBlocks n b).w = s.w := rfl
@[simp] theorem setBlocks_wp (n b : Nat) : (s.setBlocks n b).wp = s.wp := rfl
@[simp] theorem setBlocks_text (n b : Nat) : (s.setBlocks n b).text = s.text := rfl
@[simp] theorem setBlocks_buf (n b : Nat) : (s.setBlocks n b).buf = s.buf := rfl
@[simp] theorem setBlocks_len (n b : Nat) : (s.setBlocks n b).len = s.len := rfl
@[simp] theorem setBlocks_digest (n b : Nat) : (s.setBlocks n b).digest = s.digest := rfl
@[simp] theorem setBlocks_hex (n b : Nat) : (s.setBlocks n b).hex = s.hex := rfl
@[simp] theorem setBlocks_seq (n b : Nat) : (s.setBlocks n b).seq = s.seq := rfl
@[simp] theorem setBlocks_tpos (n b : Nat) : (s.setBlocks n b).tpos = s.tpos := rfl
@[simp] theorem setBlocks_blk (n b : Nat) : (s.setBlocks n b).blk = b := rfl
@[simp] theorem setBlocks_nblk (n b : Nat) : (s.setBlocks n b).nblk = n := rfl
@[simp] theorem setBlocks_busy (n b : Nat) : (s.setBlocks n b).busy = s.busy := rfl
@[simp] theorem setBlocks_done (n b : Nat) : (s.setBlocks n b).done = s.done := rfl
@[simp] theorem setBlocks_fault (n b : Nat) : (s.setBlocks n b).fault = s.fault := rfl
@[simp] theorem setBlocks_cause (n b : Nat) : (s.setBlocks n b).cause = s.cause := rfl
@[simp] theorem setBlocks_finfo (n b : Nat) : (s.setBlocks n b).finfo = s.finfo := rfl
@[simp] theorem setBlocks_host (n b : Nat) : (s.setBlocks n b).host = s.host := rfl
@[simp] theorem setBlocks_aluReq (n b : Nat) : (s.setBlocks n b).aluReq = s.aluReq := rfl
@[simp] theorem setBlocks_aluOut (n b : Nat) : (s.setBlocks n b).aluOut = s.aluOut := rfl
@[simp] theorem setBlocks_draws (n b : Nat) : (s.setBlocks n b).draws = s.draws := rfl

/-! ### setBlk -/

@[simp] theorem setBlk_cfg (b : Nat) : (s.setBlk b).cfg = s.cfg := rfl
@[simp] theorem setBlk_v (b : Nat) : (s.setBlk b).v = s.v := rfl
@[simp] theorem setBlk_work (b : Nat) : (s.setBlk b).work = s.work := rfl
@[simp] theorem setBlk_w (b : Nat) : (s.setBlk b).w = s.w := rfl
@[simp] theorem setBlk_wp (b : Nat) : (s.setBlk b).wp = s.wp := rfl
@[simp] theorem setBlk_text (b : Nat) : (s.setBlk b).text = s.text := rfl
@[simp] theorem setBlk_buf (b : Nat) : (s.setBlk b).buf = s.buf := rfl
@[simp] theorem setBlk_len (b : Nat) : (s.setBlk b).len = s.len := rfl
@[simp] theorem setBlk_digest (b : Nat) : (s.setBlk b).digest = s.digest := rfl
@[simp] theorem setBlk_hex (b : Nat) : (s.setBlk b).hex = s.hex := rfl
@[simp] theorem setBlk_seq (b : Nat) : (s.setBlk b).seq = s.seq := rfl
@[simp] theorem setBlk_tpos (b : Nat) : (s.setBlk b).tpos = s.tpos := rfl
@[simp] theorem setBlk_blk (b : Nat) : (s.setBlk b).blk = b := rfl
@[simp] theorem setBlk_nblk (b : Nat) : (s.setBlk b).nblk = s.nblk := rfl
@[simp] theorem setBlk_busy (b : Nat) : (s.setBlk b).busy = s.busy := rfl
@[simp] theorem setBlk_done (b : Nat) : (s.setBlk b).done = s.done := rfl
@[simp] theorem setBlk_fault (b : Nat) : (s.setBlk b).fault = s.fault := rfl
@[simp] theorem setBlk_cause (b : Nat) : (s.setBlk b).cause = s.cause := rfl
@[simp] theorem setBlk_finfo (b : Nat) : (s.setBlk b).finfo = s.finfo := rfl
@[simp] theorem setBlk_host (b : Nat) : (s.setBlk b).host = s.host := rfl
@[simp] theorem setBlk_aluReq (b : Nat) : (s.setBlk b).aluReq = s.aluReq := rfl
@[simp] theorem setBlk_aluOut (b : Nat) : (s.setBlk b).aluOut = s.aluOut := rfl
@[simp] theorem setBlk_draws (b : Nat) : (s.setBlk b).draws = s.draws := rfl

/-! ### setW -/

@[simp] theorem setW_cfg (k : Fin 68) (x : Word) : (s.setW k x).cfg = s.cfg := rfl
@[simp] theorem setW_v (k : Fin 68) (x : Word) : (s.setW k x).v = s.v := rfl
@[simp] theorem setW_work (k : Fin 68) (x : Word) : (s.setW k x).work = s.work := rfl
@[simp] theorem setW_w (k : Fin 68) (x : Word) : (s.setW k x).w = s.w.set k x := rfl
@[simp] theorem setW_wp (k : Fin 68) (x : Word) : (s.setW k x).wp = s.wp := rfl
@[simp] theorem setW_text (k : Fin 68) (x : Word) : (s.setW k x).text = s.text := rfl
@[simp] theorem setW_buf (k : Fin 68) (x : Word) : (s.setW k x).buf = s.buf := rfl
@[simp] theorem setW_len (k : Fin 68) (x : Word) : (s.setW k x).len = s.len := rfl
@[simp] theorem setW_digest (k : Fin 68) (x : Word) : (s.setW k x).digest = s.digest := rfl
@[simp] theorem setW_hex (k : Fin 68) (x : Word) : (s.setW k x).hex = s.hex := rfl
@[simp] theorem setW_seq (k : Fin 68) (x : Word) : (s.setW k x).seq = s.seq := rfl
@[simp] theorem setW_tpos (k : Fin 68) (x : Word) : (s.setW k x).tpos = s.tpos := rfl
@[simp] theorem setW_blk (k : Fin 68) (x : Word) : (s.setW k x).blk = s.blk := rfl
@[simp] theorem setW_nblk (k : Fin 68) (x : Word) : (s.setW k x).nblk = s.nblk := rfl
@[simp] theorem setW_busy (k : Fin 68) (x : Word) : (s.setW k x).busy = s.busy := rfl
@[simp] theorem setW_done (k : Fin 68) (x : Word) : (s.setW k x).done = s.done := rfl
@[simp] theorem setW_fault (k : Fin 68) (x : Word) : (s.setW k x).fault = s.fault := rfl
@[simp] theorem setW_cause (k : Fin 68) (x : Word) : (s.setW k x).cause = s.cause := rfl
@[simp] theorem setW_finfo (k : Fin 68) (x : Word) : (s.setW k x).finfo = s.finfo := rfl
@[simp] theorem setW_host (k : Fin 68) (x : Word) : (s.setW k x).host = s.host := rfl
@[simp] theorem setW_aluReq (k : Fin 68) (x : Word) : (s.setW k x).aluReq = s.aluReq := rfl
@[simp] theorem setW_aluOut (k : Fin 68) (x : Word) : (s.setW k x).aluOut = s.aluOut := rfl
@[simp] theorem setW_draws (k : Fin 68) (x : Word) : (s.setW k x).draws = s.draws := rfl

/-! ### setWp -/

@[simp] theorem setWp_cfg (k : Fin 64) (x : Word) : (s.setWp k x).cfg = s.cfg := rfl
@[simp] theorem setWp_v (k : Fin 64) (x : Word) : (s.setWp k x).v = s.v := rfl
@[simp] theorem setWp_work (k : Fin 64) (x : Word) : (s.setWp k x).work = s.work := rfl
@[simp] theorem setWp_w (k : Fin 64) (x : Word) : (s.setWp k x).w = s.w := rfl
@[simp] theorem setWp_wp (k : Fin 64) (x : Word) : (s.setWp k x).wp = s.wp.set k x := rfl
@[simp] theorem setWp_text (k : Fin 64) (x : Word) : (s.setWp k x).text = s.text := rfl
@[simp] theorem setWp_buf (k : Fin 64) (x : Word) : (s.setWp k x).buf = s.buf := rfl
@[simp] theorem setWp_len (k : Fin 64) (x : Word) : (s.setWp k x).len = s.len := rfl
@[simp] theorem setWp_digest (k : Fin 64) (x : Word) : (s.setWp k x).digest = s.digest := rfl
@[simp] theorem setWp_hex (k : Fin 64) (x : Word) : (s.setWp k x).hex = s.hex := rfl
@[simp] theorem setWp_seq (k : Fin 64) (x : Word) : (s.setWp k x).seq = s.seq := rfl
@[simp] theorem setWp_tpos (k : Fin 64) (x : Word) : (s.setWp k x).tpos = s.tpos := rfl
@[simp] theorem setWp_blk (k : Fin 64) (x : Word) : (s.setWp k x).blk = s.blk := rfl
@[simp] theorem setWp_nblk (k : Fin 64) (x : Word) : (s.setWp k x).nblk = s.nblk := rfl
@[simp] theorem setWp_busy (k : Fin 64) (x : Word) : (s.setWp k x).busy = s.busy := rfl
@[simp] theorem setWp_done (k : Fin 64) (x : Word) : (s.setWp k x).done = s.done := rfl
@[simp] theorem setWp_fault (k : Fin 64) (x : Word) : (s.setWp k x).fault = s.fault := rfl
@[simp] theorem setWp_cause (k : Fin 64) (x : Word) : (s.setWp k x).cause = s.cause := rfl
@[simp] theorem setWp_finfo (k : Fin 64) (x : Word) : (s.setWp k x).finfo = s.finfo := rfl
@[simp] theorem setWp_host (k : Fin 64) (x : Word) : (s.setWp k x).host = s.host := rfl
@[simp] theorem setWp_aluReq (k : Fin 64) (x : Word) : (s.setWp k x).aluReq = s.aluReq := rfl
@[simp] theorem setWp_aluOut (k : Fin 64) (x : Word) : (s.setWp k x).aluOut = s.aluOut := rfl
@[simp] theorem setWp_draws (k : Fin 64) (x : Word) : (s.setWp k x).draws = s.draws := rfl

/-! ### setWork -/

@[simp] theorem setWork_cfg (r : Work) : (s.setWork r).cfg = s.cfg := rfl
@[simp] theorem setWork_v (r : Work) : (s.setWork r).v = s.v := rfl
@[simp] theorem setWork_work (r : Work) : (s.setWork r).work = r := rfl
@[simp] theorem setWork_w (r : Work) : (s.setWork r).w = s.w := rfl
@[simp] theorem setWork_wp (r : Work) : (s.setWork r).wp = s.wp := rfl
@[simp] theorem setWork_text (r : Work) : (s.setWork r).text = s.text := rfl
@[simp] theorem setWork_buf (r : Work) : (s.setWork r).buf = s.buf := rfl
@[simp] theorem setWork_len (r : Work) : (s.setWork r).len = s.len := rfl
@[simp] theorem setWork_digest (r : Work) : (s.setWork r).digest = s.digest := rfl
@[simp] theorem setWork_hex (r : Work) : (s.setWork r).hex = s.hex := rfl
@[simp] theorem setWork_seq (r : Work) : (s.setWork r).seq = s.seq := rfl
@[simp] theorem setWork_tpos (r : Work) : (s.setWork r).tpos = s.tpos := rfl
@[simp] theorem setWork_blk (r : Work) : (s.setWork r).blk = s.blk := rfl
@[simp] theorem setWork_nblk (r : Work) : (s.setWork r).nblk = s.nblk := rfl
@[simp] theorem setWork_busy (r : Work) : (s.setWork r).busy = s.busy := rfl
@[simp] theorem setWork_done (r : Work) : (s.setWork r).done = s.done := rfl
@[simp] theorem setWork_fault (r : Work) : (s.setWork r).fault = s.fault := rfl
@[simp] theorem setWork_cause (r : Work) : (s.setWork r).cause = s.cause := rfl
@[simp] theorem setWork_finfo (r : Work) : (s.setWork r).finfo = s.finfo := rfl
@[simp] theorem setWork_host (r : Work) : (s.setWork r).host = s.host := rfl
@[simp] theorem setWork_aluReq (r : Work) : (s.setWork r).aluReq = s.aluReq := rfl
@[simp] theorem setWork_aluOut (r : Work) : (s.setWork r).aluOut = s.aluOut := rfl
@[simp] theorem setWork_draws (r : Work) : (s.setWork r).draws = s.draws := rfl

/-! ### setV -/

@[simp] theorem setV_cfg (v : Vector Word 8) : (s.setV v).cfg = s.cfg := rfl
@[simp] theorem setV_v (v : Vector Word 8) : (s.setV v).v = v := rfl
@[simp] theorem setV_work (v : Vector Word 8) : (s.setV v).work = s.work := rfl
@[simp] theorem setV_w (v : Vector Word 8) : (s.setV v).w = s.w := rfl
@[simp] theorem setV_wp (v : Vector Word 8) : (s.setV v).wp = s.wp := rfl
@[simp] theorem setV_text (v : Vector Word 8) : (s.setV v).text = s.text := rfl
@[simp] theorem setV_buf (v : Vector Word 8) : (s.setV v).buf = s.buf := rfl
@[simp] theorem setV_len (v : Vector Word 8) : (s.setV v).len = s.len := rfl
@[simp] theorem setV_digest (v : Vector Word 8) : (s.setV v).digest = s.digest := rfl
@[simp] theorem setV_hex (v : Vector Word 8) : (s.setV v).hex = s.hex := rfl
@[simp] theorem setV_seq (v : Vector Word 8) : (s.setV v).seq = s.seq := rfl
@[simp] theorem setV_tpos (v : Vector Word 8) : (s.setV v).tpos = s.tpos := rfl
@[simp] theorem setV_blk (v : Vector Word 8) : (s.setV v).blk = s.blk := rfl
@[simp] theorem setV_nblk (v : Vector Word 8) : (s.setV v).nblk = s.nblk := rfl
@[simp] theorem setV_busy (v : Vector Word 8) : (s.setV v).busy = s.busy := rfl
@[simp] theorem setV_done (v : Vector Word 8) : (s.setV v).done = s.done := rfl
@[simp] theorem setV_fault (v : Vector Word 8) : (s.setV v).fault = s.fault := rfl
@[simp] theorem setV_cause (v : Vector Word 8) : (s.setV v).cause = s.cause := rfl
@[simp] theorem setV_finfo (v : Vector Word 8) : (s.setV v).finfo = s.finfo := rfl
@[simp] theorem setV_host (v : Vector Word 8) : (s.setV v).host = s.host := rfl
@[simp] theorem setV_aluReq (v : Vector Word 8) : (s.setV v).aluReq = s.aluReq := rfl
@[simp] theorem setV_aluOut (v : Vector Word 8) : (s.setV v).aluOut = s.aluOut := rfl
@[simp] theorem setV_draws (v : Vector Word 8) : (s.setV v).draws = s.draws := rfl

/-! ### setDigest -/

@[simp] theorem setDigest_cfg (m : Memory) : (s.setDigest m).cfg = s.cfg := rfl
@[simp] theorem setDigest_v (m : Memory) : (s.setDigest m).v = s.v := rfl
@[simp] theorem setDigest_work (m : Memory) : (s.setDigest m).work = s.work := rfl
@[simp] theorem setDigest_w (m : Memory) : (s.setDigest m).w = s.w := rfl
@[simp] theorem setDigest_wp (m : Memory) : (s.setDigest m).wp = s.wp := rfl
@[simp] theorem setDigest_text (m : Memory) : (s.setDigest m).text = s.text := rfl
@[simp] theorem setDigest_buf (m : Memory) : (s.setDigest m).buf = s.buf := rfl
@[simp] theorem setDigest_len (m : Memory) : (s.setDigest m).len = s.len := rfl
@[simp] theorem setDigest_digest (m : Memory) : (s.setDigest m).digest = m := rfl
@[simp] theorem setDigest_hex (m : Memory) : (s.setDigest m).hex = s.hex := rfl
@[simp] theorem setDigest_seq (m : Memory) : (s.setDigest m).seq = s.seq := rfl
@[simp] theorem setDigest_tpos (m : Memory) : (s.setDigest m).tpos = s.tpos := rfl
@[simp] theorem setDigest_blk (m : Memory) : (s.setDigest m).blk = s.blk := rfl
@[simp] theorem setDigest_nblk (m : Memory) : (s.setDigest m).nblk = s.nblk := rfl
@[simp] theorem setDigest_busy (m : Memory) : (s.setDigest m).busy = s.busy := rfl
@[simp] theorem setDigest_done (m : Memory) : (s.setDigest m).done = s.done := rfl
@[simp] theorem setDigest_fault (m : Memory) : (s.setDigest m).fault = s.fault := rfl
@[simp] theorem setDigest_cause (m : Memory) : (s.setDigest m).cause = s.cause := rfl
@[simp] theorem setDigest_finfo (m : Memory) : (s.setDigest m).finfo = s.finfo := rfl
@[simp] theorem setDigest_host (m : Memory) : (s.setDigest m).host = s.host := rfl
@[simp] theorem setDigest_aluReq (m : Memory) : (s.setDigest m).aluReq = s.aluReq := rfl
@[simp] theorem setDigest_aluOut (m : Memory) : (s.setDigest m).aluOut = s.aluOut := rfl
@[simp] theorem setDigest_draws (m : Memory) : (s.setDigest m).draws = s.draws := rfl

/-! ### setHex -/

@[simp] theorem setHex_cfg (m : Memory) : (s.setHex m).cfg = s.cfg := rfl
@[simp] theorem setHex_v (m : Memory) : (s.setHex m).v = s.v := rfl
@[simp] theorem setHex_work (m : Memory) : (s.setHex m).work = s.work := rfl
@[simp] theorem setHex_w (m : Memory) : (s.setHex m).w = s.w := rfl
@[simp] theorem setHex_wp (m : Memory) : (s.setHex m).wp = s.wp := rfl
@[simp] theorem setHex_text (m : Memory) : (s.setHex m).text = s.text := rfl
@[simp] theorem setHex_buf (m : Memory) : (s.setHex m).buf = s.buf := rfl
@[simp] theorem setHex_len (m : Memory) : (s.setHex m).len = s.len := rfl
@[simp] theorem setHex_digest (m : Memory) : (s.setHex m).digest = s.digest := rfl
@[simp] theorem setHex_hex (m : Memory) : (s.setHex m).hex = m := rfl
@[simp] theorem setHex_seq (m : Memory) : (s.setHex m).seq = s.seq := rfl
@[simp] theorem setHex_tpos (m : Memory) : (s.setHex m).tpos = s.tpos := rfl
@[simp] theorem setHex_blk (m : Memory) : (s.setHex m).blk = s.blk := rfl
@[simp] theorem setHex_nblk (m : Memory) : (s.setHex m).nblk = s.nblk := rfl
@[simp] theorem setHex_busy (m : Memory) : (s.setHex m).busy = s.busy := rfl
@[simp] theorem setHex_done (m : Memory) : (s.setHex m).done = s.done := rfl
@[simp] theorem setHex_fault (m : Memory) : (s.setHex m).fault = s.fault := rfl
@[simp] theorem setHex_cause (m : Memory) : (s.setHex m).cause = s.cause := rfl
@[simp] theorem setHex_finfo (m : Memory) : (s.setHex m).finfo = s.finfo := rfl
@[simp] theorem setHex_host (m : Memory) : (s.setHex m).host = s.host := rfl
@[simp] theorem setHex_aluReq (m : Memory) : (s.setHex m).aluReq = s.aluReq := rfl
@[simp] theorem setHex_aluOut (m : Memory) : (s.setHex m).aluOut = s.aluOut := rfl
@[simp] theorem setHex_draws (m : Memory) : (s.setHex m).draws = s.draws := rfl

/-! ### setText -/

@[simp] theorem setText_cfg (us : List CodeUnit) : (s.setText us).cfg = s.cfg := rfl
@[simp] theorem setText_v (us : List CodeUnit) : (s.setText us).v = s.v := rfl
@[simp] theorem setText_work (us : List CodeUnit) : (s.setText us).work = s.work := rfl
@[simp] theorem setText_w (us : List CodeUnit) : (s.setText us).w = s.w := rfl
@[simp] theorem setText_wp (us : List CodeUnit) : (s.setText us).wp = s.wp := rfl
@[simp] theorem setText_text (us : List CodeUnit) : (s.setText us).text = us := rfl
@[simp] theorem setText_buf (us : List CodeUnit) : (s.setText us).buf = s.buf := rfl
@[simp] theorem setText_len (us : List CodeUnit) : (s.setText us).len = s.len := rfl
@[simp] theorem setText_digest (us : List CodeUnit) : (s.setText us).digest = s.digest := rfl
@[simp] theorem setText_hex (us : List CodeUnit) : (s.setText us).hex = s.hex := rfl
@[simp] theorem setText_seq (us : List CodeUnit) : (s.setText us).seq = s.seq := rfl
@[simp] theorem setText_tpos (us : List CodeUnit) : (s.setText us).tpos = s.tpos := rfl
@[simp] theorem setText_blk (us : List CodeUnit) : (s.setText us).blk = s.blk := rfl
@[simp] theorem setText_nblk (us : List CodeUnit) : (s.setText us).nblk = s.nblk := rfl
@[simp] theorem setText_busy (us : List CodeUnit) : (s.setText us).busy = s.busy := rfl
@[simp] theorem setText_done (us : List CodeUnit) : (s.setText us).done = s.done := rfl
@[simp] theorem setText_fault (us : List CodeUnit) : (s.setText us).fault = s.fault := rfl
@[simp] theorem setText_cause (us : List CodeUnit) : (s.setText us).cause = s.cause := rfl
@[simp] theorem setText_finfo (us : List CodeUnit) : (s.setText us).finfo = s.finfo := rfl
@[simp] theorem setText_host (us : List CodeUnit) : (s.setText us).host = s.host := rfl
@[simp] theorem setText_aluReq (us : List CodeUnit) : (s.setText us).aluReq = s.aluReq := rfl
@[simp] theorem setText_aluOut (us : List CodeUnit) : (s.setText us).aluOut = s.aluOut := rfl
@[simp] theorem setText_draws (us : List CodeUnit) : (s.setText us).draws = s.draws := rfl

/-! ### setHost -/

@[simp] theorem setHost_cfg (r : List HostEvent) : (s.setHost r).cfg = s.cfg := rfl
@[simp] theorem setHost_v (r : List HostEvent) : (s.setHost r).v = s.v := rfl
@[simp] theorem setHost_work (r : List HostEvent) : (s.setHost r).work = s.work := rfl
@[simp] theorem setHost_w (r : List HostEvent) : (s.setHost r).w = s.w := rfl
@[simp] theorem setHost_wp (r : List HostEvent) : (s.setHost r).wp = s.wp := rfl
@[simp] theorem setHost_text (r : List HostEvent) : (s.setHost r).text = s.text := rfl
@[simp] theorem setHost_buf (r : List HostEvent) : (s.setHost r).buf = s.buf := rfl
@[simp] theorem setHost_len (r : List HostEvent) : (s.setHost r).len = s.len := rfl
@[simp] theorem setHost_digest (r : List HostEvent) : (s.setHost r).digest = s.digest := rfl
@[simp] theorem setHost_hex (r : List HostEvent) : (s.setHost r).hex = s.hex := rfl
@[simp] theorem setHost_seq (r : List HostEvent) : (s.setHost r).seq = s.seq := rfl
@[simp] theorem setHost_tpos (r : List HostEvent) : (s.setHost r).tpos = s.tpos := rfl
@[simp] theorem setHost_blk (r : List HostEvent) : (s.setHost r).blk = s.blk := rfl
@[simp] theorem setHost_nblk (r : List HostEvent) : (s.setHost r).nblk = s.nblk := rfl
@[simp] theorem setHost_busy (r : List HostEvent) : (s.setHost r).busy = s.busy := rfl
@[simp] theorem setHost_done (r : List HostEvent) : (s.setHost r).done = s.done := rfl
@[simp] theorem setHost_fault (r : List HostEvent) : (s.setHost r).fault = s.fault := rfl
@[simp] theorem setHost_cause (r : List HostEvent) : (s.setHost r).cause = s.cause := rfl
@[simp] theorem setHost_finfo (r : List HostEvent) : (s.setHost r).finfo = s.finfo := rfl
@[simp] theorem setHost_host (r : List HostEvent) : (s.setHost r).host = r := rfl
@[simp] theorem setHost_aluReq (r : List HostEvent) : (s.setHost r).aluReq = s.aluReq := rfl
@[simp] theorem setHost_aluOut (r : List HostEvent) : (s.setHost r).aluOut = s.aluOut := rfl
@[simp] theorem setHost_draws (r : List HostEvent) : (s.setHost r).draws = s.draws := rfl

/-! ### answerAlu -/

@[simp] theorem answerAlu_cfg (x : Word) : (s.answerAlu x).cfg = s.cfg := rfl
@[simp] theorem answerAlu_v (x : Word) : (s.answerAlu x).v = s.v := rfl
@[simp] theorem answerAlu_work (x : Word) : (s.answerAlu x).work = s.work := rfl
@[simp] theorem answerAlu_w (x : Word) : (s.answerAlu x).w = s.w := rfl
@[simp] theorem answerAlu_wp (x : Word) : (s.answerAlu x).wp = s.wp := rfl
@[simp] theorem answerAlu_text (x : Word) : (s.answerAlu x).text = s.text := rfl
@[simp] theorem answerAlu_buf (x : Word) : (s.answerAlu x).buf = s.buf := rfl
@[simp] theorem answerAlu_len (x : Word) : (s.answerAlu x).len = s.len := rfl
@[simp] theorem answerAlu_digest (x : Word) : (s.answerAlu x).digest = s.digest := rfl
@[simp] theorem answerAlu_hex (x : Word) : (s.answerAlu x).hex = s.hex := rfl
@[simp] theorem answerAlu_seq (x : Word) : (s.answerAlu x).seq = s.seq := rfl
@[simp] theorem answerAlu_tpos (x : Word) : (s.answerAlu x).tpos = s.tpos := rfl
@[simp] theorem answerAlu_blk (x : Word) : (s.answerAlu x).blk = s.blk := rfl
@[simp] theorem answerAlu_nblk (x : Word) : (s.answerAlu x).nblk = s.nblk := rfl
@[simp] theorem answerAlu_busy (x : Word) : (s.answerAlu x).busy = s.busy := rfl
@[simp] theorem answerAlu_done (x : Word) : (s.answerAlu x).done = s.done := rfl
@[simp] theorem answerAlu_fault (x : Word) : (s.answerAlu x).fault = s.fault := rfl
@[simp] theorem answerAlu_cause (x : Word) : (s.answerAlu x).cause = s.cause := rfl
@[simp] theorem answerAlu_finfo (x : Word) : (s.answerAlu x).finfo = s.finfo := rfl
@[simp] theorem answerAlu_host (x : Word) : (s.answerAlu x).host = s.host := rfl
@[simp] theorem answerAlu_aluReq (x : Word) : (s.answerAlu x).aluReq = none := rfl
@[simp] theorem answerAlu_aluOut (x : Word) : (s.answerAlu x).aluOut = x := rfl
@[simp] theorem answerAlu_draws (x : Word) : (s.answerAlu x).draws = s.draws := rfl

/-! ### raise -/

@[simp] theorem raise_cfg (c : BitVec 2) (n : Nat) : (s.raise c n).cfg = s.cfg := rfl
@[simp] theorem raise_v (c : BitVec 2) (n : Nat) : (s.raise c n).v = s.v := rfl
@[simp] theorem raise_work (c : BitVec 2) (n : Nat) : (s.raise c n).work = s.work := rfl
@[simp] theorem raise_w (c : BitVec 2) (n : Nat) : (s.raise c n).w = s.w := rfl
@[simp] theorem raise_wp (c : BitVec 2) (n : Nat) : (s.raise c n).wp = s.wp := rfl
@[simp] theorem raise_text (c : BitVec 2) (n : Nat) : (s.raise c n).text = s.text := rfl
@[simp] theorem raise_buf (c : BitVec 2) (n : Nat) : (s.raise c n).buf = s.buf := rfl
@[simp] theorem raise_len (c : BitVec 2) (n : Nat) : (s.raise c n).len = s.len := rfl
@[simp] theorem raise_digest (c : BitVec 2) (n : Nat) : (s.raise c n).digest = s.digest := rfl
@[simp] theorem raise_hex (c : BitVec 2) (n : Nat) : (s.raise c n).hex = s.hex := rfl
@[simp] theorem raise_seq (c : BitVec 2) (n : Nat) : (s.raise c n).seq = { s.seq with phase := .faulted } := rfl
@[simp] theorem raise_tpos (c : BitVec 2) (n : Nat) : (s.raise c n).tpos = s.tpos := rfl
@[simp] theorem raise_blk (c : BitVec 2) (n : Nat) : (s.raise c n).blk = s.blk := rfl
@[simp] theorem raise_nblk (c : BitVec 2) (n : Nat) : (s.raise c n).nblk = s.nblk := rfl
@[simp] theorem raise_busy (c : BitVec 2) (n : Nat) : (s.raise c n).busy = false := rfl
@[simp] theorem raise_done (c : BitVec 2) (n : Nat) : (s.raise c n).done = false := rfl
@[simp] theorem raise_fault (c : BitVec 2) (n : Nat) : (s.raise c n).fault = true := rfl
@[simp] theorem raise_cause (c : BitVec 2) (n : Nat) : (s.raise c n).cause = c := rfl
@[simp] theorem raise_finfo (c : BitVec 2) (n : Nat) : (s.raise c n).finfo = n := rfl
@[simp] theorem raise_host (c : BitVec 2) (n : Nat) : (s.raise c n).host = s.host := rfl
@[simp] theorem raise_aluReq (c : BitVec 2) (n : Nat) : (s.raise c n).aluReq = s.aluReq := rfl
@[simp] theorem raise_aluOut (c : BitVec 2) (n : Nat) : (s.raise c n).aluOut = s.aluOut := rfl
@[simp] theorem raise_draws (c : BitVec 2) (n : Nat) : (s.raise c n).draws = s.draws := rfl

/-! ### enterAt -/

@[simp] theorem enterAt_cfg (q : Seq) : (s.enterAt q).cfg = s.cfg := rfl
@[simp] theorem enterAt_v (q : Seq) : (s.enterAt q).v = s.v := rfl
@[simp] theorem enterAt_work (q : Seq) : (s.enterAt q).work = s.work := rfl
@[simp] theorem enterAt_w (q : Seq) : (s.enterAt q).w = s.w := rfl
@[simp] theorem enterAt_wp (q : Seq) : (s.enterAt q).wp = s.wp := rfl
@[simp] theorem enterAt_text (q : Seq) : (s.enterAt q).text = s.text := rfl
@[simp] theorem enterAt_buf (q : Seq) : (s.enterAt q).buf = s.buf := rfl
@[simp] theorem enterAt_len (q : Seq) : (s.enterAt q).len = s.len := rfl
@[simp] theorem enterAt_digest (q : Seq) : (s.enterAt q).digest = s.digest := rfl
@[simp] theorem enterAt_hex (q : Seq) : (s.enterAt q).hex = s.hex := rfl
@[simp] theorem enterAt_seq (q : Seq) : (s.enterAt q).seq = q := rfl
@[simp] theorem enterAt_tpos (q : Seq) : (s.enterAt q).tpos = s.tpos := rfl
@[simp] theorem enterAt_blk (q : Seq) : (s.enterAt q).blk = s.blk := rfl
@[simp] theorem enterAt_nblk (q : Seq) : (s.enterAt q).nblk = s.nblk := rfl
@[simp] theorem enterAt_busy (q : Seq) : (s.enterAt q).busy = q.phase.isBusy := rfl
@[simp] theorem enterAt_done (q : Seq) : (s.enterAt q).done = false := rfl
@[simp] theorem enterAt_fault (q : Seq) : (s.enterAt q).fault = false := rfl
@[simp] theorem enterAt_cause (q : Seq) : (s.enterAt q).cause = causeNone := rfl
@[simp] theorem enterAt_finfo (q : Seq) : (s.enterAt q).finfo = 0 := rfl
@[simp] theorem enterAt_host (q : Seq) : (s.enterAt q).host = .wait :: s.host := rfl
@[simp] theorem enterAt_aluReq (q : Seq) : (s.enterAt q).aluReq = none := rfl
@[simp] theorem enterAt_aluOut (q : Seq) : (s.enterAt q).aluOut = s.aluOut := rfl
@[simp] theorem enterAt_draws (q : Seq) : (s.enterAt q).draws = s.draws := rfl

/-! ### invalidate -/

@[simp] theorem invalidate_cfg : s.invalidate.cfg = s.cfg := rfl
@[simp] theorem invalidate_v : s.invalidate.v = s.v := rfl
@[simp] theorem invalidate_text : s.invalidate.text = s.text := rfl
@[simp] theorem invalidate_buf : s.invalidate.buf = s.buf := rfl
@[simp] theorem invalidate_digest : s.invalidate.digest = [] := rfl
@[simp] theorem invalidate_hex : s.invalidate.hex = [] := rfl
@[simp] theorem invalidate_seq : s.invalidate.seq = s.seq := rfl
@[simp] theorem invalidate_tpos : s.invalidate.tpos = s.tpos := rfl
@[simp] theorem invalidate_busy : s.invalidate.busy = s.busy := rfl
@[simp] theorem invalidate_done : s.invalidate.done = s.done := rfl
@[simp] theorem invalidate_fault : s.invalidate.fault = s.fault := rfl
@[simp] theorem invalidate_cause : s.invalidate.cause = s.cause := rfl
@[simp] theorem invalidate_finfo : s.invalidate.finfo = s.finfo := rfl
@[simp] theorem invalidate_host : s.invalidate.host = s.host := rfl
@[simp] theorem invalidate_aluReq : s.invalidate.aluReq = s.aluReq := rfl
@[simp] theorem invalidate_aluOut : s.invalidate.aluOut = s.aluOut := rfl
@[simp] theorem invalidate_draws : s.invalidate.draws = s.draws + 1 := rfl

/-! ### hardReset -/

@[simp] theorem hardReset_cfg : s.hardReset.cfg = s.cfg := rfl
@[simp] theorem hardReset_text : s.hardReset.text = s.text := rfl
@[simp] theorem hardReset_digest : s.hardReset.digest = [] := rfl
@[simp] theorem hardReset_hex : s.hardReset.hex = [] := rfl
@[simp] theorem hardReset_busy : s.hardReset.busy = false := rfl
@[simp] theorem hardReset_done : s.hardReset.done = false := rfl
@[simp] theorem hardReset_fault : s.hardReset.fault = false := rfl
@[simp] theorem hardReset_cause : s.hardReset.cause = causeNone := rfl
@[simp] theorem hardReset_finfo : s.hardReset.finfo = 0 := rfl
@[simp] theorem hardReset_host : s.hardReset.host = s.host := rfl
@[simp] theorem hardReset_aluReq : s.hardReset.aluReq = s.aluReq := rfl
@[simp] theorem hardReset_aluOut : s.hardReset.aluOut = s.aluOut := rfl
@[simp] theorem hardReset_draws : s.hardReset.draws = s.draws + 1 := rfl

/-- After a hardware reset the sequencer is idle (R240). -/
@[simp] theorem hardReset_phase : s.hardReset.seq.phase = .idle := rfl

end Sys2Proof.Machine
end

