-- ==== Sys2Proof/Laws/Text.lean ====
section
/-! SUPPORT. The encoder as a function of TEXT, one equation per class of the unit at hand. -/

namespace Sys2Proof.Machine

variable {p : SurrogatePolicy} {pos : Nat} {u next lo : CodeUnit} {rest : List CodeUnit}

/-! ## Results put together -/

theorem after_eq_bytes {bs msg : List Byte} {r : Encoded} :
    r.after bs = .bytes msg ↔ ∃ cs, r = .bytes cs ∧ msg = bs ++ cs := by
  cases r <;> simp [Encoded.after, eq_comm]

theorem after_eq_bad {bs : List Byte} {r : Encoded} {k : Nat} : r.after bs = .bad k ↔ r = .bad k := by
  cases r <;> simp [Encoded.after]

/-! ## The encoder, unit by unit -/

theorem encodeFrom_oneByte (h : classify u = .oneByte) :
    encodeFrom p pos (u :: rest) = (encodeFrom p (pos + 1) rest).after (form1 u.toNat) := by
  rw [encodeFrom.eq_def]; simp only [h]

theorem encodeFrom_twoByte (h : classify u = .twoByte) :
    encodeFrom p pos (u :: rest) = (encodeFrom p (pos + 1) rest).after (form2 u.toNat) := by
  rw [encodeFrom.eq_def]; simp only [h]

theorem encodeFrom_threeByte (h : classify u = .threeByte) :
    encodeFrom p pos (u :: rest) = (encodeFrom p (pos + 1) rest).after (form3 u.toNat) := by
  rw [encodeFrom.eq_def]; simp only [h]

theorem encodeFrom_pair (h : classify u = .surrogate) (hl : pairLow p u (some next) = some lo) :
    encodeFrom p pos (u :: next :: rest) = (encodeFrom p (pos + 2) rest).after (form4 (pairPoint u lo)) := by
  rw [encodeFrom.eq_def]; simp only [h, hl]

theorem encodeFrom_bad (h : classify u = .surrogate) (hl : pairLow p u rest[0]? = none) :
    encodeFrom p pos (u :: rest) = .bad pos := by
  rw [encodeFrom.eq_def]
  cases rest with
  | nil => simp only [h]
  | cons n r =>
    simp only [List.getElem?_cons_zero] at hl
    simp only [h, hl]

/-- A property of every text, by the class of its first unit. -/
theorem text_induction (p : SurrogatePolicy) {P : Nat → List CodeUnit → Prop} (nil : ∀ pos, P pos [])
    (one : ∀ pos u rest, classify u = .oneByte → P (pos + 1) rest → P pos (u :: rest))
    (two : ∀ pos u rest, classify u = .twoByte → P (pos + 1) rest → P pos (u :: rest))
    (three : ∀ pos u rest, classify u = .threeByte → P (pos + 1) rest → P pos (u :: rest))
    (pair : ∀ pos u next lo rest, classify u = .surrogate → pairLow p u (some next) = some lo → P (pos + 2) rest →
      P pos (u :: next :: rest))
    (bad : ∀ pos u rest, classify u = .surrogate → pairLow p u rest[0]? = none → P pos (u :: rest))
    (pos : Nat) (text : List CodeUnit) : P pos text := by
  induction pos, text using encodeFrom.induct p with
  | case1 pos => exact nil pos
  | case2 pos u rest hc ih => exact one pos u rest hc ih
  | case3 pos u rest hc ih => exact two pos u rest hc ih
  | case4 pos u rest hc ih => exact three pos u rest hc ih
  | case5 pos u hc => exact bad pos u [] hc (by simp)
  | case6 pos u hc n rest lo hl ih => exact pair pos u n lo rest hc hl ih
  | case7 pos u hc n rest hl => exact bad pos u _ hc hl

end Sys2Proof.Machine
end

