-- ==== Sys2Proof/Laws/Exec.lean ====
section
/-! SUPPORT. One lemma per operation that has a condition: what it does where the condition holds. The operations with
none (START, PAD80, CINIT, FINISH, the ALU functions) compute. -/

namespace Sys2Proof.Machine

variable {s : State}

/-- A pair is not admitted under `strict`. -/
theorem pairLow_strict_none (u : CodeUnit) (next : Option CodeUnit) :
    pairLow .strict u next = none ↔
      ¬ ((0xD800 ≤ u.toNat ∧ u.toNat ≤ 0xDBFF) ∧ ∃ lo, next = some lo ∧ 0xDC00 ≤ lo.toNat ∧ lo.toNat ≤ 0xDFFF) := by
  rw [Option.eq_none_iff_forall_ne_some]
  simp only [ne_eq, pairLow_strict]
  constructor
  · rintro h ⟨h1, lo, h2, h3⟩; exact h lo ⟨h2, h1, h3⟩
  · rintro h lo ⟨h2, h1, h3⟩; exact h ⟨h1, lo, h2, h3⟩

/-- An element of a vector read with and without a bound. -/
theorem vec_get {α : Type} {n k : Nat} {v : Vector α n} {x : α} (h : v[k]? = some x) (hk : k < n) : v[k] = x := by
  rw [Vector.getElem?_eq_getElem hk] at h; exact Option.some.inj h

/-- A write in bounds. -/
theorem set_eq_setIfInBounds {α : Type} {n : Nat} (v : Vector α n) (k : Nat) (h : k < n) (x : α) :
    v.set k x = v.setIfInBounds k x := by
  apply Vector.ext; intro i hi; simp [Vector.getElem_set, Vector.getElem_setIfInBounds]

/-! ## The encoder -/

theorem encodeUnit_next {u : CodeUnit} {cls : UnitClass} (form : Nat → List Byte) (hu : s.text[s.tpos]? = some u)
    (hc : classify u = cls) :
    encodeUnit cls form s =
      .next { s with buf := s.buf ++ form u.toNat, tpos := s.tpos + 1, seq := ⟨.encode, 0, 0⟩ } := by
  simp only [encodeUnit, State.unit?, hu, if_pos hc]; rfl

theorem execEnc4_pair {hi lo : CodeUnit} (hu : s.text[s.tpos]? = some hi) (hc : classify hi = .surrogate)
    (hp : pairLow s.cfg.policy hi s.text[s.tpos + 1]? = some lo) :
    execEnc4 s = .next
      { s with buf := s.buf ++ form4 (pairPoint hi lo), tpos := s.tpos + 2, seq := ⟨.encode, 0, 0⟩ } := by
  simp only [execEnc4, State.unit?, hu, if_pos hc, hp]; rfl

theorem execEnc4_raise {hi : CodeUnit} (hu : s.text[s.tpos]? = some hi) (hc : classify hi = .surrogate)
    (hp : pairLow s.cfg.policy hi s.text[s.tpos + 1]? = none) :
    execEnc4 s = .next (s.raise causeEncSurrogate s.tpos) := by
  simp only [execEnc4, State.unit?, hu, if_pos hc, hp]

theorem execEncend_next (h : s.tpos = s.text.length) (hm : s.buf.length ≤ s.cfg.maxLen) :
    execEncend s = .next { s with len := s.buf.length, seq := ⟨.pad, 0, 0⟩ } := by
  simp only [execEncend, State.numUnits, if_pos h, if_pos hm]; rfl

theorem execEncend_raise (h : s.tpos = s.text.length) (hm : s.cfg.maxLen < s.buf.length) :
    execEncend s = .next (s.raise causeLenRange s.buf.length) := by
  simp only [execEncend, State.numUnits, if_pos h, if_neg (Nat.not_le.2 hm)]

/-! ## Padding -/

theorem execPadz_next (h : s.buf.length % 64 ≠ 56) :
    execPadz s = .next { s with buf := s.buf ++ [0x00], seq := ⟨.pad, 1, 0⟩ } := by
  simp only [execPadz, if_neg h]; rfl

theorem execPadlen_next (h : s.buf.length % 64 = 56) :
    execPadlen s = .next
      { s with
        buf := s.buf ++ lengthField s.len, nblk := (s.buf.length + 8) / 64, blk := 0, seq := ⟨.sched, 0, 0⟩ } := by
  have h8 : (s.buf ++ lengthField s.len).length / 64 = (s.buf.length + 8) / 64 := by simp
  simp only [execPadlen, if_pos h, State.append, State.setBlocks, State.moveTo, h8]

/-! ## Schedule -/

theorem execWload_next {j : BitVec 7} {x : Word} (hj : j.toNat ≤ 15) (hx : messageWord s.buf s.blk j.toNat = some x) :
    execWload j s = .next { s with w := s.w.setIfInBounds j.toNat x, seq := seqAfterWload j.toNat } := by
  simp only [execWload, dif_pos hj, hx, State.setW, set_eq_setIfInBounds]; rfl

theorem execWexp_next {j : BitVec 7} (hj : 16 ≤ j.toNat ∧ j.toNat ≤ 67) :
    execWexp j s = .next
      { s with
        w := s.w.setIfInBounds j.toNat
          (expandWord s.w[j.toNat - 16] s.w[j.toNat - 9] s.w[j.toNat - 3] s.w[j.toNat - 13] s.w[j.toNat - 6])
        seq := seqAfterWexp j.toNat } := by
  simp only [execWexp, dif_pos hj, State.setW, set_eq_setIfInBounds]; rfl

theorem execWprime_next {j : BitVec 7} (hj : j.toNat ≤ 63) :
    execWprime j s = .next
      { s with
        wp := s.wp.setIfInBounds j.toNat (xor32 s.w[j.toNat] s.w[j.toNat + 4])
        seq := seqAfterWprime j.toNat } := by
  simp only [execWprime, dif_pos hj, State.setWp, set_eq_setIfInBounds]; rfl

/-! ## Compression -/

/-- A round of the first kind, with the functions of its index (R114). -/
theorem execRoundl_next {j : BitVec 7} (hj : j.toNat ≤ 15) :
    execRoundl j s = .next
      { s with
        work := roundWork (ff j.toNat) (gg j.toNat) (tConst j.toNat) j.toNat s.work s.w[j.toNat] s.wp[j.toNat]
        seq := seqAfterRound j.toNat } := by
  have hf : ff j.toNat = ff0 := by funext x y z; rw [ff, if_pos hj]
  have hg : gg j.toNat = gg0 := by funext x y z; rw [gg, if_pos hj]
  have ht : tConst j.toNat = tLo := by rw [tConst, if_pos hj]
  rw [hf, hg, ht]
  simp only [execRoundl, dif_pos hj]; rfl

/-- A round of the second kind, with the functions of its index (R114). -/
theorem execRoundh_next {j : BitVec 7} (hj : 16 ≤ j.toNat ∧ j.toNat ≤ 63) :
    execRoundh j s = .next
      { s with
        work := roundWork (ff j.toNat) (gg j.toNat) (tConst j.toNat) j.toNat s.work s.w[j.toNat] s.wp[j.toNat]
        seq := seqAfterRound j.toNat } := by
  have hn : ¬ j.toNat ≤ 15 := by omega
  have hf : ff j.toNat = ff1 := by funext x y z; rw [ff, if_neg hn]
  have hg : gg j.toNat = gg1 := by funext x y z; rw [gg, if_neg hn]
  have ht : tConst j.toNat = tHi := by rw [tConst, if_neg hn]
  rw [hf, hg, ht]
  simp only [execRoundh, dif_pos hj]; rfl

theorem seqAfterCfeed_eq {b n : Nat} (h : b + 1 ≤ n) :
    seqAfterCfeed b n = some (if b + 1 < n then ⟨.sched, 0, 0⟩ else ⟨.format, 0, 0⟩) := by
  unfold seqAfterCfeed; split
  · rfl
  · rw [if_pos (by omega)]

theorem execCfeed_next (h : s.blk + 1 ≤ s.nblk) :
    execCfeed s = .next
      { s with
        v := feedback s.work s.v, blk := s.blk + 1
        seq := if s.blk + 1 < s.nblk then ⟨.sched, 0, 0⟩ else ⟨.format, 0, 0⟩ } := by
  simp only [execCfeed, seqAfterCfeed_eq h]; rfl

/-! ## Format -/

theorem execDser_next (s : State) : execDser s = .next
    { s with digest := s.digest.writeBytes 0 (digestOf s.v), seq := ⟨.format, 1, 0⟩ } := by
  simp only [execDser, serialise_eq]; rfl

theorem execDhex_next {ds : List Byte} (h : s.digest.readBytes 0 32 = some ds) : execDhex s = .next
    { s with hex := s.hex.writeBytes 0 (hexImage ds), seq := ⟨.format, 2, 0⟩ } := by
  simp only [execDhex, h]; rfl

/-! ## Everything an operation can do -/

/-- The next states of each operation, with the condition under which it has them. -/
inductive Effect (s : State) : Instr → State → Prop where
  | start : Effect s .start
      { s.invalidate with
        v := s.cfg.iv, buf := [], tpos := 0, busy := true, done := false, fault := false, cause := causeNone, finfo := 0
        seq := ⟨.encode, 0, 0⟩ }
  | enc1 (u : CodeUnit) (hu : s.text[s.tpos]? = some u) (hc : classify u = .oneByte) : Effect s .enc1
      { s with buf := s.buf ++ form1 u.toNat, tpos := s.tpos + 1, seq := ⟨.encode, 0, 0⟩ }
  | enc2 (u : CodeUnit) (hu : s.text[s.tpos]? = some u) (hc : classify u = .twoByte) : Effect s .enc2
      { s with buf := s.buf ++ form2 u.toNat, tpos := s.tpos + 1, seq := ⟨.encode, 0, 0⟩ }
  | enc3 (u : CodeUnit) (hu : s.text[s.tpos]? = some u) (hc : classify u = .threeByte) : Effect s .enc3
      { s with buf := s.buf ++ form3 u.toNat, tpos := s.tpos + 1, seq := ⟨.encode, 0, 0⟩ }
  | enc4 (hi lo : CodeUnit) (hu : s.text[s.tpos]? = some hi) (hc : classify hi = .surrogate)
      (hl : pairLow s.cfg.policy hi s.text[s.tpos + 1]? = some lo) : Effect s .enc4
      { s with buf := s.buf ++ form4 (pairPoint hi lo), tpos := s.tpos + 2, seq := ⟨.encode, 0, 0⟩ }
  | enc4_raise (hi : CodeUnit) (hu : s.text[s.tpos]? = some hi) (hc : classify hi = .surrogate)
      (hl : pairLow s.cfg.policy hi s.text[s.tpos + 1]? = none) : Effect s .enc4 (s.raise causeEncSurrogate s.tpos)
  | encend (h : s.tpos = s.text.length) (hm : s.buf.length ≤ s.cfg.maxLen) : Effect s .encend
      { s with len := s.buf.length, seq := ⟨.pad, 0, 0⟩ }
  | encend_raise (h : s.tpos = s.text.length) (hm : s.cfg.maxLen < s.buf.length) : Effect s .encend
      (s.raise causeLenRange s.buf.length)
  | pad80 : Effect s .pad80 { s with buf := s.buf ++ [0x80], seq := ⟨.pad, 1, 0⟩ }
  | padz (hm : s.buf.length % 64 ≠ 56) : Effect s .padz { s with buf := s.buf ++ [0x00], seq := ⟨.pad, 1, 0⟩ }
  | padlen (hm : s.buf.length % 64 = 56) : Effect s .padlen
      { s with
        buf := s.buf ++ lengthField s.len, nblk := (s.buf.length + 8) / 64, blk := 0, seq := ⟨.sched, 0, 0⟩ }
  | wload (j : BitVec 7) (x : Word) (hj : j.toNat ≤ 15) (hx : messageWord s.buf s.blk j.toNat = some x) :
      Effect s (.wload j) { s with w := s.w.setIfInBounds j.toNat x, seq := seqAfterWload j.toNat }
  | wexp (j : BitVec 7) (hj : 16 ≤ j.toNat ∧ j.toNat ≤ 67) : Effect s (.wexp j)
      { s with
        w := s.w.setIfInBounds j.toNat
          (expandWord s.w[j.toNat - 16] s.w[j.toNat - 9] s.w[j.toNat - 3] s.w[j.toNat - 13] s.w[j.toNat - 6])
        seq := seqAfterWexp j.toNat }
  | wprime (j : BitVec 7) (hj : j.toNat ≤ 63) : Effect s (.wprime j)
      { s with
        wp := s.wp.setIfInBounds j.toNat (xor32 s.w[j.toNat] s.w[j.toNat + 4])
        seq := seqAfterWprime j.toNat }
  | cinit : Effect s .cinit { s with work := workOf s.v, seq := ⟨.compress, 1, 0⟩ }
  | roundl (j : BitVec 7) (hj : j.toNat ≤ 15) : Effect s (.roundl j)
      { s with
        work := roundWork (ff j.toNat) (gg j.toNat) (tConst j.toNat) j.toNat s.work s.w[j.toNat] s.wp[j.toNat]
        seq := seqAfterRound j.toNat }
  | roundh (j : BitVec 7) (hj : 16 ≤ j.toNat ∧ j.toNat ≤ 63) : Effect s (.roundh j)
      { s with
        work := roundWork (ff j.toNat) (gg j.toNat) (tConst j.toNat) j.toNat s.work s.w[j.toNat] s.wp[j.toNat]
        seq := seqAfterRound j.toNat }
  | cfeed (h : s.blk + 1 ≤ s.nblk) : Effect s .cfeed
      { s with
        v := feedback s.work s.v, blk := s.blk + 1
        seq := if s.blk + 1 < s.nblk then ⟨.sched, 0, 0⟩ else ⟨.format, 0, 0⟩ }
  | dser : Effect s .dser { s with digest := s.digest.writeBytes 0 (digestOf s.v), seq := ⟨.format, 1, 0⟩ }
  | dhex (ds : List Byte) (h : s.digest.readBytes 0 32 = some ds) : Effect s .dhex
      { s with hex := s.hex.writeBytes 0 (hexImage ds), seq := ⟨.format, 2, 0⟩ }
  | finish : Effect s .finish { s with busy := false, done := true, seq := { s.seq with phase := .done } }
  | add32 (x y : Word) : Effect s (.add32 x y) (s.answerAlu (add32 x y))
  | xor32 (x y : Word) : Effect s (.xor32 x y) (s.answerAlu (xor32 x y))
  | and32 (x y : Word) : Effect s (.and32 x y) (s.answerAlu (and32 x y))
  | or32 (x y : Word) : Effect s (.or32 x y) (s.answerAlu (or32 x y))
  | not32 (x : Word) : Effect s (.not32 x) (s.answerAlu (not32 x))
  | rotl32 (x : Word) (n : BitVec 5) : Effect s (.rotl32 x n) (s.answerAlu (rotl x n.toNat))
  | p0 (x : Word) : Effect s (.p0 x) (s.answerAlu (p0 x))
  | p1 (x : Word) : Effect s (.p1 x) (s.answerAlu (p1 x))
  | ff0 (x y z : Word) : Effect s (.ff0 x y z) (s.answerAlu (ff0 x y z))
  | ff1 (x y z : Word) : Effect s (.ff1 x y z) (s.answerAlu (ff1 x y z))
  | gg0 (x y z : Word) : Effect s (.gg0 x y z) (s.answerAlu (gg0 x y z))
  | gg1 (x y z : Word) : Effect s (.gg1 x y z) (s.answerAlu (gg1 x y z))
  | tj (j : BitVec 6) : Effect s (.tj j) (s.answerAlu (tConst j.toNat))

/-- An operation that completes has one of its effects. -/
theorem effect_of_exec {i : Instr} {t : State} (h : exec i s = .next t) : Effect s i t := by
  have done : ∀ {u : State}, exec i s = .next u → Effect s i u → Effect s i t := fun hu he => by
    rw [hu] at h; rw [← Host.Outcome.next.inj h]; exact he
  cases i with
  | start => exact done rfl .start
  | enc1 =>
    simp only [exec, execEnc1, encodeUnit, State.unit?] at h
    split at h
    · cases h
    · next u hu =>
      split at h
      · next hc => exact done (encodeUnit_next _ hu hc) (.enc1 u hu hc)
      · cases h
  | enc2 =>
    simp only [exec, execEnc2, encodeUnit, State.unit?] at h
    split at h
    · cases h
    · next u hu =>
      split at h
      · next hc => exact done (encodeUnit_next _ hu hc) (.enc2 u hu hc)
      · cases h
  | enc3 =>
    simp only [exec, execEnc3, encodeUnit, State.unit?] at h
    split at h
    · cases h
    · next u hu =>
      split at h
      · next hc => exact done (encodeUnit_next _ hu hc) (.enc3 u hu hc)
      · cases h
  | enc4 =>
    simp only [exec, execEnc4, State.unit?] at h
    split at h
    · cases h
    · next u hu =>
      split at h
      · next hc =>
        split at h
        · next lo hl => exact done (execEnc4_pair hu hc hl) (.enc4 u lo hu hc hl)
        · next hl => exact done (execEnc4_raise hu hc hl) (.enc4_raise u hu hc hl)
      · cases h
  | encend =>
    simp only [exec, execEncend] at h
    split at h
    · next ht =>
      split at h
      · next hm => exact done (execEncend_next ht hm) (.encend ht hm)
      · next hm => exact done (execEncend_raise ht (Nat.lt_of_not_le hm)) (.encend_raise ht (Nat.lt_of_not_le hm))
    · cases h
  | pad80 => exact done rfl .pad80
  | padz =>
    simp only [exec, execPadz] at h
    split at h
    · cases h
    · next hm => exact done (execPadz_next hm) (.padz hm)
  | padlen =>
    simp only [exec, execPadlen] at h
    split at h
    · next hm => exact done (execPadlen_next hm) (.padlen hm)
    · cases h
  | wload j =>
    simp only [exec, execWload] at h
    split at h
    · next hj =>
      split at h
      · next x hx => exact done (execWload_next hj hx) (.wload j x hj hx)
      · cases h
    · cases h
  | wexp j =>
    simp only [exec, execWexp] at h
    split at h
    · next hj => exact done (execWexp_next hj) (.wexp j hj)
    · cases h
  | wprime j =>
    simp only [exec, execWprime] at h
    split at h
    · next hj => exact done (execWprime_next hj) (.wprime j hj)
    · cases h
  | cinit => exact done rfl .cinit
  | roundl j =>
    simp only [exec, execRoundl] at h
    split at h
    · next hj => exact done (execRoundl_next hj) (.roundl j hj)
    · cases h
  | roundh j =>
    simp only [exec, execRoundh] at h
    split at h
    · next hj => exact done (execRoundh_next hj) (.roundh j hj)
    · cases h
  | cfeed =>
    by_cases hb : s.blk + 1 ≤ s.nblk
    · exact done (execCfeed_next hb) (.cfeed hb)
    · have : seqAfterCfeed s.blk s.nblk = none := by
        unfold seqAfterCfeed; rw [if_neg (by omega), if_neg (by omega)]
      simp only [exec, execCfeed, this] at h
      cases h
  | dser => exact done (execDser_next s) .dser
  | dhex =>
    simp only [exec, execDhex] at h
    split at h
    · next ds hd => exact done (execDhex_next hd) (.dhex ds hd)
    · cases h
  | finish => exact done rfl .finish
  | add32 x y => exact done rfl (.add32 x y)
  | xor32 x y => exact done rfl (.xor32 x y)
  | and32 x y => exact done rfl (.and32 x y)
  | or32 x y => exact done rfl (.or32 x y)
  | not32 x => exact done rfl (.not32 x)
  | rotl32 x n => exact done rfl (.rotl32 x n)
  | p0 x => exact done rfl (.p0 x)
  | p1 x => exact done rfl (.p1 x)
  | ff0 x y z => exact done rfl (.ff0 x y z)
  | ff1 x y z => exact done rfl (.ff1 x y z)
  | gg0 x y z => exact done rfl (.gg0 x y z)
  | gg1 x y z => exact done rfl (.gg1 x y z)
  | tj j => exact done rfl (.tj j)

/-- Each effect is that of the operation. -/
theorem exec_of_effect {i : Instr} {t : State} (h : Effect s i t) : exec i s = .next t := by
  cases h with
  | enc1 u hu hc => exact encodeUnit_next _ hu hc
  | enc2 u hu hc => exact encodeUnit_next _ hu hc
  | enc3 u hu hc => exact encodeUnit_next _ hu hc
  | enc4 hi lo hu hc hl => exact execEnc4_pair hu hc hl
  | enc4_raise hi hu hc hl => exact execEnc4_raise hu hc hl
  | encend ht hm => exact execEncend_next ht hm
  | encend_raise ht hm => exact execEncend_raise ht hm
  | padz hm => exact execPadz_next hm
  | padlen hm => exact execPadlen_next hm
  | wload j x hj hx => exact execWload_next hj hx
  | wexp j hj => exact execWexp_next hj
  | wprime j hj => exact execWprime_next hj
  | roundl j hj => exact execRoundl_next hj
  | roundh j hj => exact execRoundh_next hj
  | cfeed hb => exact execCfeed_next hb
  | dser => exact execDser_next s
  | dhex ds hd => exact execDhex_next hd
  | _ => rfl

end Sys2Proof.Machine
end

