-- ==== Sys2Proof/Laws/PerInstr.lean ====
section
/-! SUPPORT. One statement per operation, about the operation as syntax: its format and its place among the defined codes
(R78, R79, R82), and whether it is a trace line (R84). -/

namespace Sys2Proof.Laws.Format

open Sys2Proof Sys2Proof.Machine

/-- An operation is a sequencer operation, with a defined `op` and a trace line, or an ALU function, with a defined `fn`
and none (R82, R84). -/
def Statement (i : Instr) : Prop :=
  (∃ scw : BitVec 12, encode i = .seq scw ∧ 0x01 ≤ (opOf scw).toNat ∧ (opOf scw).toNat ≤ 0x13 ∧
    (traceLine i).isSome = true) ∨
  (∃ c : AluCode, encode i = .alu c ∧ c.fn.toNat ≤ 0xC ∧ traceLine i = none)

theorem of_seq {i : Instr} (op : BitVec 5) (idx : BitVec 7) (h : encode i = .seq (scwOf op idx)) (h1 : 0x01 ≤ op.toNat)
    (h2 : op.toNat ≤ 0x13) (ht : (traceLine i).isSome = true) : Statement i :=
  .inl ⟨_, h, by rwa [opOf_scwOf], by rwa [opOf_scwOf], ht⟩

theorem of_alu {i : Instr} (c : AluCode) (h : encode i = .alu c) (hf : c.fn.toNat ≤ 0xC) (ht : traceLine i = none) :
    Statement i := .inr ⟨c, h, hf, ht⟩

theorem start : Statement .start := of_seq 0x01 0 rfl (by decide) (by decide) rfl
theorem enc1 : Statement .enc1 := of_seq 0x02 0 rfl (by decide) (by decide) rfl
theorem enc2 : Statement .enc2 := of_seq 0x03 0 rfl (by decide) (by decide) rfl
theorem enc3 : Statement .enc3 := of_seq 0x04 0 rfl (by decide) (by decide) rfl
theorem enc4 : Statement .enc4 := of_seq 0x05 0 rfl (by decide) (by decide) rfl
theorem encend : Statement .encend := of_seq 0x06 0 rfl (by decide) (by decide) rfl
theorem pad80 : Statement .pad80 := of_seq 0x07 0 rfl (by decide) (by decide) rfl
theorem padz : Statement .padz := of_seq 0x08 0 rfl (by decide) (by decide) rfl
theorem padlen : Statement .padlen := of_seq 0x09 0 rfl (by decide) (by decide) rfl
theorem wload (j : BitVec 7) : Statement (.wload j) := of_seq 0x0A j rfl (by decide) (by decide) rfl
theorem wexp (j : BitVec 7) : Statement (.wexp j) := of_seq 0x0B j rfl (by decide) (by decide) rfl
theorem wprime (j : BitVec 7) : Statement (.wprime j) := of_seq 0x0C j rfl (by decide) (by decide) rfl
theorem cinit : Statement .cinit := of_seq 0x0D 0 rfl (by decide) (by decide) rfl
theorem roundl (j : BitVec 7) : Statement (.roundl j) := of_seq 0x0E j rfl (by decide) (by decide) rfl
theorem roundh (j : BitVec 7) : Statement (.roundh j) := of_seq 0x0F j rfl (by decide) (by decide) rfl
theorem cfeed : Statement .cfeed := of_seq 0x10 0 rfl (by decide) (by decide) rfl
theorem dser : Statement .dser := of_seq 0x11 0 rfl (by decide) (by decide) rfl
theorem dhex : Statement .dhex := of_seq 0x12 0 rfl (by decide) (by decide) rfl
theorem finish : Statement .finish := of_seq 0x13 0 rfl (by decide) (by decide) rfl
theorem add32 (x y : Word) : Statement (.add32 x y) := of_alu _ rfl (Nat.le_of_ble_eq_true rfl) rfl
theorem xor32 (x y : Word) : Statement (.xor32 x y) := of_alu _ rfl (Nat.le_of_ble_eq_true rfl) rfl
theorem and32 (x y : Word) : Statement (.and32 x y) := of_alu _ rfl (Nat.le_of_ble_eq_true rfl) rfl
theorem or32 (x y : Word) : Statement (.or32 x y) := of_alu _ rfl (Nat.le_of_ble_eq_true rfl) rfl
theorem not32 (x : Word) : Statement (.not32 x) := of_alu _ rfl (Nat.le_of_ble_eq_true rfl) rfl
theorem rotl32 (x : Word) (n : BitVec 5) : Statement (.rotl32 x n) := of_alu _ rfl (Nat.le_of_ble_eq_true rfl) rfl
theorem p0 (x : Word) : Statement (.p0 x) := of_alu _ rfl (Nat.le_of_ble_eq_true rfl) rfl
theorem p1 (x : Word) : Statement (.p1 x) := of_alu _ rfl (Nat.le_of_ble_eq_true rfl) rfl
theorem ff0 (x y z : Word) : Statement (.ff0 x y z) := of_alu _ rfl (Nat.le_of_ble_eq_true rfl) rfl
theorem ff1 (x y z : Word) : Statement (.ff1 x y z) := of_alu _ rfl (Nat.le_of_ble_eq_true rfl) rfl
theorem gg0 (x y z : Word) : Statement (.gg0 x y z) := of_alu _ rfl (Nat.le_of_ble_eq_true rfl) rfl
theorem gg1 (x y z : Word) : Statement (.gg1 x y z) := of_alu _ rfl (Nat.le_of_ble_eq_true rfl) rfl
theorem tj (j : BitVec 6) : Statement (.tj j) := of_alu _ rfl (Nat.le_of_ble_eq_true rfl) rfl

end Sys2Proof.Laws.Format
end

