-- ==== Sys2Proof/Laws/Step.lean ====
section
/-! SUPPORT. What a step is, by what the outside does and what the sequencer selects; and running several steps. -/

namespace Sys2Proof.Machine

variable {s : State}

/-! ## A step -/

theorem step_alu {c : AluCode} (h : s.aluReq = some c) : step s = aluPortStep c s := by
  simp only [step, stepOnce, h]

theorem step_quiet_host (h : s.aluReq = none) (hh : s.host = []) : step s = engineStep s := by
  simp only [step, stepOnce, h, hh]

theorem step_host {e : HostEvent} {rest : List HostEvent} (h : s.aluReq = none) (hh : s.host = e :: rest) :
    step s = hostStep e (s.setHost rest) := by
  simp only [step, stepOnce, h, hh]

theorem hostStep_hash_busy (h : s.seq.phase.isBusy = true) : hostStep .hash s = engineStep s := if_pos h

theorem hostStep_hash_idle (h : s.seq.phase.isBusy = false) : hostStep .hash s = exec .start s :=
  if_neg (by rw [h]; decide)

theorem hostStep_writeText_busy {units : List CodeUnit} (h : s.seq.phase.isBusy = true) :
    hostStep (.writeText units) s = .refused .textWriteWhileBusy := if_pos h

theorem hostStep_writeText_idle {units : List CodeUnit} (h : s.seq.phase.isBusy = false) :
    hostStep (.writeText units) s = .next (s.setText units) := if_neg (by rw [h]; decide)

theorem engineStep_issue {i : Instr} (h : select s = .issue i) : engineStep s = exec i s := by
  simp only [engineStep, h]

theorem engineStep_quiet (h : select s = .quiet) : engineStep s = .next s := by
  simp only [engineStep, h]

theorem engineStep_raise {cause : BitVec 2} {info : Nat} (h : select s = .raise cause info) :
    engineStep s = .next (s.raise cause info) := by
  simp only [engineStep, h]

theorem engineStep_outside (h : select s = .outside) : engineStep s = .refused .noTransition := by
  simp only [engineStep, h]

/-- What an engine's move can be, once for all. -/
theorem engineStep_cases {t : State} (h : engineStep s = .next t) :
    (select s = .quiet ∧ t = s) ∨ (∃ i, select s = .issue i ∧ exec i s = .next t) ∨
      ∃ cause info, select s = .raise cause info ∧ t = s.raise cause info := by
  unfold engineStep at h
  split at h
  · next hs => exact .inl ⟨hs, (Host.Outcome.next.inj h).symm⟩
  · next i hs => exact .inr (.inl ⟨i, hs, h⟩)
  · next c n hs => exact .inr (.inr ⟨c, n, hs, (Host.Outcome.next.inj h).symm⟩)
  · cases h

/-- What a step can be, once for all: an ALU function by itself, a move of the engine, an accepted command, TEXT placed, a
hardware reset. The state the engine moves from is `s` with the script entry used up. -/
theorem step_cases {t : State} (h : step s = .next t) :
    (∃ c i, s.aluReq = some c ∧ decode (.alu c) = .instr i ∧ exec i s = .next t) ∨
    (s.aluReq = none ∧
      ((∃ rest, (s.host = [] ∧ rest = [] ∨ s.host = .wait :: rest ∨ (s.host = .hash :: rest ∧ s.seq.phase.isBusy = true)) ∧
          engineStep (s.setHost rest) = .next t) ∨
        (∃ rest, s.host = .hash :: rest ∧ s.seq.phase.isBusy = false ∧ exec .start (s.setHost rest) = .next t) ∨
        (∃ units rest, s.host = .writeText units :: rest ∧ s.seq.phase.isBusy = false ∧
          t = (s.setHost rest).setText units) ∨
        ∃ rest, s.host = .hardReset :: rest ∧ t = (s.setHost rest).hardReset)) := by
  cases ha : s.aluReq with
  | some c =>
    rw [step_alu ha] at h
    unfold aluPortStep at h
    split at h
    · next i hd => exact .inl ⟨c, i, rfl, hd, h⟩
    · cases h
  | none =>
    refine .inr ⟨rfl, ?_⟩
    cases hh : s.host with
    | nil =>
      rw [step_quiet_host ha hh] at h
      have : s.setHost [] = s := by rw [← hh]; rfl
      exact .inl ⟨[], .inl ⟨rfl, rfl⟩, by rw [this]; exact h⟩
    | cons e rest =>
      rw [step_host ha hh] at h
      cases e with
      | wait => exact .inl ⟨rest, .inr (.inl rfl), h⟩
      | hash =>
        cases hb : s.seq.phase.isBusy with
        | true => rw [hostStep_hash_busy (s := s.setHost rest) hb] at h; exact .inl ⟨rest, .inr (.inr ⟨rfl, rfl⟩), h⟩
        | false => rw [hostStep_hash_idle (s := s.setHost rest) hb] at h; exact .inr (.inl ⟨rest, rfl, rfl, h⟩)
      | writeText units =>
        cases hb : s.seq.phase.isBusy with
        | true => rw [hostStep_writeText_busy (s := s.setHost rest) hb] at h; cases h
        | false =>
          rw [hostStep_writeText_idle (s := s.setHost rest) hb] at h
          exact .inr (.inr (.inl ⟨units, rest, rfl, rfl, (Host.Outcome.next.inj h).symm⟩))
      | hardReset => exact .inr (.inr (.inr ⟨rest, rfl, (Host.Outcome.next.inj h).symm⟩))

/-! ## The sequencer's selection, phase by phase -/

theorem select_encode (h : s.seq.phase = .encode) : select s = selectEncode s := by simp only [select, h]
theorem select_pad (h : s.seq.phase = .pad) : select s = selectPad s := by simp only [select, h]
theorem select_sched (h : s.seq.phase = .sched) : select s = selectSched s.seq := by simp only [select, h]
theorem select_compress (h : s.seq.phase = .compress) : select s = selectCompress s.seq := by simp only [select, h]
theorem select_format (h : s.seq.phase = .format) : select s = selectFormat s.seq := by simp only [select, h]

/-- R193 rows 3 to 8, on the class of the unit at TPOS. -/
theorem selectEncode_unit {u : CodeUnit} (hu : s.text[s.tpos]? = some u) : selectEncode s =
    match classify u with
    | .oneByte => .issue .enc1
    | .twoByte => .issue .enc2
    | .threeByte => .issue .enc3
    | .surrogate =>
      match pairLow s.cfg.policy u s.text[s.tpos + 1]? with
      | some _ => .issue .enc4
      | none => .raise causeEncSurrogate s.tpos := by
  have : s.tpos ≠ s.numUnits := by
    intro h; rw [h, State.numUnits] at hu; simp at hu
  simp only [selectEncode, if_neg this, State.unit?, hu]
  try rfl

theorem select_enc1 {u : CodeUnit} (hp : s.seq.phase = .encode) (hu : s.text[s.tpos]? = some u)
    (hc : classify u = .oneByte) : select s = .issue .enc1 := by
  rw [select_encode hp, selectEncode_unit hu, hc]

theorem select_enc2 {u : CodeUnit} (hp : s.seq.phase = .encode) (hu : s.text[s.tpos]? = some u)
    (hc : classify u = .twoByte) : select s = .issue .enc2 := by
  rw [select_encode hp, selectEncode_unit hu, hc]

theorem select_enc3 {u : CodeUnit} (hp : s.seq.phase = .encode) (hu : s.text[s.tpos]? = some u)
    (hc : classify u = .threeByte) : select s = .issue .enc3 := by
  rw [select_encode hp, selectEncode_unit hu, hc]

theorem select_enc4 {u lo : CodeUnit} (hp : s.seq.phase = .encode) (hu : s.text[s.tpos]? = some u)
    (hc : classify u = .surrogate) (hl : pairLow s.cfg.policy u s.text[s.tpos + 1]? = some lo) :
    select s = .issue .enc4 := by
  rw [select_encode hp, selectEncode_unit hu, hc]; simp only [hl]

theorem select_raise {u : CodeUnit} (hp : s.seq.phase = .encode) (hu : s.text[s.tpos]? = some u)
    (hc : classify u = .surrogate) (hl : pairLow s.cfg.policy u s.text[s.tpos + 1]? = none) :
    select s = .raise causeEncSurrogate s.tpos := by
  rw [select_encode hp, selectEncode_unit hu, hc]; simp only [hl]

theorem select_encend (hp : s.seq.phase = .encode) (h : s.tpos = s.text.length) : select s = .issue .encend := by
  rw [select_encode hp, selectEncode, if_pos (show s.tpos = s.numUnits from h)]

theorem select_pad80 (hp : s.seq.phase = .pad) (h : s.seq.sub = 0) : select s = .issue .pad80 := by
  simp only [select, hp, selectPad, h]

theorem select_padz (hp : s.seq.phase = .pad) (h : s.seq.sub = 1) (hm : s.buf.length % 64 ≠ 56) :
    select s = .issue .padz := by
  simp only [select, hp, selectPad, h, if_neg hm]

theorem select_padlen (hp : s.seq.phase = .pad) (h : s.seq.sub = 1) (hm : s.buf.length % 64 = 56) :
    select s = .issue .padlen := by
  simp only [select, hp, selectPad, h, if_pos hm]

theorem select_wload (hp : s.seq.phase = .sched) (h : s.seq.sub = 0) (hj : s.seq.idx ≤ 15) :
    select s = .issue (.wload (BitVec.ofNat 7 s.seq.idx)) := by
  simp only [select, hp, selectSched, h, if_pos hj]

theorem select_wexp (hp : s.seq.phase = .sched) (h : s.seq.sub = 1) (hj : 16 ≤ s.seq.idx ∧ s.seq.idx ≤ 67) :
    select s = .issue (.wexp (BitVec.ofNat 7 s.seq.idx)) := by
  simp only [select, hp, selectSched, h, if_pos hj]

theorem select_wprime (hp : s.seq.phase = .sched) (h : s.seq.sub = 2) (hj : s.seq.idx ≤ 63) :
    select s = .issue (.wprime (BitVec.ofNat 7 s.seq.idx)) := by
  simp only [select, hp, selectSched, h, if_pos hj]

theorem select_cinit (hp : s.seq.phase = .compress) (h : s.seq.sub = 0) : select s = .issue .cinit := by
  simp only [select, hp, selectCompress, h]

theorem select_roundl (hp : s.seq.phase = .compress) (h : s.seq.sub = 1) (hj : s.seq.idx ≤ 15) :
    select s = .issue (.roundl (BitVec.ofNat 7 s.seq.idx)) := by
  simp only [select, hp, selectCompress, h, if_pos hj]

theorem select_roundh (hp : s.seq.phase = .compress) (h : s.seq.sub = 1) (hj : 16 ≤ s.seq.idx ∧ s.seq.idx ≤ 63) :
    select s = .issue (.roundh (BitVec.ofNat 7 s.seq.idx)) := by
  simp only [select, hp, selectCompress, h, if_neg (show ¬ s.seq.idx ≤ 15 by omega), if_pos hj.2]

theorem select_cfeed (hp : s.seq.phase = .compress) (h : s.seq.sub = 2) : select s = .issue .cfeed := by
  simp only [select, hp, selectCompress, h]

theorem select_dser (hp : s.seq.phase = .format) (h : s.seq.sub = 0) : select s = .issue .dser := by
  simp only [select, hp, selectFormat, h]

theorem select_dhex (hp : s.seq.phase = .format) (h : s.seq.sub = 1) : select s = .issue .dhex := by
  simp only [select, hp, selectFormat, h]

theorem select_finish (hp : s.seq.phase = .format) (h : s.seq.sub = 2) : select s = .issue .finish := by
  simp only [select, hp, selectFormat, h]

theorem select_quiet (h : s.seq.phase.isBusy = false) : select s = .quiet := by
  unfold select
  cases hp : s.seq.phase <;> simp_all [Phase.isBusy]

/-- The engine issues nothing exactly between calls. -/
theorem isBusy_of_select {i : Instr} (h : select s = .issue i) : s.seq.phase.isBusy = true := by
  cases hb : s.seq.phase.isBusy with
  | true => rfl
  | false => rw [select_quiet hb] at h; cases h

/-- R193's rows that issue an operation, each with its condition; `j` is the index the sequencer names. -/
inductive Issues (s : State) : Instr → Prop where
  | enc1 (u : CodeUnit) (hp : s.seq.phase = .encode) (hu : s.text[s.tpos]? = some u) (hc : classify u = .oneByte) :
    Issues s .enc1
  | enc2 (u : CodeUnit) (hp : s.seq.phase = .encode) (hu : s.text[s.tpos]? = some u) (hc : classify u = .twoByte) :
    Issues s .enc2
  | enc3 (u : CodeUnit) (hp : s.seq.phase = .encode) (hu : s.text[s.tpos]? = some u) (hc : classify u = .threeByte) :
    Issues s .enc3
  | enc4 (u lo : CodeUnit) (hp : s.seq.phase = .encode) (hu : s.text[s.tpos]? = some u) (hc : classify u = .surrogate)
    (hl : pairLow s.cfg.policy u s.text[s.tpos + 1]? = some lo) : Issues s .enc4
  | encend (hp : s.seq.phase = .encode) (h : s.tpos = s.text.length) : Issues s .encend
  | pad80 (hp : s.seq.phase = .pad) (h : s.seq.sub = 0) : Issues s .pad80
  | padz (hp : s.seq.phase = .pad) (h : s.seq.sub = 1) (hm : s.buf.length % 64 ≠ 56) : Issues s .padz
  | padlen (hp : s.seq.phase = .pad) (h : s.seq.sub = 1) (hm : s.buf.length % 64 = 56) : Issues s .padlen
  | wload (j : BitVec 7) (hp : s.seq.phase = .sched) (h : s.seq.sub = 0) (hi : s.seq.idx = j.toNat)
    (hj : j.toNat ≤ 15) : Issues s (.wload j)
  | wexp (j : BitVec 7) (hp : s.seq.phase = .sched) (h : s.seq.sub = 1) (hi : s.seq.idx = j.toNat)
    (hj : 16 ≤ j.toNat ∧ j.toNat ≤ 67) : Issues s (.wexp j)
  | wprime (j : BitVec 7) (hp : s.seq.phase = .sched) (h : s.seq.sub = 2) (hi : s.seq.idx = j.toNat)
    (hj : j.toNat ≤ 63) : Issues s (.wprime j)
  | cinit (hp : s.seq.phase = .compress) (h : s.seq.sub = 0) : Issues s .cinit
  | roundl (j : BitVec 7) (hp : s.seq.phase = .compress) (h : s.seq.sub = 1) (hi : s.seq.idx = j.toNat)
    (hj : j.toNat ≤ 15) : Issues s (.roundl j)
  | roundh (j : BitVec 7) (hp : s.seq.phase = .compress) (h : s.seq.sub = 1) (hi : s.seq.idx = j.toNat)
    (hj : 16 ≤ j.toNat ∧ j.toNat ≤ 63) : Issues s (.roundh j)
  | cfeed (hp : s.seq.phase = .compress) (h : s.seq.sub = 2) : Issues s .cfeed
  | dser (hp : s.seq.phase = .format) (h : s.seq.sub = 0) : Issues s .dser
  | dhex (hp : s.seq.phase = .format) (h : s.seq.sub = 1) : Issues s .dhex
  | finish (hp : s.seq.phase = .format) (h : s.seq.sub = 2) : Issues s .finish

/-- The encoder's rows, once for all. -/
theorem selectEncode_cases {i : Instr} (hp : s.seq.phase = .encode) (h : selectEncode s = .issue i) : Issues s i := by
  unfold selectEncode at h
  split at h
  · next ht => cases h; exact .encend hp ht
  · split at h
    · cases h
    · next u hu =>
      split at h
      · next hc => cases h; exact .enc1 u hp hu hc
      · next hc => cases h; exact .enc2 u hp hu hc
      · next hc => cases h; exact .enc3 u hp hu hc
      · next hc =>
        split at h
        · next lo hl => cases h; exact .enc4 u lo hp hu hc hl
        · cases h

/-- What the sequencer selects, once for all. -/
theorem issues_of_select {i : Instr} (h : select s = .issue i) : Issues s i := by
  have small : ∀ {n : Nat}, n ≤ 67 → n = (BitVec.ofNat 7 n).toNat := fun hn => by simp; omega
  cases hp : s.seq.phase with
  | idle | done | faulted => simp only [select, hp] at h; cases h
  | encode => rw [select_encode hp] at h; exact selectEncode_cases hp h
  | pad =>
    simp only [select, hp, selectPad] at h
    split at h
    · next h0 => cases h; exact .pad80 hp h0
    · next h1 =>
      split at h
      · next hm => cases h; exact .padlen hp h1 hm
      · next hm => cases h; exact .padz hp h1 hm
    · cases h
  | sched =>
    simp only [select, hp, selectSched] at h
    split at h
    · next h0 =>
      split at h
      · next hj =>
        cases h
        have := small (show s.seq.idx ≤ 67 by omega)
        exact .wload _ hp h0 this (by omega)
      · cases h
    · next h0 =>
      split at h
      · next hj =>
        cases h
        have := small (show s.seq.idx ≤ 67 by omega)
        exact .wexp _ hp h0 this (by omega)
      · cases h
    · next h0 =>
      split at h
      · next hj =>
        cases h
        have := small (show s.seq.idx ≤ 67 by omega)
        exact .wprime _ hp h0 this (by omega)
      · cases h
    · cases h
  | compress =>
    simp only [select, hp, selectCompress] at h
    split at h
    · next h0 => cases h; exact .cinit hp h0
    · next h0 =>
      split at h
      · next hj =>
        cases h
        have := small (show s.seq.idx ≤ 67 by omega)
        exact .roundl _ hp h0 this (by omega)
      · split at h
        · cases h
          have := small (show s.seq.idx ≤ 67 by omega)
          exact .roundh _ hp h0 this (by omega)
        · cases h
    · next h0 => cases h; exact .cfeed hp h0
    · cases h
  | format =>
    simp only [select, hp, selectFormat] at h
    split at h
    · next h0 => cases h; exact .dser hp h0
    · next h0 => cases h; exact .dhex hp h0
    · next h0 => cases h; exact .finish hp h0
    · cases h

/-! ## Several steps -/

theorem host_run_succ (M : Host.Core) (n : Nat) {s t : M.State} (h : M.step s = .next t) :
    M.run (n + 1) s = M.run n t := by
  rw [Host.Core.run, h]

theorem host_run_split (M : Host.Core) (n : Nat) {s u : M.State} (h : M.run (n + 1) s = .next u) :
    ∃ t, M.step s = .next t ∧ M.run n t = .next u := by
  rw [Host.Core.run] at h
  cases hs : M.step s <;> rw [hs] at h
  · exact ⟨_, rfl, h⟩
  all_goals cases h

theorem run_zero (s : State) : Host.Core.run core 0 s = .next s := rfl

/-- A run whose first step is known. -/
theorem run_succ {t : State} (n : Nat) (h : step s = .next t) :
    Host.Core.run core (n + 1) s = Host.Core.run core n t := host_run_succ core n h

/-- A run that answers takes a first step and goes on. -/
theorem run_split {u : State} {n : Nat} (h : Host.Core.run core (n + 1) s = .next u) :
    ∃ t, step s = .next t ∧ Host.Core.run core n t = .next u := host_run_split core n h

/-- Runs put together. -/
theorem run_add {t : State} (m n : Nat) (h : Host.Core.run core m s = .next t) :
    Host.Core.run core (m + n) s = Host.Core.run core n t := by
  induction m generalizing s with
  | zero => rw [run_zero] at h; obtain rfl := Host.Outcome.next.inj h; rw [Nat.zero_add]
  | succ m ih =>
    obtain ⟨u, hs, hr⟩ := run_split h
    rw [Nat.succ_add, run_succ _ hs]
    exact ih hr

end Sys2Proof.Machine
end

