-- ==== Sys2Proof/Laws/Run.lean ====
section
/-! SUPPORT. Runs inside a call: so many steps, the state they lead to and the operations they issue, put together. -/

namespace Sys2Proof.Machine

/-- `n` steps from `s` lead to `t` and issue `ops`, and a call is in progress before each of them. -/
structure Goes (n : Nat) (s t : State) (ops : List Instr) : Prop where
  run : Host.Core.run core n s = .next t
  ops : issued n s = ops
  busy : ∀ m, m < n → ∃ u, Host.Core.run core m s = .next u ∧ u.seq.phase.isBusy = true

variable {s t u : State}

theorem issued_succ (n : Nat) (h : step s = .next t) : issued (n + 1) s = (issuedAt s).toList ++ issued n t := by
  simp only [issued, h]

/-- No steps. -/
theorem Goes.zero (s : State) : Goes 0 s s [] := ⟨run_zero s, rfl, fun m h => absurd h (Nat.not_lt_zero m)⟩

/-- One more step at the front. -/
theorem Goes.cons {n : Nat} {i : Instr} {ops : List Instr} (hs : step s = .next t) (hi : issuedAt s = some i)
    (hb : s.seq.phase.isBusy = true) (h : Goes n t u ops) : Goes (n + 1) s u (i :: ops) where
  run := by rw [run_succ n hs]; exact h.run
  ops := by rw [issued_succ n hs, hi, h.ops]; rfl
  busy := fun m hm => by
    cases m with
    | zero => exact ⟨s, run_zero s, hb⟩
    | succ m => rw [run_succ m hs]; exact h.busy m (by omega)

/-- Runs put together. -/
theorem Goes.trans {m n : Nat} {a b : List Instr} (h1 : Goes m s t a) (h2 : Goes n t u b) :
    Goes (m + n) s u (a ++ b) := by
  induction m generalizing s a with
  | zero =>
    have := h1.run
    rw [run_zero] at this
    obtain rfl := Host.Outcome.next.inj this
    have := h1.ops
    simp only [issued] at this
    subst this
    rw [Nat.zero_add]; exact h2
  | succ m ih =>
    obtain ⟨v, hs, hr⟩ := run_split h1.run
    have hb : s.seq.phase.isBusy = true := by
      obtain ⟨w, hw, hwb⟩ := h1.busy 0 (by omega)
      rw [run_zero] at hw
      obtain rfl := Host.Outcome.next.inj hw
      exact hwb
    have ho := h1.ops
    rw [issued_succ m hs] at ho
    have h3 : Goes m v t (issued m v) :=
      ⟨hr, rfl, fun k hk => by have := h1.busy (k + 1) (by omega); rwa [run_succ k hs] at this⟩
    have h4 := ih h3
    rw [Nat.succ_add]
    refine ⟨by rw [run_succ _ hs]; exact h4.run, ?_, fun k hk => ?_⟩
    · rw [issued_succ _ hs, h4.ops, ← ho, List.append_assoc]
    · cases k with
      | zero => exact ⟨s, run_zero s, hb⟩
      | succ k => rw [run_succ k hs]; exact h4.busy k (by omega)

/-- One operation, issued by the sequencer with the outside doing nothing. -/
theorem Goes.one {i : Instr} (ha : s.aluReq = none) (hh : s.host = []) (hi : select s = .issue i)
    (he : exec i s = .next t) : Goes 1 s t [i] := by
  have hs : step s = .next t := by rw [step_quiet_host ha hh, engineStep_issue hi]; exact he
  have hI : issuedAt s = some i := by simp only [issuedAt, ha, hh, hi]
  exact Goes.cons hs hI (isBusy_of_select hi) (Goes.zero t)

/-- One more operation at the end. -/
theorem Goes.snoc {n : Nat} {i : Instr} {ops : List Instr} (h : Goes n s t ops) (ha : t.aluReq = none) (hh : t.host = [])
    (hi : select t = .issue i) (he : exec i t = .next u) : Goes (n + 1) s u (ops ++ [i]) :=
  h.trans (Goes.one ha hh hi he)

theorem indexed_succ (op : BitVec 7 → Instr) (a n : Nat) :
    indexed op a (n + 1) = indexed op a n ++ [op (BitVec.ofNat 7 (a + n))] := by
  simp [indexed, List.range_succ]

end Sys2Proof.Machine
end

