-- ==== Sys2Proof/Laws/Schedule.lean ====
section
/-! SUPPORT. The schedule of a block, element by element: the words of a block and the recurrence of R152. -/

namespace Sys2Proof.Machine

/-! ## The words of a block (R75) -/

theorem wordsOf_length (bs : List Byte) : (wordsOf bs).length = bs.length / 4 := by
  induction bs using wordsOf.induct with
  | case1 b0 b1 b2 b3 rest ih => simp only [wordsOf, List.length_cons, ih]; omega
  | case2 bs h =>
    have : bs.length < 4 := by
      match bs, h with
      | [], _ => simp
      | [_], _ => simp
      | [_, _], _ => simp
      | [_, _, _], _ => simp
      | a :: b :: c :: d :: r, h => exact absurd rfl (h a b c d r)
    rw [wordsOf]
    · simp; omega
    · exact h

theorem wordsOf_getElem? {bs : List Byte} {k : Nat} {b0 b1 b2 b3 : Byte} (h0 : bs[4 * k]? = some b0)
    (h1 : bs[4 * k + 1]? = some b1) (h2 : bs[4 * k + 2]? = some b2) (h3 : bs[4 * k + 3]? = some b3) :
    (wordsOf bs)[k]? = some (b0 ++ b1 ++ b2 ++ b3) := by
  induction bs using wordsOf.induct generalizing k with
  | case1 c0 c1 c2 c3 rest ih =>
    cases k with
    | zero => simp at h0 h1 h2 h3; subst h0 h1 h2 h3; simp [wordsOf]
    | succ k =>
      have e : ∀ c, 4 * (k + 1) + c = 4 * k + c + 1 + 1 + 1 + 1 := by omega
      have e0 := e 0
      rw [Nat.add_zero, Nat.add_zero] at e0
      rw [e0] at h0
      rw [e] at h1 h2 h3
      simp only [List.getElem?_cons_succ] at h0 h1 h2 h3
      rw [wordsOf, List.getElem?_cons_succ]
      exact ih h0 h1 h2 h3
  | case2 bs h =>
    match bs, h with
    | [], _ => simp at h3
    | [_], _ => simp at h3
    | [_, _], _ => simp at h3
    | [_, _, _], _ => simp at h3
    | a :: b :: c :: d :: r, h => exact absurd rfl (h a b c d r)

theorem blockOf_length {buf : List Byte} {i : Nat} (h : 64 * (i + 1) ≤ buf.length) : (blockOf buf i).length = 64 := by
  simp [blockOf]; omega

theorem blockOf_getElem? (buf : List Byte) (i : Nat) {k : Nat} (hk : k < 64) :
    (blockOf buf i)[k]? = buf[64 * i + k]? := by
  rw [blockOf, List.getElem?_take_of_lt hk, List.getElem?_drop]

/-- The word WLOAD reads is the word of the block. -/
theorem messageWord_block {buf : List Byte} {i k : Nat} (hk : k < 16) (h : 64 * (i + 1) ≤ buf.length) :
    ∃ x, messageWord buf i k = some x ∧ (wordsOf (blockOf buf i))[k]? = some x := by
  have get : ∀ c, c < 4 → ∃ b, buf[64 * i + 4 * k + c]? = some b := fun c hc =>
    ⟨_, List.getElem?_eq_getElem (by omega)⟩
  obtain ⟨b0, h0⟩ := get 0 (by omega)
  obtain ⟨b1, h1⟩ := get 1 (by omega)
  obtain ⟨b2, h2⟩ := get 2 (by omega)
  obtain ⟨b3, h3⟩ := get 3 (by omega)
  rw [Nat.add_zero] at h0
  refine ⟨_, messageWord_eq h0 h1 h2 h3, wordsOf_getElem? ?_ ?_ ?_ ?_⟩ <;>
    rw [blockOf_getElem? _ _ (by omega)] <;> first | exact h0 | exact h1 | exact h2 | exact h3

/-! ## Expansion (R152) -/

theorem expandBy_length (n : Nat) (ws : List Word) : (expandBy n ws).length = ws.length + n := by
  induction n generalizing ws with
  | zero => rfl
  | succ n ih => rw [expandBy, ih]; simp; omega

/-- Expansion keeps the words it starts from. -/
theorem expandBy_old (n : Nat) (ws : List Word) {k : Nat} (hk : k < ws.length) : (expandBy n ws)[k]? = ws[k]? := by
  induction n generalizing ws with
  | zero => rfl
  | succ n ih => rw [expandBy, ih _ (by simp; omega), List.getElem?_append_left hk]

/-- Each word of an expansion beyond those it starts from is made of five before it. -/
theorem expandBy_new (n : Nat) (ws : List Word) (h16 : 16 ≤ ws.length) {k : Nat} (h1 : ws.length ≤ k)
    (h2 : k < ws.length + n) : (expandBy n ws)[k]? = some (expandWord ((expandBy n ws).getD (k - 16) 0)
      ((expandBy n ws).getD (k - 9) 0) ((expandBy n ws).getD (k - 3) 0) ((expandBy n ws).getD (k - 13) 0)
      ((expandBy n ws).getD (k - 6) 0)) := by
  induction n generalizing ws with
  | zero => omega
  | succ n ih =>
    rcases Nat.eq_or_lt_of_le h1 with rfl | hlt
    · have old : ∀ c, 0 < c → c ≤ 16 →
          (expandBy (n + 1) ws).getD (ws.length - c) 0 = ws.getD (ws.length - c) 0 := fun c h0 hc => by
        rw [List.getD_eq_getElem?_getD, List.getD_eq_getElem?_getD, expandBy_old (n + 1) ws (by omega)]
      rw [old 16 (by omega) (by omega), old 9 (by omega) (by omega), old 3 (by omega) (by omega),
        old 13 (by omega) (by omega), old 6 (by omega) (by omega), expandBy, expandBy_old _ _ (by simp)]
      simp
    · rw [expandBy]
      exact ih _ (by simp; omega) (by simp; omega) (by simp; omega)

/-! ## The schedule of a block -/

variable {block : List Byte}

theorem scheduleW_length (h : block.length = 64) : (scheduleW block).length = 68 := by
  rw [scheduleW, expandBy_length, wordsOf_length, h]

/-- R151: the first sixteen words are the block's. -/
theorem scheduleW_load (h : block.length = 64) {k : Nat} (hk : k < 16) :
    (scheduleW block)[k]? = (wordsOf block)[k]? := by
  rw [scheduleW, expandBy_old]; rw [wordsOf_length, h]; omega

/-- R152: the others follow the recurrence. -/
theorem scheduleW_expand (h : block.length = 64) {k : Nat} (h1 : 16 ≤ k) (h2 : k < 68) :
    (scheduleW block)[k]? = some (expandWord ((scheduleW block).getD (k - 16) 0) ((scheduleW block).getD (k - 9) 0)
      ((scheduleW block).getD (k - 3) 0) ((scheduleW block).getD (k - 13) 0) ((scheduleW block).getD (k - 6) 0)) := by
  have hl : (wordsOf block).length = 16 := by rw [wordsOf_length, h]
  exact expandBy_new 52 _ (by omega) (by omega) (by omega)

@[simp] theorem scheduleWp_length (ws : List Word) : (scheduleWp ws).length = 64 := by simp [scheduleWp]

theorem scheduleWp_getElem? (ws : List Word) {k : Nat} (hk : k < 64) :
    (scheduleWp ws)[k]? = some (xor32 (ws.getD k 0) (ws.getD (k + 4) 0)) := by
  simp [scheduleWp, List.getElem?_range hk]

end Sys2Proof.Machine
end

