-- ==== Sys2Proof/Laws/Stages.lean ====
section
/-! SUPPORT. The stages of a call, each as one run: encoding, padding, the schedule of a block, its compression, formatting.
Each lemma names the state the stage leads to and the operations it issues. -/

namespace Sys2Proof.Machine

variable {s : State}

/-! ## Encoding (R120) -/

/-- Dropping the next unit. -/
theorem drop_eq_cons {text : List CodeUnit} {k : Nat} {u : CodeUnit} {rest : List CodeUnit} (h : text.drop k = u :: rest) :
    text[k]? = some u ∧ text.drop (k + 1) = rest := by
  constructor
  · have := List.getElem?_drop (xs := text) (i := k) (j := 0)
    rw [h, Nat.add_zero] at this; simpa using this.symm
  · rw [← List.drop_drop, h]; rfl

/-- One character encoded, then a run from there. -/
theorem encode_cons {t : State} {i : Instr} {bs : List Byte} {n k : Nat} {ops : List Instr} (ha : s.aluReq = none)
    (hh : s.host = []) (hq : s.seq = ⟨.encode, 0, 0⟩) (hi : select s = .issue i)
    (he : exec i s = .next { s with buf := s.buf ++ bs, tpos := s.tpos + k, seq := ⟨.encode, 0, 0⟩ })
    (h : Goes n { s with buf := s.buf ++ bs, tpos := s.tpos + k } t ops) : Goes (n + 1) s t (i :: ops) := by
  have h1 := (Goes.one ha hh hi (by rw [he, ← hq])).trans h
  rw [Nat.add_comm] at h1
  exact h1

/-- The text encoded from TPOS on, to its end. -/
theorem encode_run {p : SurrogatePolicy} {rest : List CodeUnit} {pos : Nat} {msg : List Byte} (ha : s.aluReq = none)
    (hh : s.host = []) (hq : s.seq = ⟨.encode, 0, 0⟩) (ht : s.tpos = pos) (hr : s.text.drop pos = rest)
    (hl : pos ≤ s.text.length) (hm : encodeFrom p pos rest = .bytes msg) (hpol : s.cfg.policy = p) :
    Goes (encodeOps p rest).length s { s with buf := s.buf ++ msg, tpos := s.text.length } (encodeOps p rest) := by
  induction pos, rest using text_induction p generalizing s msg with
  | nil pos =>
    have e := Encoded.bytes.inj hm
    have : pos = s.text.length := by
      have := congrArg List.length hr; simp at this; omega
    subst this
    rw [← e, List.append_nil, ← ht]
    exact Goes.zero s
  | one pos u rest hc ih =>
    obtain ⟨hu, hd⟩ := drop_eq_cons hr
    rw [encodeFrom_oneByte hc, after_eq_bytes] at hm
    obtain ⟨cs, hm, rfl⟩ := hm
    subst ht
    rw [encodeOps.eq_def]; simp only [hc, List.length_cons]
    refine encode_cons ha hh hq (select_enc1 (by rw [hq]) hu hc) (encodeUnit_next _ hu hc) ?_
    rw [← List.append_assoc]
    exact ih (s := { s with buf := s.buf ++ form1 u.toNat, tpos := s.tpos + 1 }) ha hh hq rfl hd
      (List.getElem?_eq_some_iff.1 hu).1 hm hpol
  | two pos u rest hc ih =>
    obtain ⟨hu, hd⟩ := drop_eq_cons hr
    rw [encodeFrom_twoByte hc, after_eq_bytes] at hm
    obtain ⟨cs, hm, rfl⟩ := hm
    subst ht
    rw [encodeOps.eq_def]; simp only [hc, List.length_cons]
    refine encode_cons ha hh hq (select_enc2 (by rw [hq]) hu hc) (encodeUnit_next _ hu hc) ?_
    rw [← List.append_assoc]
    exact ih (s := { s with buf := s.buf ++ form2 u.toNat, tpos := s.tpos + 1 }) ha hh hq rfl hd
      (List.getElem?_eq_some_iff.1 hu).1 hm hpol
  | three pos u rest hc ih =>
    obtain ⟨hu, hd⟩ := drop_eq_cons hr
    rw [encodeFrom_threeByte hc, after_eq_bytes] at hm
    obtain ⟨cs, hm, rfl⟩ := hm
    subst ht
    rw [encodeOps.eq_def]; simp only [hc, List.length_cons]
    refine encode_cons ha hh hq (select_enc3 (by rw [hq]) hu hc) (encodeUnit_next _ hu hc) ?_
    rw [← List.append_assoc]
    exact ih (s := { s with buf := s.buf ++ form3 u.toNat, tpos := s.tpos + 1 }) ha hh hq rfl hd
      (List.getElem?_eq_some_iff.1 hu).1 hm hpol
  | pair pos u next lo rest hc hlo ih =>
    obtain ⟨hu, hd⟩ := drop_eq_cons hr
    obtain ⟨hn, hd⟩ := drop_eq_cons hd
    rw [encodeFrom_pair hc hlo, after_eq_bytes] at hm
    obtain ⟨cs, hm, rfl⟩ := hm
    subst ht
    have hlo' : pairLow s.cfg.policy u s.text[s.tpos + 1]? = some lo := by rw [hn, hpol]; exact hlo
    rw [encodeOps.eq_def]; simp only [hc, hlo, List.length_cons]
    refine encode_cons ha hh hq (select_enc4 (by rw [hq]) hu hc hlo') (execEnc4_pair hu hc hlo') ?_
    rw [← List.append_assoc]
    exact ih (s := { s with buf := s.buf ++ form4 (pairPoint u lo), tpos := s.tpos + 2 }) ha hh hq rfl hd
      (List.getElem?_eq_some_iff.1 hn).1 hm hpol
  | bad pos u rest hc hlo => rw [encodeFrom_bad hc hlo] at hm; cases hm

/-- The text encoded from TPOS on, up to a unit that starts no admitted pair: there the sequencer raises the fault. -/
theorem encode_run_bad {p : SurrogatePolicy} {rest : List CodeUnit} {pos k : Nat} (ha : s.aluReq = none)
    (hh : s.host = []) (hq : s.seq = ⟨.encode, 0, 0⟩) (ht : s.tpos = pos) (hr : s.text.drop pos = rest)
    (hm : encodeFrom p pos rest = .bad k) (hpol : s.cfg.policy = p) :
    ∃ n bs ops, Goes n s { s with buf := bs, tpos := k } ops ∧
      select { s with buf := bs, tpos := k } = .raise causeEncSurrogate k := by
  induction pos, rest using text_induction p generalizing s with
  | nil pos => cases hm
  | one pos u rest hc ih =>
    obtain ⟨hu, hd⟩ := drop_eq_cons hr
    rw [encodeFrom_oneByte hc, after_eq_bad] at hm
    subst ht
    obtain ⟨n, bs, ops, h, hs⟩ := ih (s := { s with buf := s.buf ++ form1 u.toNat, tpos := s.tpos + 1 }) ha hh hq rfl hd
      hm hpol
    exact ⟨_, bs, _, encode_cons ha hh hq (select_enc1 (by rw [hq]) hu hc) (encodeUnit_next _ hu hc) h, hs⟩
  | two pos u rest hc ih =>
    obtain ⟨hu, hd⟩ := drop_eq_cons hr
    rw [encodeFrom_twoByte hc, after_eq_bad] at hm
    subst ht
    obtain ⟨n, bs, ops, h, hs⟩ := ih (s := { s with buf := s.buf ++ form2 u.toNat, tpos := s.tpos + 1 }) ha hh hq rfl hd
      hm hpol
    exact ⟨_, bs, _, encode_cons ha hh hq (select_enc2 (by rw [hq]) hu hc) (encodeUnit_next _ hu hc) h, hs⟩
  | three pos u rest hc ih =>
    obtain ⟨hu, hd⟩ := drop_eq_cons hr
    rw [encodeFrom_threeByte hc, after_eq_bad] at hm
    subst ht
    obtain ⟨n, bs, ops, h, hs⟩ := ih (s := { s with buf := s.buf ++ form3 u.toNat, tpos := s.tpos + 1 }) ha hh hq rfl hd
      hm hpol
    exact ⟨_, bs, _, encode_cons ha hh hq (select_enc3 (by rw [hq]) hu hc) (encodeUnit_next _ hu hc) h, hs⟩
  | pair pos u next lo rest hc hlo ih =>
    obtain ⟨hu, hd⟩ := drop_eq_cons hr
    obtain ⟨hn, hd⟩ := drop_eq_cons hd
    rw [encodeFrom_pair hc hlo, after_eq_bad] at hm
    subst ht
    have hlo' : pairLow s.cfg.policy u s.text[s.tpos + 1]? = some lo := by rw [hn, hpol]; exact hlo
    obtain ⟨n, bs, ops, h, hs⟩ := ih (s := { s with buf := s.buf ++ form4 (pairPoint u lo), tpos := s.tpos + 2 }) ha hh hq
      rfl hd hm hpol
    exact ⟨_, bs, _, encode_cons ha hh hq (select_enc4 (by rw [hq]) hu hc hlo') (execEnc4_pair hu hc hlo') h, hs⟩
  | bad pos u rest hc hlo =>
    obtain ⟨hu, hd⟩ := drop_eq_cons hr
    rw [encodeFrom_bad hc hlo] at hm
    obtain rfl := Encoded.bad.inj hm
    subst ht
    have hn : s.text[s.tpos + 1]? = rest[0]? := by
      rw [← hd, List.getElem?_drop]
    refine ⟨0, s.buf, [], Goes.zero s, select_raise (by rw [hq]) hu hc ?_⟩
    rw [hn, hpol]; exact hlo

/-! ## Padding (R140) -/

/-- Zero bytes, `k` of them, up to where PADLEN is due. -/
theorem padz_run (k : Nat) (ha : s.aluReq = none) (hh : s.host = []) (hq : s.seq = ⟨.pad, 1, 0⟩) (hk : k ≤ 63)
    (hm : (s.buf.length + k) % 64 = 56) :
    Goes k s { s with buf := s.buf ++ List.replicate k 0x00 } (List.replicate k .padz) := by
  induction k generalizing s with
  | zero => rw [List.replicate_zero, List.append_nil]; exact Goes.zero s
  | succ k ih =>
    have hne : s.buf.length % 64 ≠ 56 := by omega
    have h1 := Goes.one ha hh (select_padz (by rw [hq]) (by rw [hq]) hne) (execPadz_next hne)
    rw [← hq] at h1
    have h2 := ih (s := { s with buf := s.buf ++ [0x00] }) ha hh hq (by omega) (by simp; omega)
    have h3 := h1.trans h2
    rw [Nat.add_comm, List.append_assoc] at h3
    exact h3

/-- The whole padding stage. -/
theorem pad_run (ha : s.aluReq = none) (hh : s.host = []) (hq : s.seq = ⟨.pad, 0, 0⟩) (hl : s.len = s.buf.length) :
    Goes (2 + zeroCount s.len) s
      { s with
        buf := s.buf ++ padding s.len, nblk := (s.buf ++ padding s.len).length / 64, blk := 0, seq := ⟨.sched, 0, 0⟩ }
      (padOps s.len) := by
  have hz : zeroCount s.len = (119 - s.len % 64) % 64 := rfl
  have h1 := Goes.one ha hh (select_pad80 (by rw [hq]) (by rw [hq])) (show exec .pad80 s = _ from rfl)
  have h2 := padz_run (s := (s.append [0x80]).moveTo ⟨.pad, 1, 0⟩) (zeroCount s.len) ha hh rfl (by omega)
    (by simp; omega)
  have hm : (s.buf ++ [0x80] ++ List.replicate (zeroCount s.len) 0x00).length % 64 = 56 := by simp; omega
  have h3 := Goes.one (s := { (s.append [0x80]).moveTo ⟨.pad, 1, 0⟩ with
    buf := s.buf ++ [0x80] ++ List.replicate (zeroCount s.len) 0x00 }) ha hh (select_padlen rfl rfl hm) (execPadlen_next hm)
  have h4 := (h1.trans h2).trans h3
  have e1 : s.buf ++ [0x80] ++ List.replicate (zeroCount s.len) 0x00 ++ lengthField s.len = s.buf ++ padding s.len := by
    simp [padding]
  have e2 : ((s.buf ++ [0x80] ++ List.replicate (zeroCount s.len) 0x00).length + 8) / 64 =
      (s.buf ++ padding s.len).length / 64 := by
    rw [← e1, List.length_append (bs := lengthField s.len), lengthField_length]
  have e3 : 1 + zeroCount s.len + 1 = 2 + zeroCount s.len := by omega
  simp only [moveTo_len, append_len] at h4
  rw [e1, e2, e3] at h4
  exact h4

/-! ## The schedule of a block (R150) -/

/-- A write extends what is known of a vector by one element. -/
theorem known_succ {n j : Nat} {v : Vector Word n} {ws : List Word} {x : Word} (hj : j < n)
    (h : ∀ k, k < j → v[k]? = ws[k]?) (hx : ws[j]? = some x) :
    ∀ k, k < j + 1 → (v.setIfInBounds j x)[k]? = ws[k]? := by
  intro k hk
  rw [Vector.getElem?_setIfInBounds]
  by_cases hkj : j = k
  · subst hkj; rw [if_pos rfl, if_pos hj, hx]
  · rw [if_neg hkj]; exact h k (by omega)

/-- An element of a vector that is known from a list. -/
theorem known_getD {n j : Nat} {v : Vector Word n} {ws : List Word} (hj : j < n) (h : v[j]? = ws[j]?) :
    v[j] = ws.getD j 0 := by
  rw [Vector.getElem?_eq_getElem hj] at h
  rw [List.getD_eq_getElem?_getD, ← h]; rfl

/-- WLOAD 0..15. -/
theorem wload_run {block : List Byte} (hb : block = blockOf s.buf s.blk) (hl : 64 * (s.blk + 1) ≤ s.buf.length)
    (ha : s.aluReq = none) (hh : s.host = []) (hq : s.seq = ⟨.sched, 0, 0⟩) (j : Nat) (hj : j ≤ 16) :
    ∃ w : Vector Word 68, (∀ k, k < j → w[k]? = (scheduleW block)[k]?) ∧
      Goes j s { s with w := w, seq := if j < 16 then ⟨.sched, 0, j⟩ else ⟨.sched, 1, 16⟩ } (indexed .wload 0 j) := by
  induction j with
  | zero =>
    refine ⟨s.w, fun k hk => absurd hk (Nat.not_lt_zero k), ?_⟩
    rw [if_pos (by decide), ← hq]; exact Goes.zero s
  | succ j ih =>
    obtain ⟨w, hw, hg⟩ := ih (by omega)
    rw [if_pos (by omega)] at hg
    have hblk : block.length = 64 := by rw [hb]; exact blockOf_length hl
    obtain ⟨x, hx, hx'⟩ := messageWord_block (k := j) (by omega) hl
    rw [← hb, ← scheduleW_load hblk (by omega)] at hx'
    have hn : (BitVec.ofNat 7 j).toNat = j := by simp; omega
    have hsel : select { s with w := w, seq := ⟨.sched, 0, j⟩ } = .issue (.wload (BitVec.ofNat 7 j)) :=
      select_wload rfl rfl (show j ≤ 15 by omega)
    have hex := execWload_next (s := { s with w := w, seq := ⟨.sched, 0, j⟩ }) (j := BitVec.ofNat 7 j) (x := x)
      (by rw [hn]; omega) (by rw [hn]; exact hx)
    rw [hn] at hex
    refine ⟨w.setIfInBounds j x, known_succ (by omega) hw hx', ?_⟩
    have hs : seqAfterWload j = if j + 1 < 16 then ⟨.sched, 0, j + 1⟩ else ⟨.sched, 1, 16⟩ := by
      unfold seqAfterWload
      by_cases h : j < 15
      · rw [if_pos h, if_pos (by omega)]
      · rw [if_neg h, if_neg (by omega)]
    rw [indexed_succ, Nat.zero_add, ← hs]
    exact hg.snoc ha hh hsel hex

/-- WEXP 16..67. -/
theorem wexp_run {block : List Byte} (hblk : block.length = 64) (hw0 : ∀ k, k < 16 → s.w[k]? = (scheduleW block)[k]?)
    (ha : s.aluReq = none) (hh : s.host = []) (hq : s.seq = ⟨.sched, 1, 16⟩) (j : Nat) (hj : j ≤ 52) :
    ∃ w : Vector Word 68, (∀ k, k < 16 + j → w[k]? = (scheduleW block)[k]?) ∧
      Goes j s { s with w := w, seq := if j < 52 then ⟨.sched, 1, 16 + j⟩ else ⟨.sched, 2, 0⟩ } (indexed .wexp 16 j) := by
  induction j with
  | zero =>
    refine ⟨s.w, hw0, ?_⟩
    rw [if_pos (by decide), ← hq]; exact Goes.zero s
  | succ j ih =>
    obtain ⟨w, hw, hg⟩ := ih (by omega)
    rw [if_pos (by omega)] at hg
    have hn : (BitVec.ofNat 7 (16 + j)).toNat = 16 + j := by simp; omega
    have hr : 16 ≤ (BitVec.ofNat 7 (16 + j)).toNat ∧ (BitVec.ofNat 7 (16 + j)).toNat ≤ 67 := by omega
    have hsel : select { s with w := w, seq := ⟨.sched, 1, 16 + j⟩ } = .issue (.wexp (BitVec.ofNat 7 (16 + j))) :=
      select_wexp rfl rfl (show 16 ≤ 16 + j ∧ 16 + j ≤ 67 by omega)
    have hex := execWexp_next (s := { s with w := w, seq := ⟨.sched, 1, 16 + j⟩ }) hr
    have known : ∀ c (hc : 0 < c ∧ c ≤ 16), w[(BitVec.ofNat 7 (16 + j)).toNat - c]'(by omega) =
        (scheduleW block).getD (16 + j - c) 0 := fun c hc => by
      rw [← known_getD (by omega) (hw (16 + j - c) (by omega))]
      simp only [hn]
    rw [known 16 (by omega), known 9 (by omega), known 3 (by omega), known 13 (by omega), known 6 (by omega), hn] at hex
    refine ⟨_, known_succ (j := 16 + j) (by omega) hw (scheduleW_expand hblk (by omega) (by omega)), ?_⟩
    have hs : seqAfterWexp (16 + j) = if j + 1 < 52 then ⟨.sched, 1, 16 + (j + 1)⟩ else ⟨.sched, 2, 0⟩ := by
      unfold seqAfterWexp
      by_cases h : 16 + j < 67
      · rw [if_pos h, if_pos (by omega)]; rfl
      · rw [if_neg h, if_neg (by omega)]
    rw [indexed_succ, ← hs]
    exact hg.snoc ha hh hsel hex

/-- WPRIME 0..63. -/
theorem wprime_run {ws : List Word} (hw : ∀ k, k < 68 → s.w[k]? = ws[k]?) (ha : s.aluReq = none) (hh : s.host = [])
    (hq : s.seq = ⟨.sched, 2, 0⟩) (j : Nat) (hj : j ≤ 64) :
    ∃ wp : Vector Word 64, (∀ k, k < j → wp[k]? = (scheduleWp ws)[k]?) ∧
      Goes j s { s with wp := wp, seq := if j < 64 then ⟨.sched, 2, j⟩ else ⟨.compress, 0, 0⟩ }
        (indexed .wprime 0 j) := by
  induction j with
  | zero =>
    refine ⟨s.wp, fun k hk => absurd hk (Nat.not_lt_zero k), ?_⟩
    rw [if_pos (by decide), ← hq]; exact Goes.zero s
  | succ j ih =>
    obtain ⟨wp, hwp, hg⟩ := ih (by omega)
    rw [if_pos (by omega)] at hg
    have hn : (BitVec.ofNat 7 j).toNat = j := by simp; omega
    have hr : (BitVec.ofNat 7 j).toNat ≤ 63 := by omega
    have hsel : select { s with wp := wp, seq := ⟨.sched, 2, j⟩ } = .issue (.wprime (BitVec.ofNat 7 j)) :=
      select_wprime rfl rfl (show j ≤ 63 by omega)
    have hex := execWprime_next (s := { s with wp := wp, seq := ⟨.sched, 2, j⟩ }) hr
    have e1 : s.w[(BitVec.ofNat 7 j).toNat] = ws.getD j 0 := by
      rw [← known_getD (by omega) (hw j (by omega))]; simp only [hn]
    have e2 : s.w[(BitVec.ofNat 7 j).toNat + 4] = ws.getD (j + 4) 0 := by
      rw [← known_getD (by omega) (hw (j + 4) (by omega))]; simp only [hn]
    rw [e1, e2, hn] at hex
    refine ⟨_, known_succ (by omega) hwp (scheduleWp_getElem? ws (by omega)), ?_⟩
    have hs : seqAfterWprime j = if j + 1 < 64 then ⟨.sched, 2, j + 1⟩ else ⟨.compress, 0, 0⟩ := by
      unfold seqAfterWprime
      by_cases h : j < 63
      · rw [if_pos h, if_pos (by omega)]
      · rw [if_neg h, if_neg (by omega)]
    rw [indexed_succ, Nat.zero_add, ← hs]
    exact hg.snoc ha hh hsel hex

/-- The whole schedule of block BLK. -/
theorem schedule_run {block : List Byte} (hb : block = blockOf s.buf s.blk) (hl : 64 * (s.blk + 1) ≤ s.buf.length)
    (ha : s.aluReq = none) (hh : s.host = []) (hq : s.seq = ⟨.sched, 0, 0⟩) :
    ∃ (w : Vector Word 68) (wp : Vector Word 64), (∀ k, k < 68 → w[k]? = (scheduleW block)[k]?) ∧
      (∀ k, k < 64 → wp[k]? = (scheduleWp (scheduleW block))[k]?) ∧
      Goes 132 s { s with w := w, wp := wp, seq := ⟨.compress, 0, 0⟩ } scheduleOps := by
  have hblk : block.length = 64 := by rw [hb]; exact blockOf_length hl
  obtain ⟨w1, k1, g1⟩ := wload_run hb hl ha hh hq 16 (by omega)
  rw [if_neg (by decide)] at g1
  obtain ⟨w2, k2, g2⟩ := wexp_run (s := { s with w := w1, seq := ⟨.sched, 1, 16⟩ }) hblk k1 ha hh rfl 52 (by omega)
  rw [if_neg (by decide)] at g2
  obtain ⟨wp, k3, g3⟩ := wprime_run (s := { s with w := w2, seq := ⟨.sched, 2, 0⟩ }) k2 ha hh rfl 64 (by omega)
  rw [if_neg (by decide)] at g3
  exact ⟨w2, wp, k2, k3, (g1.trans g2).trans g3⟩

/-! ## The compression of a block (R160) -/

/-- The operation of round `j` (R162). -/
def roundOp (j : Nat) : Instr := if j ≤ 15 then .roundl (BitVec.ofNat 7 j) else .roundh (BitVec.ofNat 7 j)

theorem rounds_ops : (List.range 64).map roundOp = indexed .roundl 0 16 ++ indexed .roundh 16 48 := by decide

/-- ROUNDL 0..15, ROUNDH 16..63. -/
theorem rounds_run {ws wps : List Word} (hw : ∀ k, k < 68 → s.w[k]? = ws[k]?) (hwp : ∀ k, k < 64 → s.wp[k]? = wps[k]?)
    (ha : s.aluReq = none) (hh : s.host = []) (hq : s.seq = ⟨.compress, 1, 0⟩) (j : Nat) (hj : j ≤ 64) :
    Goes j s
      { s with
        work := (List.range j).foldl (roundAt ws wps) s.work
        seq := if j < 64 then ⟨.compress, 1, j⟩ else ⟨.compress, 2, 0⟩ }
      ((List.range j).map roundOp) := by
  induction j with
  | zero => rw [if_pos (by decide), ← hq]; exact Goes.zero s
  | succ j ih =>
    have hg := ih (by omega)
    rw [if_pos (by omega)] at hg
    have hn : (BitVec.ofNat 7 j).toNat = j := by simp; omega
    have hs : seqAfterRound j = if j + 1 < 64 then ⟨.compress, 1, j + 1⟩ else ⟨.compress, 2, 0⟩ := by
      unfold seqAfterRound
      by_cases h : j < 63
      · rw [if_pos h, if_pos (by omega)]
      · rw [if_neg h, if_neg (by omega)]
    have e1 : ∀ h, s.w[(BitVec.ofNat 7 j).toNat]'h = ws.getD j 0 := fun h => by
      rw [← known_getD (by omega) (hw j (by omega))]; simp only [hn]
    have e2 : ∀ h, s.wp[(BitVec.ofNat 7 j).toNat]'h = wps.getD j 0 := fun h => by
      rw [← known_getD (by omega) (hwp j (by omega))]; simp only [hn]
    rw [List.range_succ, List.map_append, List.foldl_append, ← hs]
    refine hg.snoc ha hh (i := roundOp j) ?_ ?_
    · unfold roundOp
      split
      · next h => exact select_roundl rfl rfl h
      · next h => exact select_roundh rfl rfl ⟨by simp only []; omega, by simp only []; omega⟩
    · unfold roundOp
      split
      · next h =>
        rw [show ∀ i s, exec (.roundl i) s = execRoundl i s from fun _ _ => rfl, execRoundl_next (by omega), e1, e2, hn]
        rfl
      · next h =>
        rw [show ∀ i s, exec (.roundh i) s = execRoundh i s from fun _ _ => rfl, execRoundh_next (by omega), e1, e2, hn]
        rfl

/-- The whole compression of block BLK. -/
theorem compress_run {ws wps : List Word} (hw : ∀ k, k < 68 → s.w[k]? = ws[k]?)
    (hwp : ∀ k, k < 64 → s.wp[k]? = wps[k]?) (ha : s.aluReq = none) (hh : s.host = [])
    (hq : s.seq = ⟨.compress, 0, 0⟩) (hb : s.blk + 1 ≤ s.nblk) :
    ∃ r : Work, Goes 66 s
      { s with
        work := r, v := compress s.v ws wps, blk := s.blk + 1
        seq := if s.blk + 1 < s.nblk then ⟨.sched, 0, 0⟩ else ⟨.format, 0, 0⟩ } compressOps := by
  have g1 := Goes.one ha hh (select_cinit (by rw [hq]) (by rw [hq])) (show exec .cinit s = _ from rfl)
  have g2 := rounds_run (s := (s.setWork (workOf s.v)).moveTo ⟨.compress, 1, 0⟩) hw hwp ha hh rfl 64 (by omega)
  rw [if_neg (by decide), rounds_ops] at g2
  have g3 := Goes.one (s := { (s.setWork (workOf s.v)).moveTo ⟨.compress, 1, 0⟩ with
    work := (List.range 64).foldl (roundAt ws wps) (workOf s.v), seq := ⟨.compress, 2, 0⟩ }) ha hh
    (select_cfeed rfl rfl) (execCfeed_next hb)
  exact ⟨_, (g1.trans g2).trans g3⟩

/-- One block: its schedule and its compression. -/
theorem block_run (hl : 64 * (s.blk + 1) ≤ s.buf.length) (ha : s.aluReq = none) (hh : s.host = [])
    (hq : s.seq = ⟨.sched, 0, 0⟩) (hb : s.blk + 1 ≤ s.nblk) :
    ∃ (w : Vector Word 68) (wp : Vector Word 64) (r : Work), Goes 198 s
      { s with
        w := w, wp := wp, work := r, v := compressBlock s.buf s.v s.blk, blk := s.blk + 1
        seq := if s.blk + 1 < s.nblk then ⟨.sched, 0, 0⟩ else ⟨.format, 0, 0⟩ } blockOps := by
  obtain ⟨w, wp, h1, h2, g1⟩ := schedule_run rfl hl ha hh hq
  obtain ⟨r, g2⟩ := compress_run (s := { s with w := w, wp := wp, seq := ⟨.compress, 0, 0⟩ }) h1 h2 ha hh rfl hb
  exact ⟨w, wp, r, g1.trans g2⟩

/-- The blocks from BLK on, `n` of them to the last. -/
theorem blocks_run (n : Nat) (hn : s.blk + (n + 1) = s.nblk) (hl : s.buf.length = 64 * s.nblk) (ha : s.aluReq = none)
    (hh : s.host = []) (hq : s.seq = ⟨.sched, 0, 0⟩) :
    ∃ (w : Vector Word 68) (wp : Vector Word 64) (r : Work), Goes (198 * (n + 1)) s
      { s with
        w := w, wp := wp, work := r
        v := (List.range' s.blk (n + 1)).foldl (compressBlock s.buf) s.v, blk := s.nblk, seq := ⟨.format, 0, 0⟩ }
      (List.replicate (n + 1) blockOps).flatten := by
  induction n generalizing s with
  | zero =>
    obtain ⟨w, wp, r, g⟩ := block_run (by omega) ha hh hq (by omega)
    rw [if_neg (by omega), show s.blk + 1 = s.nblk from hn] at g
    exact ⟨w, wp, r, by simpa using g⟩
  | succ n ih =>
    obtain ⟨w, wp, r, g⟩ := block_run (by omega) ha hh hq (by omega)
    rw [if_pos (by omega)] at g
    obtain ⟨w', wp', r', g'⟩ := ih (s := { s with
      w := w, wp := wp, work := r, v := compressBlock s.buf s.v s.blk, blk := s.blk + 1, seq := ⟨.sched, 0, 0⟩ })
      (by simp only []; omega) hl ha hh rfl
    have g3 := g.trans g'
    rw [show 198 + 198 * (n + 1) = 198 * (n + 1 + 1) by omega] at g3
    refine ⟨w', wp', r', ?_⟩
    rw [List.range'_succ, List.foldl_cons, List.replicate_succ, List.flatten_cons]
    exact g3

/-! ## Formatting (R180) -/

/-- DSER, DHEX, FINISH. -/
theorem format_run (ha : s.aluReq = none) (hh : s.host = []) (hq : s.seq = ⟨.format, 0, 0⟩) :
    ∃ t, Goes 3 s t formatOps ∧ t.seq.phase = .done ∧ t.done = true ∧ t.digest.readBytes 0 32 = some (digestOf s.v) ∧
      t.hex.readBytes 0 64 = some (hexImage (digestOf s.v)) := by
  have r1 := readBytes_writeBytes s.digest 0 (digestOf s.v)
  rw [digestOf_length] at r1
  have r2 := readBytes_writeBytes s.hex 0 (hexImage (digestOf s.v))
  rw [hexImage_length, digestOf_length] at r2
  have g1 := Goes.one ha hh (select_dser (by rw [hq]) (by rw [hq])) (execDser_next s)
  have g2 := Goes.one (s := { s with digest := s.digest.writeBytes 0 (digestOf s.v), seq := ⟨.format, 1, 0⟩ }) ha hh
    (select_dhex rfl rfl) (execDhex_next r1)
  have g3 := Goes.one (s := { s with
    digest := s.digest.writeBytes 0 (digestOf s.v), hex := s.hex.writeBytes 0 (hexImage (digestOf s.v))
    seq := ⟨.format, 2, 0⟩ }) ha hh (select_finish rfl rfl) (show exec .finish _ = _ from rfl)
  exact ⟨_, (g1.trans g2).trans g3, rfl, rfl, r1, r2⟩

end Sys2Proof.Machine
end

