-- ==== Sys2Proof/Tests/Slice0.lean ====
section
/-! SUPPORT. The model's own tests: what well-formedness refuses, every operation decoded from a word written out bit by
bit, single steps against the values of the spec, and for every statement a state and operands that meet its hypotheses.
Expected values come from the rules' worked examples and from `95_test_vectors.md`, named at each test. -/

namespace Sys2Proof.Tests

open Sys2Proof Sys2Proof.Machine

/-! ## Helpers -/

/-- What a next state holds, or nothing after a stop. -/
def after {α : Type} (f : State → α) : Host.Outcome State Fault Refusal → Option α
  | .next t => some (f t)
  | _ => none

/-- The name of a refusal, if the step was refused. -/
def refusal : Host.Outcome State Fault Refusal → Option Refusal
  | .refused r => some r
  | _ => none

/-- A state in ENCODE, inside a call. -/
def encoding (policy : SurrogatePolicy) (text : List CodeUnit) : State :=
  { State.reset with
    cfg := { Config.standard with policy := policy }, v := defaultIV, text := text, seq := ⟨.encode, 0, 0⟩, busy := true }

/-- A state with the sequencer at `q` and a padded one-block buffer: `abc` (V-SCH-1). -/
def inBlock (q : Seq) : State :=
  { State.reset with
    v := defaultIV, text := [0x61, 0x62, 0x63], tpos := 3, len := 3, nblk := 1, seq := q, busy := true
    buf := [0x61, 0x62, 0x63, 0x80] ++ List.replicate 59 0 ++ [0x18] }

/-- A state of FORMAT after the last block. -/
def formatting (sub : Nat) : State := { inBlock ⟨.format, sub, 0⟩ with blk := 1 }

/-- A byte space holding the given bytes from index 0. -/
def holding (bs : List Byte) : Memory := Memory.writeBytes [] 0 bs

/-- A state in DONE. -/
def finished : State :=
  { State.reset with
    seq := ⟨.done, 2, 0⟩, done := true, digest := holding (List.replicate 32 0xAF)
    hex := holding (hexImage (List.replicate 32 0xAF)) }

/-! ## Well-formedness refuses an index outside R80's range, at each end -/

theorem test_wload_16_ill_formed : (Instr.wload 16).wellFormed = false := by decide
theorem test_wexp_15_ill_formed : (Instr.wexp 15).wellFormed = false := by decide
theorem test_wexp_68_ill_formed : (Instr.wexp 68).wellFormed = false := by decide
theorem test_wprime_64_ill_formed : (Instr.wprime 64).wellFormed = false := by decide
theorem test_roundl_16_ill_formed : (Instr.roundl 16).wellFormed = false := by decide
theorem test_roundh_15_ill_formed : (Instr.roundh 15).wellFormed = false := by decide
theorem test_roundh_64_ill_formed : (Instr.roundh 64).wellFormed = false := by decide

/-! ## Decoding: R80's columns "SCW pattern" and "fn", written out bit by bit -/

theorem test_decode_start : decode (.seq 0b00001_0000000) = .instr .start := by decide
theorem test_decode_enc1 : decode (.seq 0b00010_0000000) = .instr .enc1 := by decide
theorem test_decode_enc2 : decode (.seq 0b00011_0000000) = .instr .enc2 := by decide
theorem test_decode_enc3 : decode (.seq 0b00100_0000000) = .instr .enc3 := by decide
theorem test_decode_enc4 : decode (.seq 0b00101_0000000) = .instr .enc4 := by decide
theorem test_decode_encend : decode (.seq 0b00110_0000000) = .instr .encend := by decide
theorem test_decode_pad80 : decode (.seq 0b00111_0000000) = .instr .pad80 := by decide
theorem test_decode_padz : decode (.seq 0b01000_0000000) = .instr .padz := by decide
theorem test_decode_padlen : decode (.seq 0b01001_0000000) = .instr .padlen := by decide
theorem test_decode_wload : decode (.seq 0b01010_0001111) = .instr (.wload 15) := by decide
theorem test_decode_wexp : decode (.seq 0b01011_1000011) = .instr (.wexp 67) := by decide
theorem test_decode_wprime : decode (.seq 0b01100_0111111) = .instr (.wprime 63) := by decide
theorem test_decode_cinit : decode (.seq 0b01101_0000000) = .instr .cinit := by decide
theorem test_decode_roundl : decode (.seq 0b01110_0000001) = .instr (.roundl 1) := by decide
theorem test_decode_roundh : decode (.seq 0b01111_0010000) = .instr (.roundh 16) := by decide
theorem test_decode_cfeed : decode (.seq 0b10000_0000000) = .instr .cfeed := by decide
theorem test_decode_dser : decode (.seq 0b10001_0000000) = .instr .dser := by decide
theorem test_decode_dhex : decode (.seq 0b10010_0000000) = .instr .dhex := by decide
theorem test_decode_finish : decode (.seq 0b10011_0000000) = .instr .finish := by decide
theorem test_decode_add32 : decode (.alu ⟨0b0000, 1, 2, 3, 4, 5⟩) = .instr (.add32 1 2) := by decide
theorem test_decode_xor32 : decode (.alu ⟨0b0001, 1, 2, 3, 4, 5⟩) = .instr (.xor32 1 2) := by decide
theorem test_decode_and32 : decode (.alu ⟨0b0010, 1, 2, 3, 4, 5⟩) = .instr (.and32 1 2) := by decide
theorem test_decode_or32 : decode (.alu ⟨0b0011, 1, 2, 3, 4, 5⟩) = .instr (.or32 1 2) := by decide
theorem test_decode_not32 : decode (.alu ⟨0b0100, 1, 2, 3, 4, 5⟩) = .instr (.not32 1) := by decide
theorem test_decode_rotl32 : decode (.alu ⟨0b0101, 1, 2, 3, 4, 5⟩) = .instr (.rotl32 1 4) := by decide
theorem test_decode_p0 : decode (.alu ⟨0b0110, 1, 2, 3, 4, 5⟩) = .instr (.p0 1) := by decide
theorem test_decode_p1 : decode (.alu ⟨0b0111, 1, 2, 3, 4, 5⟩) = .instr (.p1 1) := by decide
theorem test_decode_ff0 : decode (.alu ⟨0b1000, 1, 2, 3, 4, 5⟩) = .instr (.ff0 1 2 3) := by decide
theorem test_decode_ff1 : decode (.alu ⟨0b1001, 1, 2, 3, 4, 5⟩) = .instr (.ff1 1 2 3) := by decide
theorem test_decode_gg0 : decode (.alu ⟨0b1010, 1, 2, 3, 4, 5⟩) = .instr (.gg0 1 2 3) := by decide
theorem test_decode_gg1 : decode (.alu ⟨0b1011, 1, 2, 3, 4, 5⟩) = .instr (.gg1 1 2 3) := by decide
theorem test_decode_tj : decode (.alu ⟨0b1100, 1, 2, 3, 4, 5⟩) = .instr (.tj 5) := by decide

/-- R82: reserved `op` 0x00, 0x14 and 0x1F. -/
theorem test_reserved_op : decode (.seq 0b00000_0000000) = .rejected (.reservedOp 0) ∧
    decode (.seq 0b10100_0000000) = .rejected (.reservedOp 0x14) ∧
    decode (.seq 0b11111_1111111) = .rejected (.reservedOp 0x1F) := by decide

/-- R82: an index outside its range, and an index on an operation without one. -/
theorem test_reserved_idx : decode (.seq 0b01010_0010000) = .rejected (.reservedIdx 0x0A 16) ∧
    decode (.seq 0b01011_0001111) = .rejected (.reservedIdx 0x0B 15) ∧
    decode (.seq 0b01111_0000000) = .rejected (.reservedIdx 0x0F 0) ∧
    decode (.seq 0b00111_0000001) = .rejected (.reservedIdx 0x07 1) := by decide

/-- R82: reserved `fn`. -/
theorem test_reserved_fn : decode (.alu ⟨0b1101, 0, 0, 0, 0, 0⟩) = .rejected (.reservedFn 0xD) := by decide

/-- The opcode table's rows through `decodeTableWord`: a format ALU row of 8 bits, a format SEQ row of 16. -/
theorem test_table_words : decodeTableWord 8 0x6 = some (.p0 0) ∧ decodeTableWord 16 0x5C3 = some (.wexp 67) ∧
    decodeTableWord 16 0x580 = none ∧ decodeTableWord 16 0x1080 = none := by decide

/-! ## ALU functions: V-ALU-1 to V-ALU-5 and the worked values of R113 -/

theorem test_add32 : after (·.aluOut) (exec (.add32 0x80000000 0x80000000) .reset) = some 0 ∧
    after (·.aluOut) (exec (.add32 0xAAD627F4 0x79CC4519) .reset) = some 0x24A26D0D := by decide
theorem test_xor32 : after (·.aluOut) (exec (.xor32 0x7380166F 0x4914B2B9) .reset) = some 0x3A94A4D6 := by decide
theorem test_and32 : after (·.aluOut) (exec (.and32 0x7380166F 0x4914B2B9) .reset) = some 0x41001229 := by decide
theorem test_or32 : after (·.aluOut) (exec (.or32 0x7380166F 0x4914B2B9) .reset) = some 0x7B94B6FF := by decide
theorem test_not32 : after (·.aluOut) (exec (.not32 0x7380166F) .reset) = some 0x8C7FE990 := by decide
theorem test_rotl32 : after (·.aluOut) (exec (.rotl32 0x12345678 31) .reset) = some 0x091A2B3C ∧
    after (·.aluOut) (exec (.rotl32 0x12345678 0) .reset) = some 0x12345678 := by decide
theorem test_rotl_36 : rotl 0x12345678 36 = 0x23456781 := by decide
theorem test_p0 : after (·.aluOut) (exec (.p0 0xC067DEBB) .reset) = some 0xB2AD29F4 := by decide
theorem test_p1 : after (·.aluOut) (exec (.p1 0x12345678) .reset) = some 0x05014549 := by decide
theorem test_ff0 : after (·.aluOut) (exec (.ff0 0xA96F30BC 0x163138AA 0xE38DEE4D) .reset) = some 0x5CD3E65B := by decide
theorem test_ff1 : after (·.aluOut) (exec (.ff1 0xA96F30BC 0x163138AA 0xE38DEE4D) .reset) = some 0xA32D38AC := by decide
theorem test_gg0 : after (·.aluOut) (exec (.gg0 0x7380166F 0x4914B2B9 0x172442D7) .reset) = some 0x2DB0E601 := by decide
theorem test_gg1 : after (·.aluOut) (exec (.gg1 0xA96F30BC 0x163138AA 0xE38DEE4D) .reset) = some 0x42A1FEE9 := by decide
theorem test_tj : after (·.aluOut) (exec (.tj 15) .reset) = some 0x79CC4519 ∧
    after (·.aluOut) (exec (.tj 16) .reset) = some 0x7A879D8A := by decide
/-- R113's worked values: the constant as a round uses it. -/
theorem test_rotated_constants : rotl (tConst 1) 1 = 0xF3988A32 ∧ rotl (tConst 16) 16 = 0x9D8A7A87 ∧
    rotl (tConst 33) 1 = 0xF50F3B14 := by decide

/-! ## The encoder: the corner cases of R121 to R127 -/

theorem test_enc1 : after (·.buf) (exec .enc1 (encoding .strict [0x0000])) = some [0x00] ∧
    after (·.tpos) (exec .enc1 (encoding .strict [0x007F])) = some 1 := by decide
theorem test_enc2 : after (·.buf) (exec .enc2 (encoding .strict [0x0080])) = some [0xC2, 0x80] ∧
    after (·.buf) (exec .enc2 (encoding .strict [0x00E9])) = some [0xC3, 0xA9] := by decide
theorem test_enc3 : after (·.buf) (exec .enc3 (encoding .strict [0x20AC])) = some [0xE2, 0x82, 0xAC] ∧
    after (·.buf) (exec .enc3 (encoding .strict [0xE000])) = some [0xEE, 0x80, 0x80] := by decide
theorem test_enc4 : after (·.buf) (exec .enc4 (encoding .strict [0xD83D, 0xDE00])) = some [0xF0, 0x9F, 0x98, 0x80] ∧
    after (·.buf) (exec .enc4 (encoding .blind [0xDE00, 0xD83D])) = some [0xF2, 0x90, 0x80, 0xBD] := by decide
/-- R126 worked: TEXT = (0x0061, 0xD800) faults with FINFO = 1, here from TPOS = 1. -/
theorem test_enc4_raises :
    after (fun t => (t.cause, t.finfo, t.status)) (exec .enc4 { encoding .strict [0x61, 0xD800] with tpos := 1 }) =
      some (1, 1, 0b100) := by decide
theorem test_encend : after (fun t => (t.len, t.seq)) (exec .encend
    { encoding .strict [0x61, 0x62, 0x63] with tpos := 3, buf := [0x61, 0x62, 0x63] }) = some (3, ⟨.pad, 0, 0⟩) := by decide
/-- R125: a buffer longer than MAX_LEN, here 2. -/
theorem test_encend_raises : after (fun t => (t.cause, t.finfo, t.len)) (exec .encend
    { encoding .strict [] with cfg := { Config.standard with maxLen := 2 }, buf := [0, 0, 0] }) = some (2, 3, 0) := by decide

/-! ## Padding: the worked values of R141 to R143 -/

theorem test_pad80 : after (·.buf) (exec .pad80 { State.reset with buf := [0x61, 0x62, 0x63] }) =
    some [0x61, 0x62, 0x63, 0x80] := by decide
theorem test_padz : after (·.buf) (exec .padz { State.reset with buf := [0x80] }) = some [0x80, 0x00] := by decide
theorem test_padlen : after (fun t => (t.buf.drop 56, t.nblk, t.blk, t.seq))
    (exec .padlen { State.reset with buf := List.replicate 56 0, len := 64 }) =
      some ([0, 0, 0, 0, 0, 0, 0x02, 0x00], 1, 0, ⟨.sched, 0, 0⟩) := by decide
/-- R144's table, column k. -/
theorem test_zero_counts : [0, 3, 55, 56, 63, 64, 65, 119, 120].map zeroCount = [55, 52, 0, 63, 56, 55, 54, 0, 63] := by decide

/-! ## Schedule and rounds: the worked values of R151 to R165 on the block of `abc` -/

theorem test_wload_0 : after (fun t => (t.w[0], t.seq)) (exec (.wload 0) (inBlock ⟨.sched, 0, 0⟩)) =
    some (0x61626380, ⟨.sched, 0, 1⟩) := by decide
theorem test_wload_15 : after (fun t => (t.w[15], t.seq)) (exec (.wload 15) (inBlock ⟨.sched, 0, 15⟩)) =
    some (0x00000018, ⟨.sched, 1, 16⟩) := by decide
theorem test_wexp_16 : after (fun t => (t.w[16], t.seq))
    (exec (.wexp 16) { inBlock ⟨.sched, 1, 16⟩ with w := (Vector.replicate 68 0).set 0 0x61626380 }) =
      some (0x9092E200, ⟨.sched, 1, 17⟩) := by decide
theorem test_wprime_63 : after (fun t => (t.wp[63], t.seq))
    (exec (.wprime 63)
      { inBlock ⟨.sched, 2, 63⟩ with w := ((Vector.replicate 68 0).set 63 0xF07E6590).set 67 0xB99C0545 }) =
      some (0x49E260D5, ⟨.compress, 0, 0⟩) := by decide
theorem test_cinit : after (fun t => (t.work, t.seq)) (exec .cinit (inBlock ⟨.compress, 0, 0⟩)) =
    some (⟨0x7380166F, 0x4914B2B9, 0x172442D7, 0xDA8A0600, 0xA96F30BC, 0x163138AA, 0xE38DEE4D, 0xB0FB0E4E⟩,
      ⟨.compress, 1, 0⟩) := by decide
theorem test_roundl_0 : after (fun t => (t.work, t.seq))
    (exec (.roundl 0)
      { inBlock ⟨.compress, 1, 0⟩ with
        work := workOf defaultIV, w := (Vector.replicate 68 0).set 0 0x61626380
        wp := (Vector.replicate 64 0).set 0 0x61626380 }) =
      some (⟨0xB9EDC12B, 0x7380166F, 0x29657292, 0x172442D7, 0xB2AD29F4, 0xA96F30BC, 0xC550B189, 0xE38DEE4D⟩,
        ⟨.compress, 1, 1⟩) := by decide
theorem test_roundh_16 : after (fun t => (t.work, t.seq))
    (exec (.roundh 16)
      { inBlock ⟨.compress, 1, 16⟩ with
        work := ⟨0x34D1691E, 0x7C529778, 0x92B57849, 0x979AB113, 0x61F99646, 0x3EE95933, 0x2AA0D251, 0xDB131B86⟩
        w := (Vector.replicate 68 0).set 16 0x9092E200, wp := (Vector.replicate 64 0).set 16 0x9092E200 }) =
      some (⟨0x796AFAB1, 0x34D1691E, 0xA52EF0F8, 0x92B57849, 0x067550F5, 0x61F99646, 0xC999F74A, 0x2AA0D251⟩,
        ⟨.compress, 1, 17⟩) := by decide
theorem test_cfeed : after (fun t => (t.v, t.blk, t.seq))
    (exec .cfeed
      { inBlock ⟨.compress, 2, 0⟩ with
        work := ⟨0x1547E69B, 0x2BFA5F60, 0xC6D696BC, 0x069AE2E2, 0xE808F43B, 0x4AC3CF08, 0xCAF04E66, 0x3FB0A6AE⟩ }) =
      some (#v[0x66C7F0F4, 0x62EEEDD9, 0xD1F2D46B, 0xDC10E4E2, 0x4167C487, 0x5CF2F7A2, 0x297DA02B, 0x8F4BA8E0], 1,
        ⟨.format, 0, 0⟩) := by decide

/-! ## Formatter, START, FINISH: the worked values of R181, R182, R191, R192 -/

theorem test_dser : after (fun t => (t.digest.readBytes 0 4, t.digest.read 31, t.seq))
    (exec .dser { formatting 0 with
      v := #v[0x66C7F0F4, 0x62EEEDD9, 0xD1F2D46B, 0xDC10E4E2, 0x4167C487, 0x5CF2F7A2, 0x297DA02B, 0x8F4BA8E0] }) =
      some (some [0x66, 0xC7, 0xF0, 0xF4], some 0xE0, ⟨.format, 1, 0⟩) := by decide
theorem test_dhex : after (fun t => (t.hex.readBytes 0 4, t.hex.readBytes 60 4))
    (exec .dhex { formatting 1 with digest := holding ([0x66, 0xC7] ++ List.replicate 28 0 ++ [0x0A, 0xFF]) }) =
      some (some [0x36, 0x36, 0x43, 0x37], some [0x30, 0x41, 0x46, 0x46]) := by decide
theorem test_start : after (fun t => (t.v, t.buf, t.status, t.finfo, t.digest.length, t.seq))
    (exec .start { finished with buf := [1], v := Vector.replicate 8 7 }) =
      some (defaultIV, [], 0b001, 0, 0, ⟨.encode, 0, 0⟩) := by decide
theorem test_finish : after (fun t => (t.status, t.seq)) (exec .finish (formatting 2)) = some (0b010, ⟨.done, 2, 0⟩) := by decide

/-! ## The step: host commands, faults as steps, refusals -/

theorem test_hash_is_start : after (fun t => (t.status, t.seq.phase))
    (step { finished with host := [.hash] }) = some (0b001, .encode) := by decide
theorem test_hash_while_busy_is_ignored : after (fun t => (t.buf, t.host))
    (step { encoding .strict [0x61] with host := [.hash] }) = some ([0x61], []) := by decide
theorem test_text_while_busy_is_refused :
    refusal (step { encoding .strict [] with host := [.writeText []] }) = some .textWriteWhileBusy := by decide
/-- V-FLT: (0xDC00) under either policy is the last unit: a fault at index 0, with BUF unchanged. -/
theorem test_lone_surrogate_step : after (fun t => (t.status, t.cause, t.finfo, t.buf)) (step (encoding .strict [0xDC00])) =
    some (0b100, 1, 0, []) ∧
    after (fun t => (t.status, t.cause, t.finfo, t.buf)) (step (encoding .blind [0xDC00])) = some (0b100, 1, 0, []) := by decide
theorem test_hard_reset : after (fun t => (t.status, t.seq.phase, t.cause, t.finfo))
    (step { encoding .strict [0x61] with host := [.hardReset] }) = some (0b000, .idle, 0, 0) := by decide
theorem test_reserved_fn_is_refused :
    refusal (step { State.reset with aluReq := some ⟨0xD, 0, 0, 0, 0, 0⟩ }) = some .reservedFunction := by decide
/-- P4's BUF after ENCEND, by the big-step encoder. -/
theorem test_encode_P4 : encodeFrom .strict 0 [0x0061, 0x00E9, 0x20AC, 0xD83D, 0xDE00] =
    .bytes [0x61, 0xC3, 0xA9, 0xE2, 0x82, 0xAC, 0xF0, 0x9F, 0x98, 0x80] := by decide

/-- V-SRC-1, the source's own vector: the digest of `abc`, by the big-step function. -/
theorem test_digest_abc : hashText .standard [0x61, 0x62, 0x63] =
    let d : List Byte :=
      [0x66, 0xC7, 0xF0, 0xF4, 0x62, 0xEE, 0xED, 0xD9, 0xD1, 0xF2, 0xD4, 0x6B, 0xDC, 0x10, 0xE4, 0xE2,
       0x41, 0x67, 0xC4, 0x87, 0x5C, 0xF2, 0xF7, 0xA2, 0x29, 0x7D, 0xA0, 0x2B, 0x8F, 0x4B, 0xA8, 0xE0]
    .digest d (hexImage d) := by decide +kernel

/-! ## A state and operands that meet the hypotheses of each statement, at the ends of each clause's range -/

/-- DecodeOfEncodeIsTheOperation: every indexed operation at both ends of its range. -/
theorem test_meets_decode_of_encode : [Instr.wload 0, .wload 15, .wexp 16, .wexp 67, .wprime 0, .wprime 63, .roundl 0,
    .roundl 15, .roundh 16, .roundh 63, .start, .tj 63].all Instr.wellFormed = true := by decide

/-- ControlWordsHaveOneMeaning. -/
theorem test_meets_one_meaning : decode (.seq 0x5C3) = .instr (.wexp 67) ∧ decode (.seq 0x080) = .instr .start := by decide

/-- Enc123AppendTheUnitsBytes: each class at both ends; the surrogate band is between two of them. -/
theorem test_meets_enc123 :
    ([0x0000, 0x007F, 0x0080, 0x07FF, 0x0800, 0xD7FF, 0xE000, (0xFFFF : CodeUnit)].all fun u =>
      decide ((encoding .strict [u]).text[(encoding .strict [u]).tpos]? = some u) &&
        decide (u.toNat < 0x80 ∨ (0x80 ≤ u.toNat ∧ u.toNat < 0x800) ∨
          (0x800 ≤ u.toNat ∧ ¬ (0xD800 ≤ u.toNat ∧ u.toNat ≤ 0xDFFF)))) = true := by decide

/-- Enc4EncodesAdmittedPairsAndRejectsTheRest, admitted: the first and the last pair, under either policy. -/
theorem test_meets_enc4_pair : ([SurrogatePolicy.strict, .blind].all fun p =>
    [(0xD800, 0xDC00), (0xDBFF, (0xDFFF : CodeUnit))].all fun q : CodeUnit × CodeUnit =>
      decide ((encoding p [q.1, q.2]).text[(encoding p [q.1, q.2]).tpos]? = some q.1) &&
      decide (0xD800 ≤ q.1.toNat ∧ q.1.toNat ≤ 0xDBFF) &&
      decide ((encoding p [q.1, q.2]).text[(encoding p [q.1, q.2]).tpos + 1]? = some q.2) &&
      decide (0xDC00 ≤ q.2.toNat ∧ q.2.toNat ≤ 0xDFFF) &&
      decide ((BitVec.ofNat 21 (q.1.toNat % 0x400 * 0x400 + q.2.toNat % 0x400 + 0x10000)).toNat =
        q.1.toNat % 0x400 * 0x400 + q.2.toNat % 0x400 + 0x10000)) = true := by decide

/-- The same, not admitted, in the form of a decidable test: no unit after it, or under `strict` one that makes no pair. -/
theorem test_meets_enc4_rejected : ∀ p ∈ [(SurrogatePolicy.blind, [(0xDFFF : CodeUnit)]), (.strict, [0xDBFF]),
      (.strict, [0xDC00, 0xDC00]), (.strict, [0xD800, 0xDBFF]), (.strict, [0xD800, 0xE000])],
    ∃ u, p.2[0]? = some u ∧ 0xD800 ≤ u.toNat ∧ u.toNat ≤ 0xDFFF ∧
      ∀ lo, p.2[1]? = some lo → p.1 = .strict ∧ ¬ (u.toNat ≤ 0xDBFF ∧ 0xDC00 ≤ lo.toNat ∧ lo.toNat ≤ 0xDFFF) := by
  simp

/-- BasicAluFunctionsFollowTheirRules, RoundAndScheduleFunctionsFollowTheirRules, FunctionsSwitchBetweenRounds15And16: the
ends of the ranges of amounts, bits and round indices. -/
theorem test_meets_alu_ranges : (1 ≤ 1 ∧ 1 ≤ 31) ∧ (1 ≤ 31 ∧ 31 ≤ 31) ∧ (0 < 32 ∧ 31 < 32) ∧ (0 ≤ 15 ∧ 15 ≤ 15) ∧
    (16 ≤ 16 ∧ 16 ≤ 63) ∧ (16 ≤ 63 ∧ 63 ≤ 63) := by decide

/-- EncendLatchesTheLengthOrRaisesLenRange: N = 0, a length equal to `MAX_LEN` and one above it. -/
theorem test_meets_encend : (encoding .strict []).tpos = (encoding .strict []).text.length ∧
    ([0] : List Byte).length ≤ ({ Config.standard with maxLen := 1 }).maxLen ∧
    ({ Config.standard with maxLen := 1 }).maxLen < ([0, 0] : List Byte).length := by decide

/-- EncodedLengthIsBetweenNAnd3N, TheFirstIllFormedUnitIsReported. -/
theorem test_meets_encode_from : encodeFrom .strict 0 [0x007F] = .bytes [0x7F] ∧
    encodeFrom .blind 0 [0xFFFF] = .bytes [0xEF, 0xBF, 0xBF] ∧ encodeFrom .strict 0 [0x0061, 0xD800] = .bad 1 := by decide

/-- EncoderRecoversTheCodePointView: the ends of each range of code points. -/
theorem test_meets_scalars :
    ∀ cp ∈ [0, 0x7F, 0x80, 0x7FF, 0x800, 0xD7FF, 0xE000, 0xFFFF, 0x10000, 0x10FFFF], isScalar cp = true := by decide

/-- PaddingOperationsAppendTheirBytes: PADZ on either side of the residue, PADLEN on it. -/
theorem test_meets_padding : (List.replicate 55 (0 : Byte)).length % 64 ≠ 56 ∧
    (List.replicate 57 (0 : Byte)).length % 64 ≠ 56 ∧ (List.replicate 120 (0 : Byte)).length % 64 = 56 := by decide

/-- LengthFieldHoldsTheExactBitLength: the largest length, whose field is all ones but for three bits. -/
theorem test_meets_length_field : 2 ^ 61 - 1 ≤ 2 ^ 61 - 1 ∧
    lengthField (2 ^ 61 - 1) = [0xFF, 0xFF, 0xFF, 0xFF, 0xFF, 0xFF, 0xFF, 0xF8] := by decide

/-- WloadLoadsOneMessageWord: the first and the last word of the block. -/
theorem test_meets_wload : ∀ j ∈ [(0 : BitVec 7), 15], j.toNat ≤ 15 ∧ ∀ k ∈ [0, 1, 2, 3],
    ((inBlock ⟨.sched, 0, 0⟩).buf[64 * (inBlock ⟨.sched, 0, 0⟩).blk + 4 * j.toNat + k]?).isSome = true := by decide

/-- WexpExpandsOneWord, WprimeXorsTwoWords, RoundlIsARoundOfTheFirstKind, RoundhIsARoundOfTheSecondKind: every index the
operations read exists, at both ends of each range. -/
theorem test_meets_schedule_indices :
    (∀ j ∈ [(16 : BitVec 7), 67], 16 ≤ j.toNat ∧ j.toNat ≤ 67 ∧ ∀ k ∈ [16, 13, 9, 6, 3],
      ((inBlock ⟨.sched, 1, 16⟩).w[j.toNat - k]?).isSome = true) ∧
    (∀ j ∈ [(0 : BitVec 7), 63], j.toNat ≤ 63 ∧ ((inBlock ⟨.sched, 2, 0⟩).w[j.toNat]?).isSome = true ∧
      ((inBlock ⟨.sched, 2, 0⟩).w[j.toNat + 4]?).isSome = true) ∧
    (∀ j ∈ [(0 : BitVec 7), 15, 16, 63], (j.toNat ≤ 15 ∨ (16 ≤ j.toNat ∧ j.toNat ≤ 63)) ∧
      ((inBlock ⟨.compress, 1, 0⟩).w[j.toNat]?).isSome = true ∧
      ((inBlock ⟨.compress, 1, 0⟩).wp[j.toNat]?).isSome = true) := by decide

/-- ScheduleIsLinearOverXor. -/
theorem test_meets_blocks : (List.replicate 64 (0xA5 : Byte)).length = 64 := by decide

/-- CfeedXorsTheEntryValueBack: the last block, and one before the last. -/
theorem test_meets_cfeed : (inBlock ⟨.compress, 2, 0⟩).blk + 1 = (inBlock ⟨.compress, 2, 0⟩).nblk ∧
    ({ inBlock ⟨.compress, 2, 0⟩ with nblk := 2 }).blk + 1 < 2 := by decide

/-- DserStoresTheRegistersBigEndian. -/
theorem test_meets_dser : (formatting 0).v[0]? = some 0x7380166F ∧ (formatting 0).v[7]? = some 0xB0FB0E4E := by decide

/-- PaddedLengthIsTheLeastMultipleOf64, DigestAndHexAreInjective. -/
theorem test_meets_images : 64 = (List.replicate 55 (0 : Byte) ++ padding 55).length ∧
    digestOf defaultIV = digestOf #v[0x7380166F, 0x4914B2B9, 0x172442D7, 0xDA8A0600, 0xA96F30BC, 0x163138AA, 0xE38DEE4D,
      0xB0FB0E4E] ∧ hexImage [0x0A] = hexImage [10] := by decide

/-- DhexRendersUpperCaseHighNibbleFirst. -/
theorem test_meets_dhex : (List.replicate 32 (0xAF : Byte)).length = 32 ∧
    ∀ k, k < 32 → finished.digest.read k = (List.replicate 32 (0xAF : Byte))[k]? := by decide

/-- FaultEntryWritesOnlyTheReport: a rejected unit, and a length above `MAX_LEN`. -/
theorem test_meets_fault_entry :
    (encoding .strict [0xDC00]).aluReq = none ∧ (encoding .strict [0xDC00]).host = [] ∧
    (encoding .strict [0xDC00]).seq.phase = .encode ∧ (encoding .strict [0xDC00]).text[0]? = some 0xDC00 ∧
    (encoding .strict [0xDC00]).text[1]? = none ∧
    (let s := { encoding .strict [] with cfg := { Config.standard with maxLen := 0 }, buf := [0] }
     s.aluReq = none ∧ s.host = [] ∧ s.seq.phase = .encode ∧ s.tpos = s.text.length ∧ s.cfg.maxLen < s.buf.length) := by
  decide

/-- OnlyEnc4AndEncendRaise, OperationsChangeOnlyWhatTheMatrixSays: an operation that completes and an element it does not
write. -/
theorem test_meets_frame : Instr.pad80 ≠ .enc4 ∧ Instr.pad80 ≠ .encend ∧
    after (·.seq) (exec .pad80 .reset) = some ⟨.pad, 1, 0⟩ ∧ writes .pad80 .len = false ∧
    writes (.wexp 16) (.w 15) = false := by decide

/-- ReservedOperandsAreRefused: the first index outside each range, and the first and the last reserved function. -/
theorem test_meets_reserved : (15 : Nat) < (16 : BitVec 7).toNat ∧ (15 : BitVec 7).toNat < 16 ∧
    67 < (68 : BitVec 7).toNat ∧ 63 < (64 : BitVec 7).toNat ∧
    ∀ fn ∈ [(0xD : BitVec 4), 0xF], 0xD ≤ fn.toNat ∧
      ({ State.reset with aluReq := some ⟨fn, 0, 0, 0, 0, 0⟩ }).aluReq = some ⟨fn, 0, 0, 0, 0, 0⟩ := by decide

/-- OperationsOutOfPlaceStop: each clause. -/
theorem test_meets_out_of_place :
    (encoding .strict []).text.length ≤ (encoding .strict []).tpos ∧
    ([(0x007F : CodeUnit), 0x0080, 0x07FF, 0x0800, 0xD7FF, 0xD800, 0xDFFF, 0xE000].all fun u =>
      decide ((encoding .strict [u]).text[(encoding .strict [u]).tpos]? = some u) &&
        decide ((encoding .strict [u]).tpos ≠ (encoding .strict [u]).text.length)) = true ∧
    (List.replicate 56 (0 : Byte)).length % 64 = 56 ∧ ([] : List Byte).length % 64 ≠ 56 ∧
    ([(0 : BitVec 7), 15].all fun j => decide (j.toNat ≤ 15) &&
      decide ((List.replicate 3 (0 : Byte)).length ≤ 64 * State.reset.blk + 4 * j.toNat + 3)) = true ∧
    State.reset.nblk < State.reset.blk + 1 ∧ State.reset.digest.read 0 = none := by decide

/-- OperationsOutOfPlaceStop, the sequencer states without a row: each clause at the first value outside the rows. -/
theorem test_meets_no_row :
    ([{ encoding .strict [] with tpos := 1 }, inBlock ⟨.pad, 2, 0⟩, inBlock ⟨.sched, 0, 16⟩, inBlock ⟨.sched, 1, 15⟩,
      inBlock ⟨.sched, 1, 68⟩, inBlock ⟨.sched, 2, 64⟩, inBlock ⟨.sched, 3, 0⟩, inBlock ⟨.compress, 1, 64⟩,
      inBlock ⟨.compress, 3, 0⟩, formatting 3].all fun s =>
        s.aluReq == none && s.host == [] && select s == .outside && refusal (step s) == some .noTransition) = true ∧
    ({ inBlock ⟨.compress, 2, 0⟩ with blk := 1 }).nblk < ({ inBlock ⟨.compress, 2, 0⟩ with blk := 1 }).blk + 1 ∧
    refusal (step { inBlock ⟨.compress, 2, 0⟩ with blk := 1 }) = some .noTransition := by decide

/-- SequencerFollowsTheTransitionTable: a state for each row, told by what `select` gives there; row 1 by the command. -/
theorem test_meets_table :
    (∀ p ∈ [Phase.idle, .done, .faulted], ({ State.reset with seq := ⟨p, 0, 0⟩ }).seq.phase.isBusy = false) ∧
    select (encoding .strict [0x007F]) = .issue .enc1 ∧ select (encoding .strict [0x07FF]) = .issue .enc2 ∧
    select (encoding .strict [0xFFFF]) = .issue .enc3 ∧ select (encoding .strict [0xD800, 0xDC00]) = .issue .enc4 ∧
    select (encoding .strict [0xD800]) = .raise 1 0 ∧ select (encoding .strict []) = .issue .encend ∧
    select { inBlock ⟨.pad, 0, 0⟩ with buf := [] } = .issue .pad80 ∧
    select { inBlock ⟨.pad, 1, 0⟩ with buf := [0x80] } = .issue .padz ∧
    select { inBlock ⟨.pad, 1, 0⟩ with buf := List.replicate 56 0 } = .issue .padlen ∧
    select (inBlock ⟨.sched, 0, 15⟩) = .issue (.wload 15) ∧ select (inBlock ⟨.sched, 1, 67⟩) = .issue (.wexp 67) ∧
    select (inBlock ⟨.sched, 2, 63⟩) = .issue (.wprime 63) ∧ select (inBlock ⟨.compress, 0, 0⟩) = .issue .cinit ∧
    select (inBlock ⟨.compress, 1, 15⟩) = .issue (.roundl 15) ∧
    select (inBlock ⟨.compress, 1, 16⟩) = .issue (.roundh 16) ∧ select (inBlock ⟨.compress, 2, 0⟩) = .issue .cfeed ∧
    select (formatting 0) = .issue .dser ∧ select (formatting 1) = .issue .dhex ∧
    select (formatting 2) = .issue .finish ∧ (formatting 2).aluReq = none ∧ (formatting 2).host = [] := by decide

/-- APlacedTableWordIsExecutedNext, APresentedAluCodeIsExecutedNext. -/
theorem test_meets_placed : decodeTableWord 16 0x7BF = some (.roundh 63) ∧ decodeTableWord 8 0xC = some (.tj 0) ∧
    decode (.alu ⟨0xC, 0, 0, 0, 0, 63⟩) = .instr (.tj 63) ∧
    after (·.work) (step (State.reset.withFetchWord 16 0x7BF)) = after (·.work) (exec (.roundh 63) .reset) := by decide

/-- HostMovesAreAcceptedOnlyBetweenCalls, AResultStaysUntilTheNextCommand, HardResetEndsACallWithoutResult: a state between
calls with a result, one without, and one in a call. -/
theorem test_meets_host_moves : finished.seq.phase.isBusy = false ∧ finished.aluReq = none ∧ finished.host = [] ∧
    State.reset.done = false ∧ (encoding .strict []).seq.phase.isBusy = true ∧ (encoding .strict []).done = false ∧
    after (fun t => (t.seq, t.host)) (step { finished with host := [.wait] }) = some (⟨.done, 2, 0⟩, []) ∧
    after (fun t => (t.seq, t.host)) (step { encoding .strict [] with host := [.wait, .hash] }) =
      some (⟨.pad, 0, 0⟩, [.hash]) ∧
    after (·.text) (step { finished with host := [.writeText [7]] }) = some [7] ∧
    after (fun t => t.seq.phase.isBusy) (step (formatting 2)) = some false := by decide

/-- A state in a call is legal (StepKeepsLegal, LegalStatesStepOn, IssuedOperationsReadOnlyWrittenElements). -/
theorem test_meets_legal_in_call : Legal (inBlock ⟨.compress, 1, 15⟩) ∧
    select (inBlock ⟨.compress, 1, 15⟩) = .issue (.roundl 15) ∧
    after (·.seq) (step (inBlock ⟨.compress, 1, 15⟩)) = some ⟨.compress, 1, 16⟩ := by
  refine ⟨⟨by decide, by decide, by decide, by decide, by decide, by decide, ?_⟩, by decide, by decide⟩
  exact ⟨⟨by decide, by decide, by decide⟩, by decide, rfl, rfl, .inr (.inl (by decide))⟩

/-- A state in DONE is legal and shows a result (AResultIsAlways64UpperCaseDigits). -/
theorem test_meets_legal_done : Legal finished ∧ finished.seq.phase = .done ∧
    finished.observed = some (.digest (List.replicate 32 0xAF) (hexImage (List.replicate 32 0xAF))) := by
  refine ⟨⟨by decide, by decide +kernel, by decide +kernel, by decide, by decide, by decide, ?_⟩, rfl, by decide +kernel⟩
  exact ⟨List.replicate 32 0xAF, by decide +kernel, by decide +kernel⟩

/-- LegalStatesStepOn: the two refusals happen, the first in a legal state of a call, the second between calls. -/
theorem test_meets_legal_refusals :
    refusal (step { inBlock ⟨.compress, 1, 15⟩ with host := [.writeText []] }) = some .textWriteWhileBusy ∧
    refusal (step { finished with aluReq := some ⟨0xF, 0, 0, 0, 0, 0⟩ }) = some .reservedFunction := by decide

/-- OnlyTheHostChangesText, BufIsOnlyAppendedTo: a step of the engine, neither START nor a hardware reset. -/
theorem test_meets_buf_step : issuedAt { inBlock ⟨.pad, 0, 0⟩ with buf := [] } = some .pad80 ∧
    ({ inBlock ⟨.pad, 0, 0⟩ with buf := [] }).host = [] ∧
    after (·.buf) (step { inBlock ⟨.pad, 0, 0⟩ with buf := [] }) = some [0x80] ∧
    after (·.buf) (step (inBlock ⟨.sched, 0, 3⟩)) = some (inBlock ⟨.sched, 0, 3⟩).buf ∧
    issuedAt finished = none ∧ after (·.buf) (step { finished with buf := [0x80] }) = some [0x80] := by decide

/-- OperationsDependOnlyOnWhatTheyRead: two states that differ in V, W and TPOS agree on what PADLEN reads. -/
theorem test_meets_dependence :
    (∀ e, reads .padlen e = true →
      agree e { inBlock ⟨.pad, 1, 0⟩ with buf := List.replicate 56 0 }
        { inBlock ⟨.pad, 1, 0⟩ with buf := List.replicate 56 0, v := Vector.replicate 8 9, tpos := 0 }) ∧
    (∀ e ∈ [Elem.buf, .digest, .hex, .report, .seq],
      agree e { inBlock ⟨.pad, 1, 0⟩ with buf := List.replicate 56 0 }
        { inBlock ⟨.pad, 1, 0⟩ with buf := List.replicate 56 0, v := Vector.replicate 8 9, tpos := 0 }) ∧
    after (·.nblk) (exec .padlen { inBlock ⟨.pad, 1, 0⟩ with buf := List.replicate 56 0 }) = some 1 := by
  refine ⟨fun e => ?_, by simp [agree], by decide⟩
  cases e <;> simp [reads, agree]

/-- The statements on whole calls: a legal state with a result of an earlier call, the command in the script, and the
numbers of R201 for `abc`. -/
theorem test_meets_call :
    ({ finished with text := [0x61, 0x62, 0x63], host := [.hash] }).seq.phase.isBusy = false ∧
    ({ finished with text := [0x61, 0x62, 0x63], host := [.hash] }).aluReq = none ∧
    encodeFrom .strict 0 [0x61, 0x62, 0x63] = .bytes [0x61, 0x62, 0x63] ∧
    ([0x61, 0x62, 0x63] : List Byte).length ≤ finished.cfg.maxLen ∧
    (encodeOps .strict [0x61, 0x62, 0x63]).length = 3 ∧ (52 : Nat) ≤ 63 ∧ (3 + 1 + 52) % 64 = 56 ∧
    64 * 1 = 3 + 9 + 52 ∧ 260 = 1 + (3 + 1) + (2 + 52) + 198 * 1 + 3 := by decide

/-- ACallIsIndependentOfEarlierCalls: two legal states between calls, with the same TEXT and different leftovers, and the
command accepted. -/
theorem test_meets_two_histories :
    Legal { finished with host := [.hash] } ∧ Legal { finished with host := [.hash], v := Vector.replicate 8 9, buf := [1] } ∧
    after (fun t => t.seq.phase) (Host.Core.run core 1 { finished with host := [.hash] }) = some .encode := by
  have L := test_meets_legal_done.1
  exact ⟨⟨L.params, L.digestForm, L.hexForm, L.flags, L.report, L.place, L.stage⟩,
    ⟨L.params, L.digestForm, L.hexForm, L.flags, L.report, L.place, L.stage⟩, by decide⟩

/-- EnginesAreIndependent. -/
theorem test_meets_interleavings : List.Perm [0, 1, 0] [0, 0, 1] := by decide

end Sys2Proof.Tests
end

section
/-! SUPPORT. The frame of every operation: the elements of the state it leaves as they are (R24, R36, R38), and the model's
own script. -/

namespace Sys2Proof.Machine

variable {s t : State} {i : Instr}

/-- An answer of the ALU port changes no element of the engine's state (R24; log entry 9). -/
theorem agree_answerAlu (e : Elem) (s : State) (x : Word) : agree e s (s.answerAlu x) := by
  cases e <;> simp [agree]

/-- Writing one word of W leaves every other element but the sequencer as it is. -/
theorem agree_writeW {e : Elem} {j : Nat} (hw : e ≠ .w j) (hq : e ≠ .seq) (s : State) (x : Word) (q : Seq) :
    agree e s { s with w := s.w.setIfInBounds j x, seq := q } := by
  cases e with
  | w k =>
    have hk : j ≠ k := fun h => hw (h ▸ rfl)
    exact (Vector.getElem?_setIfInBounds_ne hk).symm
  | seq => exact absurd rfl hq
  | _ => simp [agree]

/-- Writing one word of Wp leaves every other element but the sequencer as it is. -/
theorem agree_writeWp {e : Elem} {j : Nat} (hw : e ≠ .wp j) (hq : e ≠ .seq) (s : State) (x : Word) (q : Seq) :
    agree e s { s with wp := s.wp.setIfInBounds j x, seq := q } := by
  cases e with
  | wp k =>
    have hk : j ≠ k := fun h => hw (h ▸ rfl)
    exact (Vector.getElem?_setIfInBounds_ne hk).symm
  | seq => exact absurd rfl hq
  | _ => simp [agree]

/-- An effect of an operation changes nothing outside the operation's column "w" of R24's matrix. -/
theorem Effect.agree_of_not_writes (h : Effect s i t) (e : Elem) (hw : writes i e = false) : agree e s t := by
  cases h with
  | start => cases e <;> simp_all [writes, agree]
  | enc1 | enc2 | enc3 | enc4 => cases e <;> simp_all [writes, agree]
  | enc4_raise | encend_raise => cases e <;> simp_all [writes, agree]
  | encend | pad80 | padz | padlen => cases e <;> simp_all [writes, agree]
  | wload | wexp => exact agree_writeW (by simp_all [writes]) (by simp_all [writes]) s _ _
  | wprime => exact agree_writeWp (by simp_all [writes]) (by simp_all [writes]) s _ _
  | cinit | roundl | roundh | cfeed => cases e <;> simp_all [writes, agree]
  | dser | dhex | finish => cases e <;> simp_all [writes, agree]
  | _ => exact agree_answerAlu e s _

/-- The parameters and TEXT are in no operation's column "w". -/
theorem writes_cfg (i : Instr) : writes i .cfg = false := by cases i <;> rfl

theorem writes_text (i : Instr) : writes i .text = false := by cases i <;> rfl

/-- No operation touches the script. -/
theorem Effect.host_eq (h : Effect s i t) : t.host = s.host := by cases h <;> rfl

/-- An operation that completes keeps the parameters and TEXT. -/
theorem exec_cfg_text (h : exec i s = .next t) : t.cfg = s.cfg ∧ t.text = s.text :=
  have he := effect_of_exec h
  ⟨(he.agree_of_not_writes .cfg (writes_cfg i)).symm, (he.agree_of_not_writes .text (writes_text i)).symm⟩

/-- A move of the engine keeps the parameters and TEXT. -/
theorem engineStep_cfg_text (h : engineStep s = .next t) : t.cfg = s.cfg ∧ t.text = s.text := by
  rcases engineStep_cases h with ⟨-, rfl⟩ | ⟨i, -, he⟩ | ⟨cause, info, -, rfl⟩
  · exact ⟨rfl, rfl⟩
  · exact exec_cfg_text he
  · exact ⟨rfl, rfl⟩

/-- Settles O47: by the effects of each operation. -/
theorem operationsChangeOnlyWhatTheMatrixSays : Obligations.OperationsChangeOnlyWhatTheMatrixSays :=
  fun _ _ _ e h hw => (effect_of_exec h).agree_of_not_writes e hw

/-- Settles O45: of the kinds of step only the host's placing of TEXT changes it. -/
theorem onlyTheHostChangesText : Obligations.OnlyTheHostChangesText := by
  intro s t h
  rcases step_cases h with ⟨c, i, -, -, he⟩ | ⟨-, ⟨rest, -, he⟩ | ⟨rest, -, -, he⟩ | ⟨units, rest, hh, hb, rfl⟩ |
    ⟨rest, -, rfl⟩⟩
  · obtain ⟨hc, ht⟩ := exec_cfg_text he
    exact ⟨hc, .inl ht⟩
  · obtain ⟨hc, ht⟩ := engineStep_cfg_text he
    exact ⟨hc, .inl ht⟩
  · obtain ⟨hc, ht⟩ := exec_cfg_text he
    exact ⟨hc, .inl ht⟩
  · exact ⟨rfl, .inr ⟨units, rest, hh, hb, rfl⟩⟩
  · exact ⟨rfl, .inl rfl⟩

end Sys2Proof.Machine
end

section
/-! SUPPORT. Every operation is a function of the elements in its column "r" of R24's matrix, and what it reads has been
written in the same call, W, Wp and A..H in the same block (R37). -/

namespace Sys2Proof.Machine

variable {s s' t : State} {i : Instr}

/-! ## What an operation reads determines what it writes -/

theorem getElem_of_agree_w {k : Nat} (h : agree (.w k) s s') (hk : k < 68) : s.w[k] = s'.w[k] :=
  (vec_get (Vector.getElem?_eq_getElem hk ▸ h.symm) hk).symm

theorem getElem_of_agree_wp {k : Nat} (h : agree (.wp k) s s') (hk : k < 64) : s.wp[k] = s'.wp[k] :=
  (vec_get (Vector.getElem?_eq_getElem hk ▸ h.symm) hk).symm

/-- The elements an operation only extends, overwrites in part or moves: two states to be compared hold the same in
them. -/
structure SameOutside (s s' : State) : Prop where
  buf : s.buf = s'.buf
  digest : s.digest = s'.digest
  hex : s.hex = s'.hex
  report : agree .report s s'
  seq : s.seq = s'.seq

/-- What the operation `i`, taking one state to `t` and the other to `t'`, leaves the same in both: each element it
writes; LEN is not written where ENCEND raises a fault. -/
def SameWrites (i : Instr) (s t s' t' : State) : Prop :=
  ∀ e, writes i e = true → agree e t t' ∨ (i = .encend ∧ e = .len ∧ t.fault = true ∧ agree e s t ∧ agree e s' t')

/-- ENC1 to ENC4 append the same bytes and move TPOS by the same number of units. -/
theorem agree_encodeChar (hbuf : s.buf = s'.buf) (hpos : s.tpos = s'.tpos) (bs : List Byte) (n : Nat) (q : Seq) {e : Elem}
    (he : e = .buf ∨ e = .tpos ∨ e = .seq) :
    agree e { s with buf := s.buf ++ bs, tpos := s.tpos + n, seq := q }
      { s' with buf := s'.buf ++ bs, tpos := s'.tpos + n, seq := q } := by
  rcases he with rfl | rfl | rfl
  · exact congrArg (· ++ bs) hbuf
  · exact congrArg (· + n) hpos
  · rfl

/-- A fault with the same cause and information leaves the same report and sequencer. -/
theorem agree_raise (hseq : s.seq = s'.seq) (c : BitVec 2) (n : Nat) {e : Elem} (he : e = .report ∨ e = .seq) :
    agree e (s.raise c n) (s'.raise c n) := by
  rcases he with rfl | rfl
  · exact ⟨rfl, rfl, rfl, rfl, rfl⟩
  · exact congrArg (fun q : Seq => { q with phase := .faulted }) hseq

/-- The word written to W is the same in both. -/
theorem agree_setW (j : Nat) {x y : Word} (h : x = y) (q : Seq) {e : Elem} (he : e = .w j ∨ e = .seq) :
    agree e { s with w := s.w.setIfInBounds j x, seq := q } { s' with w := s'.w.setIfInBounds j y, seq := q } := by
  rcases he with rfl | rfl
  · simp [agree, Vector.getElem?_setIfInBounds, h]
  · rfl

/-- The word written to Wp is the same in both. -/
theorem agree_setWp (j : Nat) {x y : Word} (h : x = y) (q : Seq) {e : Elem} (he : e = .wp j ∨ e = .seq) :
    agree e { s with wp := s.wp.setIfInBounds j x, seq := q } { s' with wp := s'.wp.setIfInBounds j y, seq := q } := by
  rcases he with rfl | rfl
  · simp [agree, Vector.getElem?_setIfInBounds, h]
  · rfl

/-- The working registers written are the same in both. -/
theorem agree_setWork {r r' : Work} (h : r = r') (q : Seq) {e : Elem} (he : e = .work ∨ e = .seq) :
    agree e { s with work := r, seq := q } { s' with work := r', seq := q } := by
  rcases he with rfl | rfl
  · exact h
  · rfl

/-- The effects of an operation other than START, carried over to a state that agrees on what the operation reads. -/
theorem Effect.transfer (h : Effect s i t) (hi : i ≠ .start) (hr : ∀ e, reads i e = true → agree e s s')
    (ho : SameOutside s s') : ∃ t', exec i s' = .next t' ∧ SameWrites i s t s' t' := by
  obtain ⟨hbuf, hdig, hhex, hrep, hseq⟩ := ho
  cases h with
  | start => exact absurd rfl hi
  | enc1 u hu hc =>
    have hx : s.text = s'.text := hr .text rfl
    have hp : s.tpos = s'.tpos := hr .tpos rfl
    exact ⟨_, exec_of_effect (.enc1 u (by rw [← hx, ← hp, hu]) hc), fun e hw =>
      .inl (agree_encodeChar hbuf hp _ _ _ (by simpa [writes, or_assoc] using hw))⟩
  | enc2 u hu hc =>
    have hx : s.text = s'.text := hr .text rfl
    have hp : s.tpos = s'.tpos := hr .tpos rfl
    exact ⟨_, exec_of_effect (.enc2 u (by rw [← hx, ← hp, hu]) hc), fun e hw =>
      .inl (agree_encodeChar hbuf hp _ _ _ (by simpa [writes, or_assoc] using hw))⟩
  | enc3 u hu hc =>
    have hx : s.text = s'.text := hr .text rfl
    have hp : s.tpos = s'.tpos := hr .tpos rfl
    exact ⟨_, exec_of_effect (.enc3 u (by rw [← hx, ← hp, hu]) hc), fun e hw =>
      .inl (agree_encodeChar hbuf hp _ _ _ (by simpa [writes, or_assoc] using hw))⟩
  | enc4 u lo hu hc hl =>
    have hx : s.text = s'.text := hr .text rfl
    have hp : s.tpos = s'.tpos := hr .tpos rfl
    have hg : s.cfg = s'.cfg := hr .cfg rfl
    refine ⟨_, exec_of_effect (.enc4 u lo (by rw [← hx, ← hp, hu]) hc (by rw [← hx, ← hp, ← hg, hl])),
      fun e hw => .inl ?_⟩
    by_cases he : e = .report
    · subst he; exact hrep
    · exact agree_encodeChar hbuf hp _ _ _ (by simpa [writes, he, or_assoc] using hw)
  | enc4_raise u hu hc hl =>
    have hx : s.text = s'.text := hr .text rfl
    have hp : s.tpos = s'.tpos := hr .tpos rfl
    have hg : s.cfg = s'.cfg := hr .cfg rfl
    refine ⟨_, exec_of_effect (.enc4_raise u (by rw [← hx, ← hp, hu]) hc (by rw [← hx, ← hp, ← hg, hl])),
      fun e hw => .inl ?_⟩
    rw [← hp]
    obtain rfl | rfl | he : e = .buf ∨ e = .tpos ∨ e = .report ∨ e = .seq := by
      simpa [writes, or_assoc, or_comm (a := e = .seq)] using hw
    · exact hbuf
    · exact hp
    · exact agree_raise hseq _ _ he
  | encend h hm =>
    have hx : s.text = s'.text := hr .text rfl
    have hp : s.tpos = s'.tpos := hr .tpos rfl
    have hg : s.cfg = s'.cfg := hr .cfg rfl
    refine ⟨_, exec_of_effect (.encend (by rw [← hx, ← hp, h]) (by rw [← hbuf, ← hg]; exact hm)), fun e hw => .inl ?_⟩
    obtain (rfl | rfl) | rfl : (e = .len ∨ e = .seq) ∨ e = .report := by simpa [writes] using hw
    · exact congrArg List.length hbuf
    · rfl
    · exact hrep
  | encend_raise h hm =>
    have hx : s.text = s'.text := hr .text rfl
    have hp : s.tpos = s'.tpos := hr .tpos rfl
    have hg : s.cfg = s'.cfg := hr .cfg rfl
    refine ⟨_, exec_of_effect (.encend_raise (by rw [← hx, ← hp, h]) (by rw [← hbuf, ← hg]; exact hm)), fun e hw => ?_⟩
    obtain rfl | he : e = .len ∨ e = .report ∨ e = .seq := by
      simpa [writes, or_assoc, or_comm (a := e = .seq)] using hw
    · exact .inr ⟨rfl, rfl, rfl, rfl, rfl⟩
    · rw [← hbuf]; exact .inl (agree_raise hseq _ _ he)
  | pad80 =>
    refine ⟨_, exec_of_effect .pad80, fun e hw => .inl ?_⟩
    obtain rfl | rfl : e = .buf ∨ e = .seq := by simpa [writes] using hw
    · exact congrArg (· ++ _) hbuf
    · rfl
  | padz hm =>
    refine ⟨_, exec_of_effect (.padz (by rw [← hbuf]; exact hm)), fun e hw => .inl ?_⟩
    obtain rfl | rfl : e = .buf ∨ e = .seq := by simpa [writes] using hw
    · exact congrArg (· ++ _) hbuf
    · rfl
  | padlen hm =>
    have hl : s.len = s'.len := hr .len rfl
    refine ⟨_, exec_of_effect (.padlen (by rw [← hbuf]; exact hm)), fun e hw => .inl ?_⟩
    obtain ((rfl | rfl) | rfl) | rfl : ((e = .buf ∨ e = .blk) ∨ e = .nblk) ∨ e = .seq := by simpa [writes] using hw
    · exact (by rw [hbuf, hl] : s.buf ++ lengthField s.len = s'.buf ++ lengthField s'.len)
    · rfl
    · exact congrArg (fun b => (List.length b + 8) / 64) hbuf
    · rfl
  | wload j x hj hx =>
    have hk : s.blk = s'.blk := hr .blk rfl
    exact ⟨_, exec_of_effect (.wload j x hj (by rw [← hbuf, ← hk, hx])), fun e hw =>
      .inl (agree_setW _ rfl _ (by simpa [writes] using hw))⟩
  | wexp j hj =>
    have word : ∀ c (hc : reads (.wexp j) (.w (j.toNat - c)) = true) (hk : j.toNat - c < 68),
        s.w[j.toNat - c] = s'.w[j.toNat - c] := fun c hc hk => getElem_of_agree_w (hr _ hc) hk
    refine ⟨_, exec_of_effect (.wexp j hj), fun e hw => .inl (agree_setW _ ?_ _ (by simpa [writes] using hw))⟩
    rw [word 16 (by simp [reads]), word 9 (by simp [reads]), word 3 (by simp [reads]), word 13 (by simp [reads]),
      word 6 (by simp [reads])]
  | wprime j hj =>
    have h0 := getElem_of_agree_w (hr (.w j.toNat) (by simp [reads])) (by omega)
    have h4 := getElem_of_agree_w (hr (.w (j.toNat + 4)) (by simp [reads])) (by omega)
    exact ⟨_, exec_of_effect (.wprime j hj), fun e hw =>
      .inl (agree_setWp _ (by rw [h0, h4]) _ (by simpa [writes] using hw))⟩
  | cinit =>
    have hv : s.v = s'.v := hr .v rfl
    exact ⟨_, exec_of_effect .cinit, fun e hw => .inl (agree_setWork (by rw [hv]) _ (by simpa [writes] using hw))⟩
  | roundl j hj =>
    have hr0 : s.work = s'.work := hr .work rfl
    have h0 := getElem_of_agree_w (hr (.w j.toNat) (by simp [reads])) (by omega)
    have h1 := getElem_of_agree_wp (hr (.wp j.toNat) (by simp [reads])) (by omega)
    exact ⟨_, exec_of_effect (.roundl j hj), fun e hw =>
      .inl (agree_setWork (by rw [hr0, h0, h1]) _ (by simpa [writes] using hw))⟩
  | roundh j hj =>
    have hr0 : s.work = s'.work := hr .work rfl
    have h0 := getElem_of_agree_w (hr (.w j.toNat) (by simp [reads])) (by omega)
    have h1 := getElem_of_agree_wp (hr (.wp j.toNat) (by simp [reads])) (by omega)
    exact ⟨_, exec_of_effect (.roundh j hj), fun e hw =>
      .inl (agree_setWork (by rw [hr0, h0, h1]) _ (by simpa [writes] using hw))⟩
  | cfeed h =>
    have hv : s.v = s'.v := hr .v rfl
    have hr0 : s.work = s'.work := hr .work rfl
    have hk : s.blk = s'.blk := hr .blk rfl
    have hn : s.nblk = s'.nblk := hr .nblk rfl
    refine ⟨_, exec_of_effect (.cfeed (by rw [← hk, ← hn]; exact h)), fun e hw => .inl ?_⟩
    obtain (rfl | rfl) | rfl : (e = .v ∨ e = .blk) ∨ e = .seq := by simpa [writes] using hw
    · exact (by rw [hr0, hv] : feedback s.work s.v = feedback s'.work s'.v)
    · exact congrArg (· + 1) hk
    · exact (by rw [hk, hn] : (if s.blk + 1 < s.nblk then (⟨.sched, 0, 0⟩ : Seq) else ⟨.format, 0, 0⟩) =
        if s'.blk + 1 < s'.nblk then ⟨.sched, 0, 0⟩ else ⟨.format, 0, 0⟩)
  | dser =>
    have hv : s.v = s'.v := hr .v rfl
    refine ⟨_, exec_of_effect .dser, fun e hw => .inl ?_⟩
    obtain rfl | rfl : e = .digest ∨ e = .seq := by simpa [writes] using hw
    · exact (by rw [hdig, hv] : s.digest.writeBytes 0 (digestOf s.v) = s'.digest.writeBytes 0 (digestOf s'.v))
    · rfl
  | dhex ds hd =>
    refine ⟨_, exec_of_effect (.dhex ds (by rw [← hdig, hd])), fun e hw => .inl ?_⟩
    obtain rfl | rfl : e = .hex ∨ e = .seq := by simpa [writes] using hw
    · exact congrArg (fun m => Memory.writeBytes m 0 (hexImage ds)) hhex
    · rfl
  | finish =>
    refine ⟨_, exec_of_effect .finish, fun e hw => .inl ?_⟩
    obtain ⟨-, -, hf, hc, hn⟩ := hrep
    obtain rfl | rfl : e = .report ∨ e = .seq := by simpa [writes] using hw
    · exact ⟨rfl, rfl, hf, hc, hn⟩
    · exact congrArg (fun q : Seq => { q with phase := .done }) hseq
  | _ => exact ⟨_, rfl, fun e hw => nomatch hw⟩

/-- START gives the same to every element it gives a value (R191). -/
theorem exec_start_agree (hc : s.cfg = s'.cfg) (h : exec .start s = .next t) :
    ∃ t', exec .start s' = .next t' ∧ ∀ e, writes .start e = true → writtenAt t.seq e = true → agree e t t' := by
  cases effect_of_exec h with
  | start =>
    refine ⟨_, exec_of_effect .start, fun e hw hn => ?_⟩
    cases e with
    | cfg | text => cases hw
    | buf | tpos | seq => rfl
    | report => exact ⟨rfl, rfl, rfl, rfl, rfl⟩
    | v => exact congrArg Config.iv hc
    | len | work | w | wp | digest | hex | blk | nblk => simp [writtenAt] at hn

/-- Settles O48: the effect carried over; of START what R191 gives a value. -/
theorem operationsDependOnlyOnWhatTheyRead : Obligations.OperationsDependOnlyOnWhatTheyRead := by
  intro i s s' t hr ho h
  by_cases hi : i = .start
  · subst hi
    obtain ⟨t', h', ha⟩ := exec_start_agree (hr .cfg rfl) h
    exact ⟨t', h', fun e hw hn => .inl (ha e hw (hn rfl))⟩
  · obtain ⟨t', h', ha⟩ := (effect_of_exec h).transfer hi hr
      ⟨ho .buf (by simp), ho .digest (by simp), ho .hex (by simp), ho .report (by simp), ho .seq (by simp)⟩
    exact ⟨t', h', fun e hw _ => ha e hw⟩

/-! ## What an issued operation reads is written (R37) -/

/-- Every element in the column "r" of an operation is written at the sequencer states that issue it. -/
theorem Issues.written_of_reads (hi : Issues s i) (e : Elem) (h : reads i e = true) : writtenAt s.seq e = true := by
  cases hi with
  | enc1 _ hp | enc2 _ hp | enc3 _ hp | enc4 _ _ hp | encend hp =>
    cases e <;> simp_all [reads, writtenAt, Phase.isBusy]
  | pad80 hp | padz hp | padlen hp => cases e <;> simp_all [reads, writtenAt, Phase.isBusy]
  | wload j hp => cases e <;> simp_all [reads, writtenAt, Phase.isBusy]
  | wexp j hp h1 hidx hj =>
    cases e with
    | w k => simp [reads] at h; simp [writtenAt, hp, h1, hidx]; omega
    | _ => cases h
  | wprime j hp h2 hidx hj =>
    cases e with
    | w k => simp [reads] at h; simp [writtenAt, hp, h2]; omega
    | _ => cases h
  | cinit hp => cases e <;> simp_all [reads, writtenAt, Phase.isBusy]
  | roundl j hp h1 hidx hj | roundh j hp h1 hidx hj =>
    cases e with
    | w k => simp [reads] at h; simp [writtenAt, hp]; omega
    | wp k => simp [reads] at h; simp [writtenAt, hp]; omega
    | work => simp [writtenAt, hp, h1]
    | _ => cases h
  | cfeed hp | dser hp | dhex hp => cases e <;> simp_all [reads, writtenAt, Phase.isBusy]
  | finish => cases h

/-- At the end of a call only what has a meaning then counts as written. -/
theorem writtenAt_faulted (q : Seq) (e : Elem) (h : writtenAt { q with phase := .faulted } e = true) :
    writtenAt q e = true := by
  cases e <;> simp_all [writtenAt, Phase.isBusy]

theorem writtenAt_done (q : Seq) (e : Elem) (h : writtenAt { q with phase := .done } e = true) :
    writtenAt q e = true := by
  cases e <;> simp_all [writtenAt, Phase.isBusy]

/-- An element is written after an issued operation only if it was before or the operation writes it. -/
theorem Issues.written_before (hi : Issues s i) (he : Effect s i t) (e : Elem) (h : writtenAt t.seq e = true) :
    writtenAt s.seq e = true ∨ writes i e = true := by
  cases hi with
  | enc1 _ hp | enc2 _ hp | enc3 _ hp =>
    cases he; cases e <;> simp_all [writes, writtenAt, Phase.isBusy]
  | enc4 _ _ hp =>
    cases he with
    | enc4 => cases e <;> simp_all [writes, writtenAt, Phase.isBusy]
    | enc4_raise => exact .inl (writtenAt_faulted _ e h)
  | encend hp =>
    cases he with
    | encend => cases e <;> simp_all [writes, writtenAt, Phase.isBusy]
    | encend_raise => exact .inl (writtenAt_faulted _ e h)
  | pad80 hp | padz hp | padlen hp =>
    cases he; cases e <;> simp_all [writes, writtenAt, Phase.isBusy]
  | wload j hp h0 hidx hj =>
    cases he
    unfold seqAfterWload at h
    cases e with
    | w k => simp [writtenAt, writes, hp, h0, hidx] at h ⊢; split at h <;> simp at h <;> omega
    | _ => split at h <;> simp_all [writes, writtenAt, Phase.isBusy]
  | wexp j hp h1 hidx hj =>
    cases he
    unfold seqAfterWexp at h
    cases e with
    | w k => simp [writtenAt, writes, hp, h1, hidx] at h ⊢; split at h <;> simp at h <;> omega
    | _ => split at h <;> simp_all [writes, writtenAt, Phase.isBusy]
  | wprime j hp h2 hidx hj =>
    cases he
    unfold seqAfterWprime at h
    cases e with
    | wp k => simp [writtenAt, writes, hp, h2, hidx] at h ⊢; split at h <;> simp at h <;> omega
    | _ => split at h <;> simp_all [writes, writtenAt, Phase.isBusy]
  | cinit hp => cases he; cases e <;> simp_all [writes, writtenAt, Phase.isBusy]
  | roundl j hp h1 | roundh j hp h1 =>
    cases he
    unfold seqAfterRound at h
    cases e <;> split at h <;> simp_all [writes, writtenAt, Phase.isBusy]
  | cfeed hp => cases he; cases e <;> split at h <;> simp_all [writes, writtenAt, Phase.isBusy]
  | dser hp | dhex hp => cases he; cases e <;> simp_all [writes, writtenAt, Phase.isBusy]
  | finish => cases he; exact .inl (writtenAt_done _ e h)

/-- Settles O49: row by row of R193. -/
theorem issuedOperationsReadOnlyWrittenElements : Obligations.IssuedOperationsReadOnlyWrittenElements := by
  intro s i _ hs
  have hi := issues_of_select hs
  exact ⟨hi.written_of_reads, fun t e h => hi.written_before (effect_of_exec h) e⟩

end Sys2Proof.Machine
end

section
/-! SUPPORT. The invariant Legal: what it says in each phase, and each kind of step keeps it. -/

namespace Sys2Proof.Machine

variable {s t : State}

/-! ## What the phase brings, phase by phase -/

theorem stageLegal_encode (hp : s.seq.phase = .encode) : StageLegal s ↔
    s.seq.sub = 0 ∧ s.seq.idx = 0 ∧ s.tpos ≤ s.text.length ∧ s.digest = [] ∧ s.hex = [] := by
  simp only [StageLegal, hp, State.numUnits]

theorem stageLegal_pad (hp : s.seq.phase = .pad) : StageLegal s ↔
    s.seq.idx = 0 ∧ s.len ≤ s.cfg.maxLen ∧ s.digest = [] ∧ s.hex = [] ∧
      ((s.seq.sub = 0 ∧ s.buf.length = s.len) ∨
        (s.seq.sub = 1 ∧ s.len + 1 ≤ s.buf.length ∧ s.buf.length ≤ s.len + 1 + zeroCount s.len)) := by
  simp only [StageLegal, hp]

theorem stageLegal_sched (hp : s.seq.phase = .sched) : StageLegal s ↔
    paddedBuf s ∧ s.blk < s.nblk ∧ s.digest = [] ∧ s.hex = [] ∧
      ((s.seq.sub = 0 ∧ s.seq.idx ≤ 15) ∨ (s.seq.sub = 1 ∧ 16 ≤ s.seq.idx ∧ s.seq.idx ≤ 67) ∨
        (s.seq.sub = 2 ∧ s.seq.idx ≤ 63)) := by
  simp only [StageLegal, hp]

theorem stageLegal_compress (hp : s.seq.phase = .compress) : StageLegal s ↔
    paddedBuf s ∧ s.blk < s.nblk ∧ s.digest = [] ∧ s.hex = [] ∧
      ((s.seq.sub = 0 ∧ s.seq.idx = 0) ∨ (s.seq.sub = 1 ∧ s.seq.idx ≤ 63) ∨ (s.seq.sub = 2 ∧ s.seq.idx = 0)) := by
  simp only [StageLegal, hp]

theorem stageLegal_format (hp : s.seq.phase = .format) : StageLegal s ↔
    s.seq.idx = 0 ∧ paddedBuf s ∧ s.blk = s.nblk ∧
      ((s.seq.sub = 0 ∧ s.digest = [] ∧ s.hex = []) ∨
        (s.seq.sub = 1 ∧ s.digest.readBytes 0 32 = some (digestOf s.v) ∧ s.hex = []) ∨
        (s.seq.sub = 2 ∧ s.digest.readBytes 0 32 = some (digestOf s.v) ∧
          s.hex.readBytes 0 64 = some (hexImage (digestOf s.v)))) := by
  simp only [StageLegal, hp]

/-! ## The steps that are no operation of the sequencer -/

/-- Legal speaks of no field of the script. -/
theorem Legal.setHost (L : Legal s) (rest : List HostEvent) : Legal (s.setHost rest) :=
  ⟨L.params, L.digestForm, L.hexForm, L.flags, L.report, L.place, L.stage⟩

/-- Legal speaks of no field of the ALU port. -/
theorem Legal.answerAlu (L : Legal s) (x : Word) : Legal (s.answerAlu x) :=
  ⟨L.params, L.digestForm, L.hexForm, L.flags, L.report, L.place, L.stage⟩

/-- Between calls the stage does not depend on TEXT. -/
theorem stageLegal_setText (hb : s.seq.phase.isBusy = false) (h : StageLegal s) (units : List CodeUnit) :
    StageLegal (s.setText units) := by
  unfold StageLegal at h ⊢
  rw [setText_seq]
  cases hp : s.seq.phase with
  | idle | faulted => trivial
  | done => simp only [hp] at h; exact h
  | encode | pad | sched | compress | format => rw [hp] at hb; cases hb

theorem Legal.setText (L : Legal s) (hb : s.seq.phase.isBusy = false) (units : List CodeUnit) :
    Legal (s.setText units) :=
  ⟨L.params, L.digestForm, L.hexForm, L.flags, L.report, L.place, stageLegal_setText hb L.stage units⟩

theorem Legal.hardReset (L : Legal s) : Legal s.hardReset where
  params := L.params
  digestForm := ⟨.nil, nofun⟩
  hexForm := ⟨.nil, nofun⟩
  flags := ⟨rfl, rfl, rfl⟩
  report := ⟨rfl, rfl⟩
  place := ⟨Nat.le_of_lt_succ (Nat.mod_lt _ (by decide)), Nat.le_of_lt_succ (Nat.mod_lt _ (by decide))⟩
  stage := trivial

/-- The entry into a fault, with one of the two causes of R211. -/
theorem Legal.raise (L : Legal s) {cause : BitVec 2} (hc : cause = causeEncSurrogate ∨ cause = causeLenRange)
    (info : Nat) : Legal (s.raise cause info) where
  params := L.params
  digestForm := L.digestForm
  hexForm := L.hexForm
  flags := ⟨rfl, rfl, rfl⟩
  report := hc
  place := L.place
  stage := trivial

/-- START makes every state a legal one of ENCODE. -/
theorem Legal.exec_start (L : Legal s) (h : exec .start s = .next t) : Legal t := by
  cases effect_of_exec h with
  | start =>
    exact
      { params := L.params
        digestForm := ⟨.nil, nofun⟩
        hexForm := ⟨.nil, nofun⟩
        flags := ⟨rfl, rfl, rfl⟩
        report := ⟨rfl, rfl⟩
        place := ⟨Nat.zero_le _, Nat.zero_le _⟩
        stage := (stageLegal_encode rfl).2 ⟨rfl, rfl, Nat.zero_le _, rfl, rfl⟩ }

/-- An ALU function, evaluated by itself, only answers its request (R24; log entry 9). -/
theorem exec_of_decode_alu {c : AluCode} {i : Instr} (hd : decode (.alu c) = .instr i) (s : State) :
    ∃ x, exec i s = .next (s.answerAlu x) := by
  simp only [decode, decodeAlu] at hd
  split at hd <;> cases hd <;> exact ⟨_, rfl⟩

/-- R193 row 7: the sequencer itself raises one fault only, in ENCODE. -/
theorem cause_of_select_raise {cause : BitVec 2} {info : Nat} (h : select s = .raise cause info) :
    cause = causeEncSurrogate := by
  cases hp : s.seq.phase with
  | idle | done | faulted => simp [select, hp] at h
  | encode => rw [select_encode hp, selectEncode] at h; grind
  | pad => rw [select_pad hp, selectPad] at h; grind
  | sched => rw [select_sched hp, selectSched] at h; grind
  | compress => rw [select_compress hp, selectCompress] at h; grind
  | format => rw [select_format hp, selectFormat] at h; grind

/-! ## The operations the sequencer issues -/

/-- In a call what the phase brings includes the ranges of SUB and IDX (R25). -/
theorem place_of_stageLegal (hb : s.seq.phase.isBusy = true) (h : StageLegal s) : s.seq.sub ≤ 2 ∧ s.seq.idx ≤ 67 := by
  cases hp : s.seq.phase with
  | idle | done | faulted => rw [hp] at hb; cases hb
  | encode => obtain ⟨hs, hi, -⟩ := (stageLegal_encode hp).1 h; omega
  | pad => obtain ⟨hi, -, -, -, hs⟩ := (stageLegal_pad hp).1 h; omega
  | sched => obtain ⟨-, -, -, -, hs⟩ := (stageLegal_sched hp).1 h; omega
  | compress => obtain ⟨-, -, -, -, hs⟩ := (stageLegal_compress hp).1 h; omega
  | format => obtain ⟨hi, -, -, hs⟩ := (stageLegal_format hp).1 h; omega

/-- A move inside a call that leaves the parameters and the report alone keeps the parts of Legal that are the same in
every phase of a call. -/
theorem Legal.inCall (L : Legal s) (hs : s.seq.phase.isBusy = true) (ht : t.seq.phase.isBusy = true)
    (hd : t.digest.wf ∧ ∀ c ∈ t.digest, c.1 < 32) (hh : t.hex.wf ∧ ∀ c ∈ t.hex, c.1 < 64) (stage : StageLegal t)
    (hcfg : t.cfg = s.cfg := by rfl) (hrep : agree .report t s := by exact ⟨rfl, rfl, rfl, rfl, rfl⟩) :
    Legal t := by
  obtain ⟨hbusy, hdone, hfault, hcause, hinfo⟩ := hrep
  obtain ⟨fb, fd, ff⟩ := L.flags
  have notEnd : ∀ q : Phase, q.isBusy = true → (q == .done) = false ∧ (q == .faulted) = false ∧ q ≠ .faulted := by
    rintro (_ | _) <;> decide
  obtain ⟨sd, sf, sn⟩ := notEnd _ hs
  obtain ⟨td, tf, tn⟩ := notEnd _ ht
  have hr := L.report
  rw [if_neg sn] at hr
  exact
    { params := hcfg ▸ L.params
      digestForm := hd
      hexForm := hh
      flags := ⟨by rw [hbusy, fb, hs, ht], by rw [hdone, fd, sd, td], by rw [hfault, ff, sf, tf]⟩
      report := by rw [if_neg tn, hcause, hinfo]; exact hr
      place := place_of_stageLegal ht stage
      stage := stage }

/-- A character encoded: BUF grows and TPOS moves on inside TEXT. -/
theorem Legal.encodeChar (L : Legal s) (hp : s.seq.phase = .encode) (bs : List Byte) {n : Nat}
    (hn : s.tpos + n ≤ s.text.length) :
    Legal { s with buf := s.buf ++ bs, tpos := s.tpos + n, seq := ⟨.encode, 0, 0⟩ } := by
  obtain ⟨-, -, -, hd, hx⟩ := (stageLegal_encode hp).1 L.stage
  exact L.inCall (by rw [hp]; rfl) rfl L.digestForm L.hexForm
    ((stageLegal_encode rfl).2 ⟨rfl, rfl, hn, hd, hx⟩)

/-- ENCEND latches an accepted length. -/
theorem Legal.latchLen (L : Legal s) (hp : s.seq.phase = .encode) (hm : s.buf.length ≤ s.cfg.maxLen) :
    Legal { s with len := s.buf.length, seq := ⟨.pad, 0, 0⟩ } := by
  obtain ⟨-, -, -, hd, hx⟩ := (stageLegal_encode hp).1 L.stage
  exact L.inCall (by rw [hp]; rfl) rfl L.digestForm L.hexForm
    ((stageLegal_pad rfl).2 ⟨rfl, hm, hd, hx, .inl ⟨rfl, rfl⟩⟩)

/-- PAD80 and PADZ append one byte, and BUF stays short of the length field's place or reaches it exactly. -/
theorem Legal.padByte (L : Legal s) (hp : s.seq.phase = .pad) (b : Byte)
    (h : s.seq.sub = 0 ∨ s.seq.sub = 1 ∧ s.buf.length % 64 ≠ 56) :
    Legal { s with buf := s.buf ++ [b], seq := ⟨.pad, 1, 0⟩ } := by
  obtain ⟨-, hl, hd, hx, hb⟩ := (stageLegal_pad hp).1 L.stage
  have hz : zeroCount s.len = (119 - s.len % 64) % 64 := rfl
  have hlen : s.len + 1 ≤ (s.buf ++ [b]).length ∧ (s.buf ++ [b]).length ≤ s.len + 1 + zeroCount s.len := by
    rw [List.length_append, List.length_singleton]; omega
  exact L.inCall (by rw [hp]; rfl) rfl L.digestForm L.hexForm
    ((stageLegal_pad rfl).2 ⟨rfl, hl, hd, hx, .inr ⟨rfl, hlen⟩⟩)

/-- PADLEN completes the last block: NBLK is the closed form of R144. -/
theorem Legal.padLength (L : Legal s) (hp : s.seq.phase = .pad) (h1 : s.seq.sub = 1) (hm : s.buf.length % 64 = 56) :
    Legal { s with
      buf := s.buf ++ lengthField s.len, nblk := (s.buf.length + 8) / 64, blk := 0, seq := ⟨.sched, 0, 0⟩ } := by
  obtain ⟨-, hl, hd, hx, hb⟩ := (stageLegal_pad hp).1 L.stage
  have hz : zeroCount s.len = (119 - s.len % 64) % 64 := rfl
  have hlen : s.buf.length = s.len + 1 + zeroCount s.len := by omega
  have hn : (s.buf.length + 8) / 64 = (s.len + 72) / 64 := by omega
  have hbuf : (s.buf ++ lengthField s.len).length = 64 * ((s.buf.length + 8) / 64) := by
    rw [List.length_append, lengthField_length]; omega
  exact L.inCall (by rw [hp]; rfl) rfl L.digestForm L.hexForm
    ((stageLegal_sched rfl).2
      ⟨⟨hl, hn, hbuf⟩, (by omega : 0 < (s.buf.length + 8) / 64), hd, hx, .inl ⟨rfl, Nat.zero_le _⟩⟩)

/-- After WLOAD `j` the sequencer is at a load or at the first expansion. -/
theorem seqAfterWload_place {j : Nat} (hj : j ≤ 15) : (seqAfterWload j).phase = .sched ∧
    (((seqAfterWload j).sub = 0 ∧ (seqAfterWload j).idx ≤ 15) ∨
      ((seqAfterWload j).sub = 1 ∧ 16 ≤ (seqAfterWload j).idx ∧ (seqAfterWload j).idx ≤ 67)) := by
  unfold seqAfterWload
  split
  · exact ⟨rfl, .inl ⟨rfl, (by omega : j + 1 ≤ 15)⟩⟩
  · exact ⟨rfl, .inr ⟨rfl, by decide, by decide⟩⟩

/-- After WEXP `j` the sequencer is at an expansion or at the first WPRIME. -/
theorem seqAfterWexp_place {j : Nat} (hj : 16 ≤ j ∧ j ≤ 67) : (seqAfterWexp j).phase = .sched ∧
    (((seqAfterWexp j).sub = 1 ∧ 16 ≤ (seqAfterWexp j).idx ∧ (seqAfterWexp j).idx ≤ 67) ∨
      ((seqAfterWexp j).sub = 2 ∧ (seqAfterWexp j).idx ≤ 63)) := by
  unfold seqAfterWexp
  split
  · exact ⟨rfl, .inl ⟨rfl, (by omega : 16 ≤ j + 1), (by omega : j + 1 ≤ 67)⟩⟩
  · exact ⟨rfl, .inr ⟨rfl, by decide⟩⟩

/-- A word of W written, the sequencer moving on inside SCHED. -/
theorem Legal.scheduleW (L : Legal s) (hp : s.seq.phase = .sched) (w : Vector Word 68) (q : Seq) (hq : q.phase = .sched)
    (hi : (q.sub = 0 ∧ q.idx ≤ 15) ∨ (q.sub = 1 ∧ 16 ≤ q.idx ∧ q.idx ≤ 67) ∨ (q.sub = 2 ∧ q.idx ≤ 63)) :
    Legal { s with w := w, seq := q } := by
  obtain ⟨hb, hk, hd, hx, -⟩ := (stageLegal_sched hp).1 L.stage
  exact L.inCall (by rw [hp]; rfl) (by rw [hq]; rfl) L.digestForm L.hexForm
    ((stageLegal_sched hq).2 ⟨hb, hk, hd, hx, hi⟩)

/-- A word of Wp written; after the last the block is ready for compression. -/
theorem Legal.scheduleWp (L : Legal s) (hp : s.seq.phase = .sched) (wp : Vector Word 64) {j : Nat} (hj : j ≤ 63) :
    Legal { s with wp := wp, seq := seqAfterWprime j } := by
  obtain ⟨hb, hk, hd, hx, -⟩ := (stageLegal_sched hp).1 L.stage
  have hs : s.seq.phase.isBusy = true := by rw [hp]; rfl
  unfold seqAfterWprime
  split
  · exact L.inCall hs rfl L.digestForm L.hexForm
      ((stageLegal_sched rfl).2 ⟨hb, hk, hd, hx, .inr (.inr ⟨rfl, (by omega : j + 1 ≤ 63)⟩)⟩)
  · exact L.inCall hs rfl L.digestForm L.hexForm
      ((stageLegal_compress rfl).2 ⟨hb, hk, hd, hx, .inl ⟨rfl, rfl⟩⟩)

/-- A..H written, the sequencer moving on inside COMPRESS. -/
theorem Legal.compressWork (L : Legal s) (hp : s.seq.phase = .compress) (r : Work) (q : Seq) (hq : q.phase = .compress)
    (hi : (q.sub = 1 ∧ q.idx ≤ 63) ∨ (q.sub = 2 ∧ q.idx = 0)) : Legal { s with work := r, seq := q } := by
  obtain ⟨hb, hk, hd, hx, -⟩ := (stageLegal_compress hp).1 L.stage
  exact L.inCall (by rw [hp]; rfl) (by rw [hq]; rfl) L.digestForm L.hexForm
    ((stageLegal_compress hq).2 ⟨hb, hk, hd, hx, .inr hi⟩)

/-- After a round the sequencer is at the next round or at CFEED. -/
theorem seqAfterRound_place {j : Nat} (hj : j ≤ 63) : (seqAfterRound j).phase = .compress ∧
    (((seqAfterRound j).sub = 1 ∧ (seqAfterRound j).idx ≤ 63) ∨
      ((seqAfterRound j).sub = 2 ∧ (seqAfterRound j).idx = 0)) := by
  unfold seqAfterRound
  split
  · exact ⟨rfl, .inl ⟨rfl, (by omega : j + 1 ≤ 63)⟩⟩
  · exact ⟨rfl, .inr ⟨rfl, rfl⟩⟩

/-- CFEED goes on to the next block, or after the last one to FORMAT. -/
theorem Legal.feedBack (L : Legal s) (hp : s.seq.phase = .compress) (v : Vector Word 8) :
    Legal { s with
      v := v, blk := s.blk + 1, seq := if s.blk + 1 < s.nblk then ⟨.sched, 0, 0⟩ else ⟨.format, 0, 0⟩ } := by
  obtain ⟨hb, hk, hd, hx, -⟩ := (stageLegal_compress hp).1 L.stage
  have hs : s.seq.phase.isBusy = true := by rw [hp]; rfl
  split
  · next hlt =>
    exact L.inCall hs rfl L.digestForm L.hexForm
      ((stageLegal_sched rfl).2 ⟨hb, hlt, hd, hx, .inl ⟨rfl, Nat.zero_le _⟩⟩)
  · next hge =>
    exact L.inCall hs rfl L.digestForm L.hexForm
      ((stageLegal_format rfl).2 ⟨rfl, hb, (by omega : s.blk + 1 = s.nblk), .inl ⟨rfl, hd, hx⟩⟩)

/-- A run of `n` bytes written from index 0 stays in canonical form below `n`. -/
theorem writeBytes_form {m : Memory} {n : Nat} {bs : List Byte} (hm : m.wf ∧ ∀ c ∈ m, c.1 < n) (hl : bs.length = n) :
    (m.writeBytes 0 bs).wf ∧ ∀ c ∈ m.writeBytes 0 bs, c.1 < n := by
  refine ⟨writeBytes_wf hm.1 0 bs, fun c hc => ?_⟩
  rcases mem_writeBytes hc with ⟨-, h⟩ | h
  · omega
  · exact hm.2 c h

/-- After DSER the digest space holds the digest of V. -/
theorem readBytes_digest (m : Memory) (v : Vector Word 8) :
    (m.writeBytes 0 (digestOf v)).readBytes 0 32 = some (digestOf v) := by
  simpa using readBytes_writeBytes m 0 (digestOf v)

/-- After DHEX the character space holds the rendering of 32 bytes. -/
theorem readBytes_hex (m : Memory) {ds : List Byte} (h : ds.length = 32) :
    (m.writeBytes 0 (hexImage ds)).readBytes 0 64 = some (hexImage ds) := by
  simpa [h] using readBytes_writeBytes m 0 (hexImage ds)

/-- DSER. -/
theorem Legal.writeDigest (L : Legal s) (hp : s.seq.phase = .format) (h0 : s.seq.sub = 0) :
    Legal { s with digest := s.digest.writeBytes 0 (digestOf s.v), seq := ⟨.format, 1, 0⟩ } := by
  obtain ⟨-, hb, hk, hst⟩ := (stageLegal_format hp).1 L.stage
  have hx : s.hex = [] := by
    rcases hst with ⟨-, -, hx⟩ | ⟨h1, -⟩ | ⟨h2, -⟩
    · exact hx
    · omega
    · omega
  exact L.inCall (by rw [hp]; rfl) rfl (writeBytes_form L.digestForm (digestOf_length _))
    L.hexForm
    ((stageLegal_format rfl).2 ⟨rfl, hb, hk, .inr (.inl ⟨rfl, readBytes_digest _ _, hx⟩)⟩)

/-- DHEX. -/
theorem Legal.writeHex (L : Legal s) (hp : s.seq.phase = .format) (h1 : s.seq.sub = 1) {ds : List Byte}
    (hr : s.digest.readBytes 0 32 = some ds) :
    Legal { s with hex := s.hex.writeBytes 0 (hexImage ds), seq := ⟨.format, 2, 0⟩ } := by
  obtain ⟨-, hb, hk, hst⟩ := (stageLegal_format hp).1 L.stage
  have hd : s.digest.readBytes 0 32 = some (digestOf s.v) := by
    rcases hst with ⟨h0, -⟩ | ⟨-, hd, -⟩ | ⟨-, hd, -⟩
    · omega
    · exact hd
    · exact hd
  obtain rfl : ds = digestOf s.v := Option.some.inj (hr.symm.trans hd)
  have hl : (hexImage (digestOf s.v)).length = 64 := by simp
  exact L.inCall (by rw [hp]; rfl) rfl L.digestForm (writeBytes_form L.hexForm hl)
    ((stageLegal_format rfl).2 ⟨rfl, hb, hk, .inr (.inr ⟨rfl, hd, readBytes_hex _ (by simp)⟩)⟩)

/-- FINISH. -/
theorem Legal.finish (L : Legal s) (hp : s.seq.phase = .format) (h2 : s.seq.sub = 2) :
    Legal { s with busy := false, done := true, seq := { s.seq with phase := .done } } := by
  obtain ⟨-, -, -, hst⟩ := (stageLegal_format hp).1 L.stage
  have hres : holdsResult s.digest s.hex := by
    rcases hst with ⟨h0, -⟩ | ⟨h1, -⟩ | ⟨-, hd, hx⟩
    · omega
    · omega
    · exact ⟨_, hd, hx⟩
  have hf : s.fault = false := by rw [L.flags.2.2, hp]; rfl
  have hr := L.report
  rw [if_neg (by rw [hp]; decide)] at hr
  exact
    { params := L.params
      digestForm := L.digestForm
      hexForm := L.hexForm
      flags := ⟨rfl, rfl, hf⟩
      report := hr
      place := L.place
      stage := hres }

/-- An operation issued in a legal state leads to a legal state. -/
theorem Legal.exec_issued {i : Instr} (L : Legal s) (hi : Issues s i) (h : exec i s = .next t) : Legal t := by
  have he := effect_of_exec h
  cases hi with
  | enc1 u hp hu =>
    cases he
    exact L.encodeChar hp _ (List.getElem?_eq_some_iff.1 hu).1
  | enc2 u hp hu =>
    cases he
    exact L.encodeChar hp _ (List.getElem?_eq_some_iff.1 hu).1
  | enc3 u hp hu =>
    cases he
    exact L.encodeChar hp _ (List.getElem?_eq_some_iff.1 hu).1
  | enc4 u lo hp hu hc hl =>
    cases he with
    | enc4 => exact L.encodeChar hp _ (List.getElem?_eq_some_iff.1 (pairLow_next hl)).1
    | enc4_raise => exact L.raise (.inl rfl) _
  | encend hp =>
    cases he with
    | encend _ hm => exact L.latchLen hp hm
    | encend_raise => exact L.raise (.inr rfl) _
  | pad80 hp h0 => cases he; exact L.padByte hp _ (.inl h0)
  | padz hp h1 hm => cases he; exact L.padByte hp _ (.inr ⟨h1, hm⟩)
  | padlen hp h1 hm => cases he; exact L.padLength hp h1 hm
  | wload j hp =>
    cases he with
    | wload _ x hj =>
      obtain ⟨hq, hi⟩ := seqAfterWload_place hj
      exact L.scheduleW hp _ _ hq (hi.imp_right .inl)
  | wexp j hp =>
    cases he with
    | wexp _ hj =>
      obtain ⟨hq, hi⟩ := seqAfterWexp_place hj
      exact L.scheduleW hp _ _ hq (.inr hi)
  | wprime j hp =>
    cases he with
    | wprime _ hj => exact L.scheduleWp hp _ hj
  | cinit hp => cases he; exact L.compressWork hp _ _ rfl (.inl ⟨rfl, Nat.zero_le _⟩)
  | roundl j hp =>
    cases he with
    | roundl _ hj =>
      obtain ⟨hq, hi⟩ := seqAfterRound_place (Nat.le_trans hj (by decide))
      exact L.compressWork hp _ _ hq hi
  | roundh j hp =>
    cases he with
    | roundh _ hj =>
      obtain ⟨hq, hi⟩ := seqAfterRound_place (hj.2)
      exact L.compressWork hp _ _ hq hi
  | cfeed hp => cases he; exact L.feedBack hp _
  | dser hp h0 => cases he; exact L.writeDigest hp h0
  | dhex hp h1 =>
    cases he with
    | dhex ds hr => exact L.writeHex hp h1 hr
  | finish hp h2 => cases he; exact L.finish hp h2

/-- A move of the engine keeps Legal. -/
theorem Legal.engineStep (L : Legal s) (h : engineStep s = .next t) : Legal t := by
  rcases engineStep_cases h with ⟨-, rfl⟩ | ⟨i, hi, he⟩ | ⟨cause, info, hr, rfl⟩
  · exact L
  · exact L.exec_issued (issues_of_select hi) he
  · exact L.raise (.inl (cause_of_select_raise hr)) info

/-- Every step keeps Legal, whatever the host does. -/
theorem Legal.step (L : Legal s) (h : step s = .next t) : Legal t := by
  rcases step_cases h with ⟨c, i, -, hd, he⟩ | ⟨-, ⟨rest, -, he⟩ | ⟨rest, -, -, he⟩ | ⟨units, rest, -, hb, rfl⟩ |
    ⟨rest, -, rfl⟩⟩
  · obtain ⟨x, hx⟩ := exec_of_decode_alu hd s
    obtain rfl := Host.Outcome.next.inj (hx.symm.trans he)
    exact L.answerAlu x
  · exact (L.setHost rest).engineStep he
  · exact (L.setHost rest).exec_start he
  · exact (L.setHost rest).setText hb units
  · exact (L.setHost rest).hardReset

/-- Settles O43: each kind of step keeps the invariant. -/
theorem stepKeepsLegal : Obligations.StepKeepsLegal := fun _ _ L h => L.step h

end Sys2Proof.Machine
end

section
/-! SUPPORT. Two engines in the same call (R34, R36, R198): they agree on what the call has written, so they make the same
steps, whatever earlier calls left in the rest. -/

namespace Sys2Proof.Machine

variable {s s' t t' u : State} {i : Instr} {e : Elem}

theorem agree_symm (h : agree e s t) : agree e t s := by
  cases e with
  | report =>
    obtain ⟨h1, h2, h3, h4, h5⟩ := h
    exact ⟨h1.symm, h2.symm, h3.symm, h4.symm, h5.symm⟩
  | _ => exact h.symm

theorem agree_trans (h : agree e s t) (k : agree e t u) : agree e s u := by
  cases e with
  | report =>
    obtain ⟨h1, h2, h3, h4, h5⟩ := h
    obtain ⟨k1, k2, k3, k4, k5⟩ := k
    exact ⟨h1.trans k1, h2.trans k2, h3.trans k3, h4.trans k4, h5.trans k5⟩
  | _ => exact Eq.trans h k

/-- A fault raised in both leaves every element the same that was. -/
theorem agree_raise_raise (hseq : s.seq = s'.seq) (h : agree e s s') (c : BitVec 2) (n : Nat) :
    agree e (s.raise c n) (s'.raise c n) := by
  cases e with
  | report => exact agree_raise hseq c n (.inl rfl)
  | seq => exact agree_raise hseq c n (.inr rfl)
  | _ => exact h

/-- An operation of the sequencer leaves the ALU port alone. -/
theorem Issues.aluReq_eq (hi : Issues s i) (he : Effect s i t) : t.aluReq = s.aluReq := by
  cases hi <;> cases he <;> rfl

/-- Two engines at the same point of a call, with nothing more to come from outside: the first is legal, and they agree on
the sequencer, on what has been written in the call and on the elements operations overwrite in part. -/
structure SameCall (s s' : State) : Prop where
  legal : Legal s
  still : s.aluReq = none ∧ s.host = []
  still' : s'.aluReq = none ∧ s'.host = []
  written : ∀ e, writtenAt s.seq e = true → agree e s s'
  outside : SameOutside s s'

/-- R193 rows 3 to 8 select on the policy, TEXT and TPOS. -/
theorem selectEncode_congr (hg : s.cfg = s'.cfg) (hx : s.text = s'.text) (ht : s.tpos = s'.tpos) :
    selectEncode s = selectEncode s' := by
  unfold selectEncode State.unit? State.numUnits
  rw [hg, hx, ht]

/-- R193 selects on elements the call has written. -/
theorem SameCall.select_eq (h : SameCall s s') : select s' = select s := by
  have hq : s.seq = s'.seq := h.outside.seq
  have hb : s.buf = s'.buf := h.outside.buf
  have hx : s.text = s'.text := h.written .text rfl
  have hg : s.cfg = s'.cfg := h.written .cfg rfl
  cases hp : s.seq.phase with
  | encode =>
    have ht : s.tpos = s'.tpos := h.written .tpos (by simp [writtenAt, hp, Phase.isBusy])
    rw [select_encode hp, select_encode (hq ▸ hp)]
    exact (selectEncode_congr hg hx ht).symm
  | pad => rw [select_pad hp, select_pad (hq ▸ hp), selectPad, selectPad, hq, hb]
  | sched | compress | format | idle | done | faulted => simp only [select, ← hq, hp]

/-- An issued operation that completes in both leaves the same in an element it writes, and in one it does not write if
that was the same before; LEN needs that no fault was raised. -/
theorem agree_after (he : Effect s i t) (he' : Effect s' i t') (hw : SameWrites i s t s' t')
    (hf : e = .len → t.fault = false) (h : writes i e = false → agree e s s') : agree e t t' := by
  cases hwe : writes i e with
  | false =>
    exact agree_trans (agree_symm (he.agree_of_not_writes e hwe))
      (agree_trans (h hwe) (he'.agree_of_not_writes e hwe))
  | true =>
    rcases hw e hwe with ha | ⟨-, hl, hft, -⟩
    · exact ha
    · rw [hf hl] at hft; cases hft

/-- After an issued operation the engines are still at the same point of the call. -/
theorem SameCall.exec_issued (h : SameCall s s') (hs : select s = .issue i) (he : exec i s = .next t) :
    ∃ t', exec i s' = .next t' ∧ SameCall t t' := by
  have hi := issues_of_select hs
  have hi' := issues_of_select (h.select_eq.trans hs)
  have hne : i ≠ .start := by rintro rfl; cases hi
  have eff := effect_of_exec he
  obtain ⟨t', he', hw⟩ := eff.transfer hne (fun e hr => h.written e (hi.written_of_reads e hr)) h.outside
  have eff' := effect_of_exec he'
  have L : Legal t := h.legal.exec_issued hi he
  have after : ∀ e, e ≠ .len → agree e s s' → agree e t t' := fun e hl ha =>
    agree_after eff eff' hw (fun hl' => absurd hl' hl) fun _ => ha
  refine ⟨t', he',
    { legal := L
      still := ⟨(hi.aluReq_eq eff).trans h.still.1, eff.host_eq.trans h.still.2⟩
      still' := ⟨(hi'.aluReq_eq eff').trans h.still'.1, eff'.host_eq.trans h.still'.2⟩
      written := fun e hn => agree_after eff eff' hw ?_ fun hwe => ?_
      outside :=
        { buf := after .buf nofun h.outside.buf
          digest := after .digest nofun h.outside.digest
          hex := after .hex nofun h.outside.hex
          report := after .report nofun h.outside.report
          seq := after .seq nofun h.outside.seq } }⟩
  · rintro rfl
    rw [L.flags.2.2]
    cases hp : t.seq.phase <;> simp_all [writtenAt]
  · rcases hi.written_before eff e hn with hb | hb
    · exact h.written e hb
    · rw [hwe] at hb; cases hb

/-- A fault raised by the sequencer leaves the engines at the same point. -/
theorem SameCall.raise (h : SameCall s s') {c : BitVec 2} (hc : c = causeEncSurrogate ∨ c = causeLenRange) (n : Nat) :
    SameCall (s.raise c n) (s'.raise c n) where
  legal := h.legal.raise hc n
  still := h.still
  still' := h.still'
  written e hn := agree_raise_raise h.outside.seq (h.written e (writtenAt_faulted _ e hn)) c n
  outside :=
    { buf := h.outside.buf
      digest := h.outside.digest
      hex := h.outside.hex
      report := agree_raise h.outside.seq c n (.inl rfl)
      seq := agree_raise h.outside.seq c n (.inr rfl) }

/-- A step of the first is a step of the second, and they stay at the same point. -/
theorem SameCall.step (h : SameCall s s') (hs : step s = .next t) : ∃ t', step s' = .next t' ∧ SameCall t t' := by
  rw [step_quiet_host h.still.1 h.still.2] at hs
  rw [step_quiet_host h.still'.1 h.still'.2]
  rcases engineStep_cases hs with ⟨hq, rfl⟩ | ⟨i, hi, he⟩ | ⟨c, n, hr, rfl⟩
  · exact ⟨s', engineStep_quiet (h.select_eq.trans hq), h⟩
  · rw [engineStep_issue (h.select_eq.trans hi)]
    exact h.exec_issued hi he
  · exact ⟨_, engineStep_raise (h.select_eq.trans hr), h.raise (.inl (cause_of_select_raise hr)) n⟩

/-- So is a run. -/
theorem SameCall.run (h : SameCall s s') {n : Nat} (hr : Host.Core.run core n s = .next t) :
    ∃ t', Host.Core.run core n s' = .next t' ∧ SameCall t t' := by
  induction n generalizing s s' with
  | zero =>
    obtain rfl := Host.Outcome.next.inj ((run_zero s).symm.trans hr)
    exact ⟨s', run_zero s', h⟩
  | succ n ih =>
    obtain ⟨u, hs, hu⟩ := run_split hr
    obtain ⟨u', hs', h'⟩ := h.step hs
    rw [run_succ n hs']
    exact ih h' hu

/-- Engines at the same point of a call show the host the same. -/
theorem SameCall.observed_eq (h : SameCall s s') : s'.status = s.status ∧ s'.observed = s.observed := by
  obtain ⟨hb, hd, hf, hc, hn⟩ := h.outside.report
  simp only [State.status, State.observed, State.hostDigest, State.hostHex, ← hb, ← hd, ← hf, ← hc, ← hn,
    ← h.outside.digest, ← h.outside.hex, and_self]

/-- An accepted command puts engines with the same parameters and TEXT at the same point of a call. -/
theorem SameCall.of_start (L : Legal s) (ha : s.aluReq = none) (ha' : s'.aluReq = none) (hh : s.host = [])
    (hh' : s'.host = []) (hc : s.cfg = s'.cfg) (hx : s.text = s'.text) (he : exec .start s = .next t) :
    ∃ t', exec .start s' = .next t' ∧ SameCall t t' := by
  obtain ⟨t', he', hw⟩ := exec_start_agree hc he
  refine ⟨t', he', ?_⟩
  have L' := L.exec_start he
  cases effect_of_exec he with
  | start =>
    cases effect_of_exec he' with
    | start =>
      refine
        { legal := L'
          still := ⟨ha, hh⟩
          still' := ⟨ha', hh'⟩
          written := fun e hn => ?_
          outside := ⟨rfl, rfl, rfl, ⟨rfl, rfl, rfl, rfl, rfl⟩, rfl⟩ }
      cases hwe : writes .start e with
      | true => exact hw e hwe hn
      | false =>
        obtain rfl | rfl : e = .cfg ∨ e = .text := by cases e <;> simp_all [writes]
        · exact hc
        · exact hx

/-- The step in which a command is accepted is START. -/
theorem step_hash (ha : s.aluReq = none) (hh : s.host = [.hash]) (hb : s.seq.phase.isBusy = false) :
    step s = exec .start (s.setHost []) := by
  rw [step_host ha hh]
  exact hostStep_hash_idle hb

/-- Settles O53: the engines are at the same point of the call after START, and every step keeps them there. -/
theorem aCallIsIndependentOfEarlierCalls : Obligations.ACallIsIndependentOfEarlierCalls := by
  intro s s' L _ hb hb' ha ha' hh hh' hc hx n t hr
  obtain ⟨u, hs, hu⟩ := run_split hr
  rw [step_hash ha hh hb] at hs
  obtain ⟨u', hs', h⟩ := SameCall.of_start (s' := s'.setHost []) (L.setHost []) ha ha' rfl rfl hc hx hs
  rw [← step_hash ha' hh' hb'] at hs'
  obtain ⟨t', ht', h'⟩ := h.run hu
  obtain ⟨hst, hob⟩ := h'.observed_eq
  exact ⟨t', (run_succ n hs').trans ht', h'.outside.seq.symm, hst, hob⟩

end Sys2Proof.Machine
end

section
/-! SUPPORT. The ALU port and the reset state: the answers of ALU functions evaluated by themselves, and the state after
power-on. -/

namespace Sys2Proof.Machine

/-- R107 with the bit vectors' own rotation. -/
theorem p0_eq (x : Word) : p0 x = x ^^^ x.rotateLeft 9 ^^^ x.rotateLeft 17 := by
  rw [p0, rotl_eq x (by decide), rotl_eq x (by decide), xor32, xor32]

/-- R108 with the bit vectors' own rotation. -/
theorem p1_eq (x : Word) : p1 x = x ^^^ x.rotateLeft 15 ^^^ x.rotateLeft 23 := by
  rw [p1, rotl_eq x (by decide), rotl_eq x (by decide), xor32, xor32]

/-- Settles O8: each function answers its request, and its value is the rule's. -/
theorem aluFunctionsCompleteAndTouchNoState : Obligations.AluFunctionsCompleteAndTouchNoState := by
  intro s x y z n j
  refine ⟨rfl, rfl, rfl, rfl, rfl, ?_, ?_, ?_, rfl, rfl, rfl, rfl, rfl⟩
  · rw [← rotl_eq x n.isLt]; rfl
  · rw [← p0_eq]; rfl
  · rw [← p1_eq]; rfl

/-- Settles O41: the values R35 states. -/
theorem resetIsIdleWithoutResult : Obligations.ResetIsIdleWithoutResult :=
  ⟨rfl, rfl, rfl, rfl, rfl, rfl, rfl, rfl⟩

/-- Settles O42: nothing is listed in DIGEST and HEX, and the phase is IDLE. -/
theorem resetIsLegal : Obligations.ResetIsLegal where
  params := decide_eq_true (Nat.le_refl _)
  digestForm := ⟨.nil, nofun⟩
  hexForm := ⟨.nil, nofun⟩
  flags := ⟨rfl, rfl, rfl⟩
  report := ⟨rfl, rfl⟩
  place := ⟨Nat.zero_le _, Nat.zero_le _⟩
  stage := trivial

end Sys2Proof.Machine
end

section
/-! SUPPORT. Where operations stop: executed out of their place, and sequencer states without a row (log entries 4, 12, 13,
14). -/

namespace Sys2Proof.Machine

variable {s : State}

/-! ## Operations out of their place -/

/-- TEXT has no unit past its end. -/
theorem text_end (h : s.text.length ≤ s.tpos) : s.unit? s.tpos = none := List.getElem?_eq_none h

theorem encodeUnit_end (h : s.text.length ≤ s.tpos) (cls : UnitClass) (form : Nat → List Byte) :
    encodeUnit cls form s = .fault .textIndex := by
  simp only [encodeUnit, text_end h]

theorem execEnc4_end (h : s.text.length ≤ s.tpos) : execEnc4 s = .fault .textIndex := by
  simp only [execEnc4, text_end h]

theorem encodeUnit_other {u : CodeUnit} {cls : UnitClass} (hu : s.text[s.tpos]? = some u) (hc : classify u ≠ cls)
    (form : Nat → List Byte) : encodeUnit cls form s = .refused .notSelected := by
  simp only [encodeUnit, State.unit?, hu, if_neg hc]

theorem execEnc4_other {u : CodeUnit} (hu : s.text[s.tpos]? = some u) (hc : classify u ≠ .surrogate) :
    execEnc4 s = .refused .notSelected := by
  simp only [execEnc4, State.unit?, hu, if_neg hc]

theorem execWload_short {j : BitVec 7} (hj : j.toNat ≤ 15) (h : s.buf.length ≤ 64 * s.blk + 4 * j.toNat + 3) :
    execWload j s = .fault .bufIndex := by
  have hn : messageWord s.buf s.blk j.toNat = none := by
    rw [← Option.not_isSome_iff_eq_none, messageWord_isSome]; omega
  simp only [execWload, dif_pos hj, hn]

theorem execCfeed_beyond (h : s.nblk < s.blk + 1) : execCfeed s = .refused .noTransition := by
  have hn : seqAfterCfeed s.blk s.nblk = none := by
    rw [seqAfterCfeed, if_neg (by omega), if_neg (by omega)]
  simp only [execCfeed, hn]

theorem execDhex_unwritten {k : Nat} (hk : k < 32) (h : s.digest.read k = none) :
    execDhex s = .fault .digestUnwritten := by
  have hn : s.digest.readBytes 0 32 = none := by
    rw [Option.eq_none_iff_forall_ne_some]
    intro bs hbs
    obtain ⟨hl, hr⟩ := readBytes_eq_some_iff.1 hbs
    have := hr k hk
    rw [Nat.zero_add, h, List.getElem?_eq_getElem (by omega)] at this
    cases this
  simp only [execDhex, hn]

/-! ## Sequencer states without a row (R193) -/

theorem select_encode_outside (hp : s.seq.phase = .encode) (h : s.text.length < s.tpos) : select s = .outside := by
  have hne : s.tpos ≠ s.numUnits := Nat.ne_of_gt h
  rw [select_encode hp, selectEncode, if_neg hne, text_end (Nat.le_of_lt h)]

theorem select_pad_outside (hp : s.seq.phase = .pad) (h : 2 ≤ s.seq.sub) : select s = .outside := by
  rw [select_pad hp, selectPad]
  split
  · omega
  · omega
  · rfl

theorem select_sched_outside (hp : s.seq.phase = .sched)
    (h : (s.seq.sub = 0 ∧ 16 ≤ s.seq.idx) ∨ (s.seq.sub = 1 ∧ (s.seq.idx < 16 ∨ 68 ≤ s.seq.idx)) ∨
      (s.seq.sub = 2 ∧ 64 ≤ s.seq.idx) ∨ 3 ≤ s.seq.sub) : select s = .outside := by
  rw [select_sched hp, selectSched]
  split
  · rw [if_neg (by omega)]
  · rw [if_neg (by omega)]
  · rw [if_neg (by omega)]
  · rfl

theorem select_compress_outside (hp : s.seq.phase = .compress)
    (h : (s.seq.sub = 1 ∧ 64 ≤ s.seq.idx) ∨ 3 ≤ s.seq.sub) : select s = .outside := by
  rw [select_compress hp, selectCompress]
  split
  · omega
  · rw [if_neg (by omega), if_neg (by omega)]
  · omega
  · rfl

theorem select_format_outside (hp : s.seq.phase = .format) (h : 3 ≤ s.seq.sub) : select s = .outside := by
  rw [select_format hp, selectFormat]
  split
  · omega
  · omega
  · omega
  · rfl

/-- Settles O34: each operation by the condition its meaning tests, each phase by its rows. -/
theorem operationsOutOfPlaceStop : Obligations.OperationsOutOfPlaceStop := by
  intro s
  refine ⟨fun h i hi => ?_, fun u hu => ⟨fun h => ?_, fun h => ?_, fun h => ?_, fun h => ?_⟩, fun h => ?_, fun h => ?_,
    fun h => ?_, fun j hj h => execWload_short hj h, execCfeed_beyond, fun k hk h => execDhex_unwritten hk h,
    fun ha hh h => ?_⟩
  · obtain rfl | rfl | rfl | rfl : i = .enc1 ∨ i = .enc2 ∨ i = .enc3 ∨ i = .enc4 := by simpa using hi
    · exact encodeUnit_end h _ _
    · exact encodeUnit_end h _ _
    · exact encodeUnit_end h _ _
    · exact execEnc4_end h
  · exact encodeUnit_other hu (by rw [ne_eq, classify_oneByte_iff]; omega) _
  · exact encodeUnit_other hu (by rw [ne_eq, classify_twoByte_iff]; omega) _
  · exact encodeUnit_other hu (by rw [ne_eq, classify_threeByte_iff]; omega) _
  · exact execEnc4_other hu (by rwa [ne_eq, classify_surrogate_iff])
  · exact if_neg h
  · exact if_pos h
  · exact if_neg h
  · rw [step_quiet_host ha hh]
    rcases h with ⟨hp, h⟩ | ⟨hp, h⟩ | ⟨hp, h⟩ | ⟨hp, h⟩ | ⟨hp, h⟩
    · exact engineStep_outside (select_encode_outside hp h)
    · exact engineStep_outside (select_pad_outside hp h)
    · exact engineStep_outside (select_sched_outside hp h)
    · rcases h with h | ⟨h2, h⟩ | h
      · exact engineStep_outside (select_compress_outside hp (.inl h))
      · rw [engineStep_issue (select_cfeed hp h2)]; exact execCfeed_beyond h
      · exact engineStep_outside (select_compress_outside hp (.inr h))
    · exact engineStep_outside (select_format_outside hp h)

end Sys2Proof.Machine
end

section
/-! SUPPORT. Operations of the opcode table, placed to be the next one (log entries 9, 16): what the decoder gives is well
formed, and the placed state issues it and lets it complete. -/

namespace Sys2Proof

/-! ## The decoder gives well-formed operations (R82) -/

theorem wellFormed_of_plainOp {op : BitVec 5} {idx : BitVec 7} {i k : Instr} (hi : i.wellFormed = true)
    (h : plainOp op idx i = .instr k) : k.wellFormed = true := by
  unfold plainOp at h
  split at h <;> cases h
  exact hi

theorem wellFormed_of_indexedOp {op : BitVec 5} {idx : BitVec 7} {i k : Instr} (h : indexedOp op idx i = .instr k) :
    k.wellFormed = true := by
  unfold indexedOp at h
  split at h
  · next hi => cases h; exact hi
  · cases h

theorem wellFormed_of_decodeOp {op : BitVec 5} {idx : BitVec 7} {i : Instr} (h : decodeOp op idx = .instr i) :
    i.wellFormed = true := by
  unfold decodeOp at h
  split at h
  -- The rows of WLOAD, WEXP, WPRIME, ROUNDL and ROUNDH have an index; the last arm is that of the reserved `op`.
  case h_10 | h_11 | h_12 | h_14 | h_15 => exact wellFormed_of_indexedOp h
  case h_20 => cases h
  all_goals exact wellFormed_of_plainOp rfl h

theorem wellFormed_of_decode {c : Code} {i : Instr} (h : decode c = .instr i) : i.wellFormed = true := by
  cases c with
  | seq scw => exact wellFormed_of_decodeOp h
  | alu c =>
    simp only [decode, decodeAlu] at h
    split at h <;> cases h <;> rfl

theorem wellFormed_of_decodeTableWord {nbits w : Nat} {i : Instr} (h : decodeTableWord nbits w = some i) :
    i.wellFormed = true := by
  unfold decodeTableWord at h
  split at h
  · next c hc =>
    cases hd : decode c with
    | instr k => rw [hd] at h; cases h; exact wellFormed_of_decode hd
    | rejected why => rw [hd] at h; cases h
  · cases h

/-- The range of an index (R80) by its bounds. -/
theorem idxIn_iff {j : BitVec 7} {lo hi : Nat} : idxIn j lo hi = true ↔ lo ≤ j.toNat ∧ j.toNat ≤ hi := by
  simp [idxIn]

end Sys2Proof

namespace Sys2Proof.Machine

variable {s p : State} {i : Instr}

/-! ## An issued operation completes -/

/-- What WLOAD, CFEED and DHEX need beyond the row that issues them. -/
structure Ready (s : State) (i : Instr) : Prop where
  word : ∀ j, i = .wload j → (messageWord s.buf s.blk j.toNat).isSome = true
  blocks : i = .cfeed → s.blk + 1 ≤ s.nblk
  digest : i = .dhex → (s.digest.readBytes 0 32).isSome = true

/-- An issued operation whose operands exist completes. -/
theorem Issues.completes (hi : Issues s i) (hr : Ready s i) : ∃ t, exec i s = .next t := by
  suffices h : ∃ t, Effect s i t from h.imp fun _ => exec_of_effect
  cases hi with
  | enc1 u _ hu hc => exact ⟨_, .enc1 u hu hc⟩
  | enc2 u _ hu hc => exact ⟨_, .enc2 u hu hc⟩
  | enc3 u _ hu hc => exact ⟨_, .enc3 u hu hc⟩
  | enc4 u lo _ hu hc hl => exact ⟨_, .enc4 u lo hu hc hl⟩
  | encend _ h =>
    rcases Nat.lt_or_ge s.cfg.maxLen s.buf.length with hm | hm
    · exact ⟨_, .encend_raise h hm⟩
    · exact ⟨_, .encend h hm⟩
  | pad80 => exact ⟨_, .pad80⟩
  | padz _ _ hm => exact ⟨_, .padz hm⟩
  | padlen _ _ hm => exact ⟨_, .padlen hm⟩
  | wload j _ _ _ hj =>
    obtain ⟨x, hx⟩ := Option.isSome_iff_exists.1 (hr.word j rfl)
    exact ⟨_, .wload j x hj hx⟩
  | wexp j _ _ _ hj => exact ⟨_, .wexp j hj⟩
  | wprime j _ _ _ hj => exact ⟨_, .wprime j hj⟩
  | cinit => exact ⟨_, .cinit⟩
  | roundl j _ _ _ hj => exact ⟨_, .roundl j hj⟩
  | roundh j _ _ _ hj => exact ⟨_, .roundh j hj⟩
  | cfeed => exact ⟨_, .cfeed (hr.blocks rfl)⟩
  | dser => exact ⟨_, .dser⟩
  | dhex =>
    obtain ⟨ds, hd⟩ := Option.isSome_iff_exists.1 (hr.digest rfl)
    exact ⟨_, .dhex ds hd⟩
  | finish => exact ⟨_, .finish⟩

/-! ## The placed states -/

/-- The next step of `p` is one in which the outside does nothing, `rest` is left of its script, and the sequencer issues
`i`, which completes. -/
structure Placed (p : State) (rest : List HostEvent) (i : Instr) : Prop where
  port : p.aluReq = none
  script : p.host = .wait :: rest
  sel : select p = .issue i
  ready : Ready p i

/-- What the next step of `p` is to be: `i` on `p` with the placed script entry used up, and it completes. -/
def ExecutesNext (p : State) (rest : List HostEvent) (i : Instr) : Prop :=
  step p = exec i { p with host := rest } ∧ ∃ t, step p = .next t

theorem ExecutesNext.of_placed {rest : List HostEvent} (h : Placed p rest i) : ExecutesNext p rest i := by
  have hs : step p = exec i (p.setHost rest) := by
    rw [step_host h.port h.script]
    exact engineStep_issue (s := p.setHost rest) h.sel
  have hi : Issues (p.setHost rest) i := issues_of_select (s := p.setHost rest) h.sel
  have hr : Ready (p.setHost rest) i := ⟨h.ready.word, h.ready.blocks, h.ready.digest⟩
  exact ⟨hs, by rw [hs]; exact hi.completes hr⟩

/-- An ALU function presented at the port (log entry 9). -/
theorem executesNext_alu {c : AluCode} (hd : decode (.alu c) = .instr i) (s : State) :
    ExecutesNext { s with aluReq := some c } s.host i := by
  have hs : step { s with aluReq := some c } = exec i { s with aluReq := some c } := by
    rw [step_alu rfl, aluPortStep, hd]
  obtain ⟨x, hx⟩ := exec_of_decode_alu hd { s with aluReq := some c }
  exact ⟨hs, _, hs.trans hx⟩

/-- START, by a HASH command between calls. -/
theorem executesNext_start {rest : List HostEvent} (ha : p.aluReq = none) (hh : p.host = .hash :: rest)
    (hb : p.seq.phase.isBusy = false) : ExecutesNext p rest .start := by
  have hs : step p = exec .start (p.setHost rest) := by
    rw [step_host ha hh]
    exact hostStep_hash_idle (s := p.setHost rest) hb
  exact ⟨hs, _, hs⟩

/-- The other operations need nothing more. -/
theorem Ready.of_ne (hw : ∀ j, i ≠ .wload j := by nofun) (hc : i ≠ .cfeed := by nofun) (hd : i ≠ .dhex := by nofun) :
    Ready p i :=
  ⟨fun j h => absurd h (hw j), fun h => absurd h hc, fun h => absurd h hd⟩

/-- The sequencer placed. -/
theorem placed_enterAt {q : Seq} (hsel : select (s.enterAt q) = .issue i)
    (hr : Ready (s.enterAt q) i := by exact .of_ne) : Placed (s.enterAt q) s.host i :=
  ⟨rfl, rfl, hsel, hr⟩

/-- An encoder operation placed: TEXT is replaced only where the sequencer would not issue it. -/
theorem placed_withUnitsFor {units : List CodeUnit} (hr : ∀ p, Ready p i)
    (hsel : select { s.enterAt ⟨.encode, 0, 0⟩ with text := units, tpos := 0 } = .issue i) :
    Placed ((s.enterAt ⟨.encode, 0, 0⟩).withUnitsFor i units) s.host i := by
  unfold State.withUnitsFor
  split
  · next h => exact placed_enterAt h (hr _)
  · exact ⟨rfl, rfl, hsel, hr _⟩

/-- PADZ or PADLEN placed: BUF is replaced only where its length does not fit. -/
theorem placed_withResidue {at56 : Bool} {bytes : List Byte} (hr : ∀ p, Ready p i)
    (hsel : ∀ b : List Byte, (b.length % 64 == 56) = at56 →
      select { s.enterAt ⟨.pad, 1, 0⟩ with buf := b } = .issue i)
    (hb : (bytes.length % 64 == 56) = at56) :
    Placed ((s.enterAt ⟨.pad, 1, 0⟩).withResidue at56 bytes) s.host i := by
  unfold State.withResidue
  split
  · next h => exact placed_enterAt (hsel _ h) (hr _)
  · exact ⟨rfl, rfl, hsel _ hb, hr _⟩

/-- The index the sequencer names is the operation's. -/
theorem select_index {op : BitVec 7 → Instr} {j : BitVec 7} (hj : s.seq.idx = j.toNat)
    (h : select s = .issue (op (BitVec.ofNat 7 s.seq.idx))) : select s = .issue (op j) := by
  rw [h, hj, BitVec.ofNat_toNat, BitVec.setWidth_eq]

/-- An indexed operation placed, the sequencer at its index. -/
theorem placed_indexed {op : BitVec 7 → Instr} {ph : Phase} {sub : Nat} {j : BitVec 7}
    (hsel : select (s.enterAt ⟨ph, sub, j.toNat⟩) = .issue (op (BitVec.ofNat 7 j.toNat)))
    (hr : Ready (s.enterAt ⟨ph, sub, j.toNat⟩) (op j) := by exact .of_ne) :
    Placed (s.enterAt ⟨ph, sub, j.toNat⟩) s.host (op j) :=
  placed_enterAt (select_index rfl hsel) hr

/-- WLOAD placed: BUF is replaced only where it has no such word. -/
theorem placed_wload {j : BitVec 7} (hj : j.toNat ≤ 15) (s : State) : Placed (s.placeFor (.wload j)) s.host (.wload j) := by
  simp only [State.placeFor]
  split
  · next h =>
    refine placed_indexed (op := .wload) (select_wload rfl rfl hj) ⟨?_, nofun, nofun⟩
    rintro k ⟨⟩
    exact h
  · refine ⟨rfl, rfl, select_index (op := .wload) rfl (select_wload rfl rfl hj), ?_, nofun, nofun⟩
    rintro k ⟨⟩
    rw [messageWord_isSome, List.length_replicate]
    exact (by omega : 64 * 0 + 4 * j.toNat + 3 < 64)

/-- CFEED placed: NBLK is raised only where the block would be beyond the last. -/
theorem placed_cfeed (s : State) : Placed (s.placeFor .cfeed) s.host .cfeed := by
  simp only [State.placeFor]
  split
  · next h => exact placed_enterAt (select_cfeed rfl rfl) ⟨nofun, fun _ => h, nofun⟩
  · exact ⟨rfl, rfl, select_cfeed rfl rfl, nofun, fun _ => Nat.le_refl _, nofun⟩

/-- DHEX placed: DIGEST is replaced only where a byte of it is not written. -/
theorem placed_dhex (s : State) : Placed (s.placeFor .dhex) s.host .dhex := by
  simp only [State.placeFor]
  split
  · next h => exact placed_enterAt (select_dhex rfl rfl) ⟨nofun, nofun, fun _ => h⟩
  · have hz := readBytes_writeBytes [] 0 (List.replicate 32 0)
    rw [List.length_replicate] at hz
    exact ⟨rfl, rfl, select_dhex rfl rfl, nofun, nofun, fun _ => Option.isSome_iff_exists.2 ⟨_, hz⟩⟩

/-- START placed: the sequencer is moved only out of a call. -/
theorem executesNext_placeFor_start (s : State) : ExecutesNext (s.placeFor .start) s.host .start := by
  refine executesNext_start rfl rfl ?_
  simp only [State.placeFor]
  split
  · rfl
  · next h => exact Bool.eq_false_iff.2 h

/-- A well-formed operation, placed, is what the next step executes. -/
theorem executesNext_placeFor (hi : i.wellFormed = true) (s : State) : ExecutesNext (s.placeFor i) s.host i := by
  cases i with
  | start => exact executesNext_placeFor_start s
  | enc1 => exact .of_placed (placed_withUnitsFor (fun _ => .of_ne) (select_enc1 (u := 0x0000) rfl rfl (by decide)))
  | enc2 => exact .of_placed (placed_withUnitsFor (fun _ => .of_ne) (select_enc2 (u := 0x0080) rfl rfl (by decide)))
  | enc3 => exact .of_placed (placed_withUnitsFor (fun _ => .of_ne) (select_enc3 (u := 0x0800) rfl rfl (by decide)))
  | enc4 =>
    have pair : ∀ p, pairLow p 0xD800 (some 0xDC00) = some 0xDC00 := by rintro (_ | _) <;> decide
    exact .of_placed (placed_withUnitsFor (fun _ => .of_ne) (select_enc4 (u := 0xD800) rfl rfl (by decide) (pair _)))
  | encend => exact .of_placed ⟨rfl, rfl, select_encend rfl rfl, .of_ne⟩
  | pad80 => exact .of_placed (placed_enterAt (select_pad80 rfl rfl))
  | padz =>
    refine .of_placed (placed_withResidue (fun _ => .of_ne) (fun b hb => select_padz rfl rfl ?_) rfl)
    simpa using hb
  | padlen =>
    refine .of_placed (placed_withResidue (fun _ => .of_ne) (fun b hb => select_padlen rfl rfl ?_) rfl)
    simpa using hb
  | wload j => exact .of_placed (placed_wload (idxIn_iff.1 hi).2 s)
  | wexp j => exact .of_placed (placed_indexed (op := .wexp) (select_wexp rfl rfl (idxIn_iff.1 hi)))
  | wprime j => exact .of_placed (placed_indexed (op := .wprime) (select_wprime rfl rfl (idxIn_iff.1 hi).2))
  | cinit => exact .of_placed (placed_enterAt (select_cinit rfl rfl))
  | roundl j => exact .of_placed (placed_indexed (op := .roundl) (select_roundl rfl rfl (idxIn_iff.1 hi).2))
  | roundh j => exact .of_placed (placed_indexed (op := .roundh) (select_roundh rfl rfl (idxIn_iff.1 hi)))
  | cfeed => exact .of_placed (placed_cfeed s)
  | dser => exact .of_placed (placed_enterAt (select_dser rfl rfl))
  | dhex => exact .of_placed (placed_dhex s)
  | finish => exact .of_placed (placed_enterAt (select_finish rfl rfl))
  | _ => exact executesNext_alu rfl s

/-- Settles O36: what the decoder gives is well formed, and a well-formed operation placed executes next. -/
theorem aPlacedTableWordIsExecutedNext : Obligations.APlacedTableWordIsExecutedNext := by
  intro s nbits w i hd
  have hp : s.withFetchWord nbits w = s.placeFor i := by rw [State.withFetchWord, State.placeTableWord, hd]
  rw [hp]
  exact executesNext_placeFor (wellFormed_of_decodeTableWord hd) s

end Sys2Proof.Machine
end

section
/-! SUPPORT. Steps from a legal state: what the issued operation accesses exists (R37, R57), and the sequencer is in a state
with a row (R193), so only the host can have a step refused. -/

namespace Sys2Proof.Machine

variable {s : State} {i : Instr}

/-- In a legal state the issued operation's operands exist: the word in BUF, the block, the bytes of DIGEST. -/
theorem Legal.ready (L : Legal s) (hi : Issues s i) : Ready s i where
  word := by
    rintro j rfl
    cases hi with
    | wload _ hp _ _ hj =>
      obtain ⟨⟨-, -, hlen⟩, hblk, -⟩ := (stageLegal_sched hp).1 L.stage
      rw [messageWord_isSome]
      omega
  blocks := by
    rintro rfl
    cases hi with
    | cfeed hp =>
      obtain ⟨-, hblk, -⟩ := (stageLegal_compress hp).1 L.stage
      exact hblk
  digest := by
    rintro rfl
    cases hi with
    | dhex hp h1 =>
      obtain ⟨-, -, -, ⟨h0, -⟩ | ⟨-, hd, -⟩ | ⟨h2, -⟩⟩ := (stageLegal_format hp).1 L.stage
      · omega
      · exact Option.isSome_of_eq_some hd
      · omega

/-- R193 rows 3 to 8 cover every TPOS up to N. -/
theorem select_encode_ne_outside (hp : s.seq.phase = .encode) (h : s.tpos ≤ s.text.length) : select s ≠ .outside := by
  rcases Nat.eq_or_lt_of_le h with he | hlt
  · rw [select_encend hp he]; nofun
  · rw [select_encode hp, selectEncode_unit (List.getElem?_eq_getElem hlt)]
    split
    · nofun
    · nofun
    · nofun
    · split <;> nofun

/-- R193 covers every legal state. -/
theorem Legal.select_ne_outside (L : Legal s) : select s ≠ .outside := by
  have stage := L.stage
  cases hp : s.seq.phase with
  | idle | done | faulted => rw [select_quiet (by rw [hp]; rfl)]; nofun
  | encode =>
    obtain ⟨-, -, hpos, -⟩ := (stageLegal_encode hp).1 stage
    exact select_encode_ne_outside hp hpos
  | pad =>
    obtain ⟨-, -, -, -, ⟨h0, -⟩ | ⟨h1, -⟩⟩ := (stageLegal_pad hp).1 stage
    · rw [select_pad80 hp h0]; nofun
    · by_cases hm : s.buf.length % 64 = 56
      · rw [select_padlen hp h1 hm]; nofun
      · rw [select_padz hp h1 hm]; nofun
  | sched =>
    obtain ⟨-, -, -, -, ⟨h0, hj⟩ | ⟨h1, hj⟩ | ⟨h2, hj⟩⟩ := (stageLegal_sched hp).1 stage
    · rw [select_wload hp h0 hj]; nofun
    · rw [select_wexp hp h1 hj]; nofun
    · rw [select_wprime hp h2 hj]; nofun
  | compress =>
    obtain ⟨-, -, -, -, ⟨h0, -⟩ | ⟨h1, hj⟩ | ⟨h2, -⟩⟩ := (stageLegal_compress hp).1 stage
    · rw [select_cinit hp h0]; nofun
    · rcases Nat.lt_or_ge s.seq.idx 16 with hl | hl
      · rw [select_roundl hp h1 (Nat.le_of_lt_succ hl)]; nofun
      · rw [select_roundh hp h1 ⟨hl, hj⟩]; nofun
    · rw [select_cfeed hp h2]; nofun
  | format =>
    obtain ⟨-, -, -, ⟨h0, -⟩ | ⟨h1, -⟩ | ⟨h2, -⟩⟩ := (stageLegal_format hp).1 stage
    · rw [select_dser hp h0]; nofun
    · rw [select_dhex hp h1]; nofun
    · rw [select_finish hp h2]; nofun

/-- From a legal state the engine's own move answers a next state. -/
theorem Legal.engineStep_completes (L : Legal s) : ∃ t, Machine.engineStep s = .next t := by
  cases hs : select s with
  | quiet => exact ⟨s, engineStep_quiet hs⟩
  | issue i =>
    have hi := issues_of_select hs
    rw [engineStep_issue hs]
    exact hi.completes (L.ready hi)
  | raise cause info => exact ⟨_, engineStep_raise hs⟩
  | outside => exact absurd hs L.select_ne_outside

/-- R82: the ALU codes the decoder rejects are the reserved ones. -/
theorem reserved_of_decode_alu {c : AluCode} {why : DecodeError} (h : decode (.alu c) = .rejected why) :
    0xD ≤ c.fn.toNat := by
  simp only [decode, decodeAlu] at h
  split at h
  -- The last arm is that of the codes without a row.
  case h_14 => simp only [imp_false] at *; omega
  all_goals cases h

/-- A presented ALU code completes, or is reserved and refused; the rest of the state has no say. -/
theorem aluPortStep_completes_or_refused (c : AluCode) (s : State) :
    (∃ t, aluPortStep c s = .next t) ∨ (aluPortStep c s = .refused .reservedFunction ∧ 0xD ≤ c.fn.toNat) := by
  cases hd : decode (.alu c) with
  | instr i =>
    obtain ⟨x, hx⟩ := exec_of_decode_alu hd s
    exact .inl ⟨_, by rw [aluPortStep, hd]; exact hx⟩
  | rejected why => exact .inr ⟨by rw [aluPortStep, hd], reserved_of_decode_alu hd⟩

/-- From a legal state a step the outside has a part in completes, or is TEXT written during a call and is refused. -/
theorem Legal.hostStep_completes_or_refused (L : Legal s) (e : HostEvent) :
    (∃ t, hostStep e s = .next t) ∨
      (hostStep e s = .refused .textWriteWhileBusy ∧ s.busy = true ∧ ∃ units, e = .writeText units) := by
  cases e with
  | wait => exact .inl L.engineStep_completes
  | hash =>
    cases hb : s.seq.phase.isBusy with
    | true => rw [hostStep_hash_busy hb]; exact .inl L.engineStep_completes
    | false => exact .inl ⟨_, hostStep_hash_idle hb⟩
  | writeText units =>
    cases hb : s.seq.phase.isBusy with
    | true => exact .inr ⟨hostStep_writeText_busy hb, L.flags.1.trans hb, units, rfl⟩
    | false => exact .inl ⟨_, hostStep_writeText_idle hb⟩
  | hardReset => exact .inl ⟨_, rfl⟩

/-- Settles O44: the ALU port by its code, the script by its head, the engine because R193 covers a legal state and what it
issues there has its operands. -/
theorem legalStatesStepOn : Obligations.LegalStatesStepOn := by
  intro s L
  cases ha : s.aluReq with
  | some c =>
    rw [step_alu ha]
    rcases aluPortStep_completes_or_refused c s with hn | ⟨hr, hc⟩
    · exact .inl hn
    · exact .inr (.inr ⟨hr, c, rfl, hc⟩)
  | none =>
    cases hh : s.host with
    | nil => rw [step_quiet_host ha hh]; exact .inl L.engineStep_completes
    | cons e rest =>
      rw [step_host ha hh]
      rcases (L.setHost rest).hostStep_completes_or_refused e with hn | ⟨hr, hb, units, rfl⟩
      · exact .inl hn
      · exact .inr (.inl ⟨hr, hb, units, rest, rfl⟩)

end Sys2Proof.Machine
end

section
/-! SUPPORT. BUF across a step (R52, R38): START apart, what an operation does to BUF is to append, and after PADLEN none
writes it. -/

namespace Sys2Proof.Machine

variable {s t : State} {i : Instr}

/-- R52 of one step: BUF is appended to, and after PADLEN it is constant. -/
def BufGrows (s t : State) : Prop :=
  (∃ bs, t.buf = s.buf ++ bs) ∧
    (s.seq.phase = .sched ∨ s.seq.phase = .compress ∨ s.seq.phase = .format ∨ s.seq.phase = .done → t.buf = s.buf)

/-- A BUF that stays as it is grows by nothing. -/
theorem BufGrows.of_eq (h : t.buf = s.buf) : BufGrows s t := ⟨⟨[], by rw [h, List.append_nil]⟩, fun _ => h⟩

/-- An operation that is issued appends to BUF, if it does not leave it as it is. -/
theorem Issues.buf_appended (hi : Issues s i) (he : Effect s i t) : ∃ bs, t.buf = s.buf ++ bs := by
  cases hw : writes i .buf with
  | false =>
    have hb : s.buf = t.buf := he.agree_of_not_writes .buf hw
    exact ⟨[], by rw [← hb, List.append_nil]⟩
  | true =>
    cases hi with
    | enc1 | enc2 | enc3 | pad80 | padz | padlen => cases he; exact ⟨_, rfl⟩
    | enc4 =>
      cases he with
      | enc4 => exact ⟨_, rfl⟩
      | enc4_raise => exact ⟨[], (List.append_nil _).symm⟩
    | _ => cases hw

/-- R38: the operations of SCHED, COMPRESS and FORMAT do not write BUF. -/
theorem Issues.not_writes_buf (hi : Issues s i) (he : s.seq.phase ≠ .encode) (hp : s.seq.phase ≠ .pad) :
    writes i .buf = false := by
  cases hi with
  | enc1 _ h | enc2 _ h | enc3 _ h | enc4 _ _ h | encend h => exact absurd h he
  | pad80 h | padz h | padlen h => exact absurd h hp
  | _ => rfl

theorem BufGrows.of_issued (hi : Issues s i) (he : Effect s i t) : BufGrows s t := by
  refine ⟨hi.buf_appended he, fun hq => ?_⟩
  have hw : writes i .buf = false := by
    rcases hq with h | h | h | h <;> exact hi.not_writes_buf (by rw [h]; nofun) (by rw [h]; nofun)
  exact (he.agree_of_not_writes .buf hw).symm

/-- A move of the engine: R216 has a fault write nothing of BUF. -/
theorem BufGrows.of_engineStep (h : engineStep s = .next t) : BufGrows s t := by
  rcases engineStep_cases h with ⟨-, rfl⟩ | ⟨i, hs, he⟩ | ⟨cause, info, -, rfl⟩
  · exact .of_eq rfl
  · exact .of_issued (issues_of_select hs) (effect_of_exec he)
  · exact .of_eq rfl

/-- R195: a command accepted between calls is START. -/
theorem issuedAt_hash_idle {rest : List HostEvent} (ha : s.aluReq = none) (hh : s.host = .hash :: rest)
    (hb : s.seq.phase.isBusy = false) : issuedAt s = some .start := by
  simp only [issuedAt, ha, hh, hb, Bool.false_eq_true, if_false]

/-- Settles O46: of the kinds of step only a move of the engine reaches BUF, START and a hardware reset apart. -/
theorem bufIsOnlyAppendedTo : Obligations.BufIsOnlyAppendedTo := by
  intro s t h hstart hreset
  rcases step_cases h with ⟨c, i, -, hd, he⟩ | ⟨ha, ⟨rest, -, he⟩ | ⟨rest, hh, hb, -⟩ | ⟨units, rest, -, -, rfl⟩ |
    ⟨rest, hh, -⟩⟩
  · obtain ⟨x, hx⟩ := exec_of_decode_alu hd s
    obtain rfl := Host.Outcome.next.inj (hx.symm.trans he)
    exact BufGrows.of_eq rfl
  · exact BufGrows.of_engineStep (s := s.setHost rest) he
  · exact absurd (issuedAt_hash_idle ha hh hb) hstart
  · exact BufGrows.of_eq rfl
  · exact absurd hh (hreset rest)

end Sys2Proof.Machine
end

section
/-! SUPPORT. Between calls, and what the host reads of DIGEST and HEX (R67, R196). -/

namespace Sys2Proof.Machine

variable {s : State}

/-- Between calls the engine stays as it is (R193 row 2). -/
theorem engineStep_idle (hb : s.seq.phase.isBusy = false) : engineStep s = .next s := engineStep_quiet (select_quiet hb)

/-- While `DONE` = 0 the host reads nothing of DIGEST and HEX (log entry 4). -/
theorem hostDigest_of_not_done (h : s.done = false) : s.hostDigest = none := if_neg (by rw [h]; decide)

theorem hostHex_of_not_done (h : s.done = false) : s.hostHex = none := if_neg (by rw [h]; decide)

/-- Settles O40: between calls the engine is quiet, and TEXT is no part of what the host reads of a result. -/
theorem aResultStaysUntilTheNextCommand : Obligations.AResultStaysUntilTheNextCommand := by
  refine ⟨fun s ha hb => ⟨fun hh => ?_, fun rest hh => ?_, fun units rest hh => ?_⟩,
    fun s hd => ⟨hostDigest_of_not_done hd, hostHex_of_not_done hd⟩⟩
  · rw [step_quiet_host ha hh]
    exact engineStep_idle hb
  · rw [step_host ha hh]
    exact engineStep_idle (s := s.setHost rest) hb
  · rw [step_host ha hh]
    exact ⟨_, hostStep_writeText_idle (s := s.setHost rest) hb, rfl, rfl, rfl, rfl⟩

end Sys2Proof.Machine
end

section
/-! SUPPORT. The decoder and the encoder against each other, and the operation map row by row (R78 to R80, R82). -/

namespace Sys2Proof

variable {op code : BitVec 5} {idx : BitVec 7} {scw : BitVec 12} {i k : Instr}

/-! ## What the decoder gives back (R78, R79) -/

/-- The decoder reads the two fields the encoder puts together. -/
theorem decode_seq_scwOf (op : BitVec 5) (idx : BitVec 7) : decode (.seq (scwOf op idx)) = decodeOp op idx := by
  rw [decode, decodeSeq, opOf_scwOf, idxOf_scwOf]

/-- A row without an index. -/
theorem decode_encode_of_plainOp (he : encode i = .seq (scwOf op 0)) (hd : decodeOp op 0 = plainOp op 0 i) :
    decode (encode i) = .instr i := by
  rw [he, decode_seq_scwOf, hd, plainOp, if_pos rfl]

/-- A row with an index in its range. -/
theorem decode_encode_of_indexedOp (hi : i.wellFormed = true) (he : encode i = .seq (scwOf op idx))
    (hd : decodeOp op idx = indexedOp op idx i) : decode (encode i) = .instr i := by
  rw [he, decode_seq_scwOf, hd, indexedOp, if_pos hi]

/-- Settles O1: an operation without an index, one with an index, and an ALU function, each by its row. -/
theorem decodeOfEncodeIsTheOperation : Obligations.DecodeOfEncodeIsTheOperation := by
  intro i hi
  cases i with
  | wload | wexp | wprime | roundl | roundh => exact decode_encode_of_indexedOp hi rfl rfl
  | add32 | xor32 | and32 | or32 | not32 | rotl32 | p0 | p1 | ff0 | ff1 | gg0 | gg1 | tj => rfl
  | _ => exact decode_encode_of_plainOp rfl rfl

/-! ## What a control word that decodes is (R78, R82) -/

/-- A row without an index, `code` being the row's `op`: only `idx` 0 decodes. -/
theorem encode_of_plainOp (he : encode i = .seq (scwOf code 0)) (hop : op.toNat = code.toNat)
    (h : plainOp op idx i = .instr k) : encode k = .seq (scwOf op idx) := by
  unfold plainOp at h
  split at h
  · next hz => cases h; rw [he, hz, BitVec.eq_of_toNat_eq hop]
  · cases h

/-- A row with an index, `code` being the row's `op`. -/
theorem encode_of_indexedOp (he : encode i = .seq (scwOf code idx)) (hop : op.toNat = code.toNat)
    (h : indexedOp op idx i = .instr k) : encode k = .seq (scwOf op idx) := by
  unfold indexedOp at h
  split at h
  · cases h; rw [he, BitVec.eq_of_toNat_eq hop]
  · cases h

/-- What the upper table of R80 decodes to has the code it was decoded from. -/
theorem encode_of_decodeOp (h : decodeOp op idx = .instr i) : encode i = .seq (scwOf op idx) := by
  unfold decodeOp at h
  split at h
  -- The rows with an index, and the reserved `op`, as in `wellFormed_of_decodeOp`.
  case h_10 hop | h_11 hop | h_12 hop | h_14 hop | h_15 hop => exact encode_of_indexedOp rfl (by exact hop) h
  case h_20 => cases h
  all_goals next hop => exact encode_of_plainOp rfl (by exact hop) h

/-- Settles O2: the operation of a row, put together again from the word's own fields. -/
theorem controlWordsHaveOneMeaning : Obligations.ControlWordsHaveOneMeaning := by
  intro scw i h
  have he : encode i = .seq (scwOf (opOf scw) (idxOf scw)) := encode_of_decodeOp h
  exact ⟨wellFormed_of_decode h, by rw [he, scwOf_opOf_idxOf]⟩

/-! ## The operation map (R80) -/

/-- A control word decodes to exactly the well-formed operation whose code it is. -/
theorem decode_seq_iff : decode (.seq scw) = .instr i ↔ i.wellFormed = true ∧ .seq scw = encode i := by
  constructor
  · intro h
    obtain ⟨hi, he⟩ := controlWordsHaveOneMeaning scw i h
    exact ⟨hi, he.symm⟩
  · rintro ⟨hi, he⟩
    rw [he]
    exact decodeOfEncodeIsTheOperation i hi

/-- R80: "SCW value = `op`·128 + `idx`". -/
theorem eq_scwOf_iff : scw = scwOf op idx ↔ scw.toNat = 128 * op.toNat + idx.toNat := by
  rw [← BitVec.toNat_inj, scwOf_toNat]

/-- Settles O3: a control word by the code of each operation, an ALU code by the decoder's rows. -/
theorem codesFollowTheOperationMap : Obligations.CodesFollowTheOperationMap := by
  refine ⟨fun scw i => ?_, fun c i => ?_⟩
  · rw [decode_seq_iff]
    cases i with
    | wload | wexp | wprime | roundl | roundh =>
      -- The row's index is the operation's own: its equation is brought to the outside of the row's conjunction.
      simp [encode, Instr.wellFormed, idxIn_iff, eq_scwOf_iff, ← and_assoc, exists_eq_right']
    | add32 | xor32 | and32 | or32 | not32 | rotl32 | p0 | p1 | ff0 | ff1 | gg0 | gg1 | tj => simp [encode]
    | _ => simp [encode, Instr.wellFormed, scwOf]
  · simp only [decode, decodeAlu, ← BitVec.toNat_inj]
    split
    -- The last arm is that of the codes without a row.
    case h_14 => simp_all
    all_goals next hf => simp [hf, eq_comm]

/-- Settles O4: by evaluation. -/
theorem sampleWordsDecode : Obligations.SampleWordsDecode :=
  ⟨rfl, rfl, rfl, rfl, rfl, rfl, rfl⟩

/-- R82: an ALU code without a row is rejected; the converse of `reserved_of_decode_alu`. -/
theorem decode_alu_reserved {c : AluCode} (h : 0xD ≤ c.fn.toNat) :
    decode (.alu c) = .rejected (.reservedFn c.fn) := by
  simp only [decode, decodeAlu]
  split
  case h_14 => rfl
  all_goals omega

end Sys2Proof

namespace Sys2Proof.Machine

variable {s : State} {j : BitVec 7}

/-! ## Reserved operands (R82, U7) -/

theorem execWload_reserved (h : 15 < j.toNat) : execWload j s = .refused .reservedIndex := dif_neg (by omega)

theorem execWexp_reserved (h : j.toNat < 16 ∨ 67 < j.toNat) : execWexp j s = .refused .reservedIndex :=
  dif_neg (by omega)

theorem execWprime_reserved (h : 63 < j.toNat) : execWprime j s = .refused .reservedIndex := dif_neg (by omega)

theorem execRoundl_reserved (h : 15 < j.toNat) : execRoundl j s = .refused .reservedIndex := dif_neg (by omega)

theorem execRoundh_reserved (h : j.toNat < 16 ∨ 63 < j.toNat) : execRoundh j s = .refused .reservedIndex :=
  dif_neg (by omega)

/-- Settles O33: each operation tests its own range; the ALU port refuses what the decoder rejects. -/
theorem reservedOperandsAreRefused : Obligations.ReservedOperandsAreRefused := by
  intro s j
  refine ⟨fun h => ⟨execWload_reserved h, execRoundl_reserved h⟩, execWexp_reserved, execWprime_reserved,
    execRoundh_reserved, fun c hc ha => ?_⟩
  rw [step_alu ha, aluPortStep, decode_alu_reserved hc]

/-- Settles O37: an ALU function answers its value and takes the request back. -/
theorem aPresentedAluCodeIsExecutedNext : Obligations.APresentedAluCodeIsExecutedNext := by
  intro s c i ha hd
  have hs : step s = exec i s := by rw [step_alu ha, aluPortStep, hd]
  obtain ⟨x, hx⟩ := exec_of_decode_alu hd s
  exact ⟨hs, s.answerAlu x, hs.trans hx, rfl⟩

end Sys2Proof.Machine
end

section
/-! SUPPORT. The ALU functions by their rules (R101 to R113), and the selection by round index (R114). -/

namespace Sys2Proof.Machine

/-! ## Rotation (R106) -/

@[simp] theorem rotl_zero (x : Word) : rotl x 0 = x := by
  apply BitVec.eq_of_getLsbD_eq
  intro k hk
  rw [rotl_getLsbD x 0 hk, show (k + 32 - 0 % 32) % 32 = k by omega]

theorem rotl_mod (x : Word) (n : Nat) : rotl x (n % 32) = rotl x n := by rw [rotl, Nat.mod_mod, ← rotl]

/-- Settles O5: the codes by the decoder's rows, the rotation by its laws, the others by the bit vectors' own. -/
theorem basicAluFunctionsFollowTheirRules : Obligations.BasicAluFunctionsFollowTheirRules := by
  refine ⟨fun _ _ _ _ _ => ⟨rfl, rfl, rfl, rfl, rfl, rfl⟩, fun x y => ⟨BitVec.toNat_add x y, ?xor, ?and, ?or,
    BitVec.toNat_not, fun n h1 h => rotl_toNat x h1 h, rotl_zero x, fun n => (rotl_mod x n).symm,
    fun a b _ _ => rotl_rotl x a b⟩⟩
  case xor => exact fun k _ => BitVec.getLsbD_xor
  case and => exact fun k _ => BitVec.getLsbD_and
  case or => exact fun k _ => BitVec.getLsbD_or

/-! ## P0, the majority and the choice (R107, R110, R112) -/

/-- R107, by the linearity of each rotation, as `p1_xor`. -/
theorem p0_xor (x y : Word) : p0 (xor32 x y) = xor32 (p0 x) (p0 y) := by
  simp only [p0, rotl_xor]
  simp only [xor32]; ac_rfl

theorem ff1_comm (x y z : Word) : ff1 x y z = ff1 y x z := by
  simp only [ff1, or32, and32]; ac_rfl

theorem ff1_right_comm (x y z : Word) : ff1 x y z = ff1 x z y := by
  simp only [ff1, or32, and32]; ac_rfl

/-- R112 bit by bit. -/
theorem gg1_getLsbD (x y z : Word) {k : Nat} (hk : k < 32) :
    (gg1 x y z).getLsbD k = if x.getLsbD k then y.getLsbD k else z.getLsbD k := by
  simp only [gg1, or32, and32, not32, BitVec.getLsbD_or, BitVec.getLsbD_and, BitVec.getLsbD_not, hk]
  cases x.getLsbD k <;> simp

/-- R112: the two AND terms of the choice never share a one bit. -/
theorem choice_terms_disjoint (x y z : Word) : (x &&& y) &&& (~~~x &&& z) = 0#32 := by
  calc (x &&& y) &&& (~~~x &&& z) = (x &&& ~~~x) &&& (y &&& z) := by ac_rfl
    _ = 0#32 := by simp

/-- Words without a common one bit have the same XOR as OR; for the sum this is `BitVec.add_eq_or_of_and_eq_zero`. -/
theorem xor_eq_or_of_and_eq_zero {x y : Word} (h : x &&& y = 0#32) : x ^^^ y = x ||| y := by
  apply BitVec.eq_of_getLsbD_eq
  intro k _
  have hk : (x.getLsbD k && y.getLsbD k) = false := by rw [← BitVec.getLsbD_and, h]; exact BitVec.getLsbD_zero
  rw [BitVec.getLsbD_xor, BitVec.getLsbD_or]
  revert hk
  cases x.getLsbD k <;> simp

/-- R112 with XOR for OR. -/
theorem gg1_eq_xor (x y z : Word) : gg1 x y z = (x &&& y) ^^^ (~~~x &&& z) :=
  (xor_eq_or_of_and_eq_zero (choice_terms_disjoint x y z)).symm

/-- R112 with ADD32 for OR. -/
theorem gg1_eq_add (x y z : Word) : gg1 x y z = (x &&& y) + (~~~x &&& z) :=
  (BitVec.add_eq_or_of_and_eq_zero _ _ (choice_terms_disjoint x y z)).symm

/-! ## The round index (R113, R114) -/

section
variable {j : Nat}

theorem tConst_low (h : j ≤ 15) : tConst j = 0x79CC4519 := if_pos h
theorem tConst_high (h : 16 ≤ j) : tConst j = 0x7A879D8A := if_neg (Nat.not_le_of_lt h)
theorem ff_low (h : j ≤ 15) : ff j = ff0 := by funext x y z; exact if_pos h
theorem ff_high (h : 16 ≤ j) : ff j = ff1 := by funext x y z; exact if_neg (Nat.not_le_of_lt h)
theorem gg_low (h : j ≤ 15) : gg j = gg0 := by funext x y z; exact if_pos h
theorem gg_high (h : 16 ≤ j) : gg j = gg1 := by funext x y z; exact if_neg (Nat.not_le_of_lt h)

end

/-- Settles O6: the codes by the decoder's rows; P0 and P1 by rotations, GG1 because its two terms are disjoint. -/
theorem roundAndScheduleFunctionsFollowTheirRules : Obligations.RoundAndScheduleFunctionsFollowTheirRules :=
  ⟨fun _ _ _ _ _ => ⟨rfl, rfl, rfl, rfl, rfl, rfl, rfl⟩,
    fun x y => ⟨p0_eq x, p0_xor x y⟩,
    fun x y => ⟨p1_eq x, p1_xor x y⟩,
    fun _ _ _ => ⟨rfl, rfl⟩,
    fun x y z => ⟨rfl, ff1_comm x y z, ff1_right_comm x y z⟩,
    fun x y z _ hk => gg1_getLsbD x y z hk,
    fun x y z => ⟨rfl, gg1_eq_xor x y z, gg1_eq_add x y z⟩,
    fun _ h => tConst_low h, fun _ h _ => tConst_high h⟩

/-- Settles O7: each side of the boundary by the function selected there. -/
theorem functionsSwitchBetweenRounds15And16 : Obligations.FunctionsSwitchBetweenRounds15And16 := by
  refine fun x y z j => ⟨fun h => ?low, fun h _ => ?high⟩
  case low => rw [ff_low h, gg_low h]; exact ⟨rfl, rfl, tConst_low h⟩
  case high => rw [ff_high h, gg_high h]; exact ⟨rfl, rfl, tConst_high h⟩

end Sys2Proof.Machine
end

section
/-! SUPPORT. The byte encoder: the bytes of each operation (R121 to R127), and the encoder as a function of TEXT, its
lengths (R129) and the code-point view (R128). -/

namespace Sys2Proof.Machine

/-! ## The operations -/

/-- Settles O9: the class by the unit's value, the bytes by their bit fields. -/
theorem enc123AppendTheUnitsBytes : Obligations.Enc123AppendTheUnitsBytes := by
  refine ⟨rfl, rfl, rfl, fun s u hu => ⟨fun h => ?enc1, fun h1 h2 => ?enc2, fun h1 h2 => ?enc3⟩⟩
  case enc1 =>
    rw [← form1_eq]
    exact encodeUnit_next form1 hu ((classify_oneByte_iff u).2 h)
  case enc2 =>
    rw [← form2_eq u h2]
    exact encodeUnit_next form2 hu ((classify_twoByte_iff u).2 ⟨h1, h2⟩)
  case enc3 =>
    rw [← form3_eq]
    exact encodeUnit_next form3 hu ((classify_threeByte_iff u).2 ⟨h1, h2⟩)

/-- Admission under either policy at once (R126, R127): there is a next unit, and `strict` tests both halves. -/
theorem pairLow_eq_some_iff {p : SurrogatePolicy} {u lo : CodeUnit} {next : Option CodeUnit} :
    pairLow p u next = some lo ↔ next = some lo ∧
      (p = .strict → (0xD800 ≤ u.toNat ∧ u.toNat ≤ 0xDBFF) ∧ 0xDC00 ≤ lo.toNat ∧ lo.toNat ≤ 0xDFFF) := by
  cases p with
  | strict => simp [pairLow_strict]
  | blind => simp

/-- Settles O10: the model's test of a pair is the policy's; the code point by R73, its bytes by their bit fields. -/
theorem enc4EncodesAdmittedPairsAndRejectsTheRest : Obligations.Enc4EncodesAdmittedPairsAndRejectsTheRest := by
  refine ⟨rfl, fun s hi hu h1 h2 => ?_⟩
  have hc : classify hi = .surrogate := (classify_surrogate_iff hi).2 ⟨h1, h2⟩
  refine ⟨fun lo hlo hstrict cp hcp => ?admitted, fun h => ?rejected⟩
  case admitted =>
    have hp : pairLow s.cfg.policy hi s.text[s.tpos + 1]? = some lo :=
      pairLow_eq_some_iff.2 ⟨hlo, fun hs => ⟨⟨h1, (hstrict hs).1⟩, (hstrict hs).2⟩⟩
    rw [← form4_eq, hcp, ← pairPoint_eq]
    exact execEnc4_pair hu hc hp
  case rejected =>
    refine execEnc4_raise hu hc (Option.eq_none_iff_forall_ne_some.2 fun lo hp => ?_)
    obtain ⟨hlo, hadm⟩ := pairLow_eq_some_iff.1 hp
    obtain ⟨hs, hbad⟩ := h lo hlo
    obtain ⟨⟨-, hhi⟩, hlow⟩ := hadm hs
    exact hbad ⟨hhi, hlow⟩

/-- Settles O11: both sides of MAX_LEN. -/
theorem encendLatchesTheLengthOrRaisesLenRange : Obligations.EncendLatchesTheLengthOrRaisesLenRange :=
  ⟨rfl, fun _ ht => ⟨execEncend_next ht, execEncend_raise ht⟩⟩

/-! ## The length of an encoding (R129) -/

section
variable {p : SurrogatePolicy} {r : Encoded} {n k : Nat} {bs : List Byte}

@[simp] theorem form1_length (cp : Nat) : (form1 cp).length = 1 := rfl
@[simp] theorem form2_length (cp : Nat) : (form2 cp).length = 2 := rfl
@[simp] theorem form3_length (cp : Nat) : (form3 cp).length = 3 := rfl
@[simp] theorem form4_length (cp : Nat) : (form4 cp).length = 4 := rfl

/-- R129's bounds: where `n` units are encoded, into 1 to 3 bytes for each unit. -/
def LengthBounded (n : Nat) (r : Encoded) : Prop := ∀ msg, r = .bytes msg → n ≤ msg.length ∧ msg.length ≤ 3 * n

theorem LengthBounded.after (h : LengthBounded n r) (h1 : k ≤ bs.length) (h3 : bs.length ≤ 3 * k) :
    LengthBounded (n + k) (r.after bs) := by
  intro msg hm
  obtain ⟨cs, hr, rfl⟩ := after_eq_bytes.1 hm
  have := h cs hr
  rw [List.length_append]; omega

/-- A pair takes two units and gives four bytes; every other character takes one unit and gives at most three. -/
theorem encodeFrom_lengthBounded (p : SurrogatePolicy) (pos : Nat) (text : List CodeUnit) :
    LengthBounded text.length (encodeFrom p pos text) := by
  induction pos, text using text_induction p with
  | nil pos => intro msg hm; cases hm; exact ⟨Nat.le_refl _, Nat.zero_le _⟩
  | one pos u rest hc ih => rw [encodeFrom_oneByte hc]; exact ih.after (by simp) (by simp)
  | two pos u rest hc ih => rw [encodeFrom_twoByte hc]; exact ih.after (by simp) (by simp)
  | three pos u rest hc ih => rw [encodeFrom_threeByte hc]; exact ih.after (by simp) (by simp)
  | pair pos u next lo rest hc hlo ih => rw [encodeFrom_pair hc hlo]; exact ih.after (k := 2) (by simp) (by simp)
  | bad pos u rest hc hlo => rw [encodeFrom_bad hc hlo]; nofun

/-- Units below 0x80 are encoded element by element. -/
theorem encodeFrom_sevenBit {text : List CodeUnit} (h : ∀ u ∈ text, u.toNat < 0x80) (pos : Nat) :
    encodeFrom p pos text = .bytes (text.map fun u => u.extractLsb' 0 8) := by
  induction text generalizing pos with
  | nil => rfl
  | cons u rest ih =>
    obtain ⟨hu, hrest⟩ := List.forall_mem_cons.1 h
    rw [encodeFrom_oneByte ((classify_oneByte_iff u).2 hu), ih hrest, form1_eq]; rfl

end

/-- Settles O12: the bounds character by character, the 7-bit text unit by unit. -/
theorem encodedLengthIsBetweenNAnd3N : Obligations.EncodedLengthIsBetweenNAnd3N := by
  intro p text msg hm
  obtain ⟨hlow, hhigh⟩ := encodeFrom_lengthBounded p 0 text msg hm
  exact ⟨hlow, hhigh, fun h7 => Encoded.bytes.inj (hm.symm.trans (encodeFrom_sevenBit h7 0))⟩

/-! ## The code-point view (R128) -/

section
variable {cp : Nat}

theorem isScalar_iff : isScalar cp = true ↔ cp < 0xD800 ∨ 0xE000 ≤ cp ∧ cp < 0x110000 := by
  simp [isScalar]

theorem formOf_one (h : cp < 0x80) : formOf cp = form1 cp := if_pos h

theorem formOf_two (h1 : 0x80 ≤ cp) (h2 : cp < 0x800) : formOf cp = form2 cp := by
  rw [formOf, if_neg (Nat.not_lt.2 h1), if_pos h2]

theorem formOf_three (h1 : 0x800 ≤ cp) (h2 : cp < 0x10000) : formOf cp = form3 cp := by
  rw [formOf, if_neg (by omega), if_neg (Nat.not_lt.2 h1), if_pos h2]

theorem formOf_four (h : 0x10000 ≤ cp) : formOf cp = form4 cp := by
  rw [formOf, if_neg (by omega), if_neg (by omega), if_neg (Nat.not_lt.2 h)]

/-- The high half of a code point's pair. -/
def highUnit (cp : Nat) : CodeUnit := BitVec.ofNat 16 (0xD800 + ((cp - 0x10000) >>> 10))

/-- The low half of a code point's pair. -/
def lowUnit (cp : Nat) : CodeUnit := BitVec.ofNat 16 (0xDC00 + ((cp - 0x10000) &&& 0x3FF))

theorem unitsOf_single (h : cp < 0x10000) : unitsOf cp = [BitVec.ofNat 16 cp] := if_pos h

theorem unitsOf_pair (h : 0x10000 ≤ cp) : unitsOf cp = [highUnit cp, lowUnit cp] := if_neg (Nat.not_lt.2 h)

theorem highUnit_toNat (h : cp < 0x110000) : (highUnit cp).toNat = 0xD800 + (cp - 0x10000) / 0x400 := by
  rw [highUnit, BitVec.toNat_ofNat, Nat.shiftRight_eq_div_pow]; omega

theorem lowUnit_toNat (cp : Nat) : (lowUnit cp).toNat = 0xDC00 + (cp - 0x10000) % 0x400 := by
  rw [lowUnit, BitVec.toNat_ofNat, show 0x3FF = 2 ^ 10 - 1 from rfl, Nat.and_two_pow_sub_one_eq_mod]; omega

theorem classify_highUnit (h : cp < 0x110000) : classify (highUnit cp) = .surrogate := by
  rw [classify_surrogate_iff, highUnit_toNat h]; omega

/-- The pair of a code point is admitted under either policy. -/
theorem pairLow_units (p : SurrogatePolicy) (h : cp < 0x110000) :
    pairLow p (highUnit cp) (some (lowUnit cp)) = some (lowUnit cp) := by
  refine pairLow_eq_some_iff.2 ⟨rfl, fun _ => ?_⟩
  rw [highUnit_toNat h, lowUnit_toNat]; omega

/-- R73 undoes the split into two units. -/
theorem pairPoint_units (h1 : 0x10000 ≤ cp) (h2 : cp < 0x110000) : pairPoint (highUnit cp) (lowUnit cp) = cp := by
  rw [pairPoint_eq, highUnit_toNat h2, lowUnit_toNat]; omega

/-- One code point's units at the head of a text are encoded to its form: the class of the unit, or of the pair's first
unit, is that of the form. -/
theorem encodeFrom_unitsOf (p : SurrogatePolicy) (pos : Nat) (rest : List CodeUnit) (h : isScalar cp = true) :
    encodeFrom p pos (unitsOf cp ++ rest) = (encodeFrom p (pos + (unitsOf cp).length) rest).after (formOf cp) := by
  rw [isScalar_iff] at h
  by_cases hsingle : cp < 0x10000
  · have hu : (BitVec.ofNat 16 cp).toNat = cp := (BitVec.toNat_ofNat cp 16).trans (Nat.mod_eq_of_lt hsingle)
    rw [unitsOf_single hsingle]
    by_cases h1 : cp < 0x80
    · have hc := (classify_oneByte_iff (BitVec.ofNat 16 cp)).2 (by omega)
      rw [formOf_one h1, List.singleton_append, encodeFrom_oneByte hc, hu]; rfl
    · by_cases h2 : cp < 0x800
      · have hc := (classify_twoByte_iff (BitVec.ofNat 16 cp)).2 (by omega)
        rw [formOf_two (Nat.not_lt.1 h1) h2, List.singleton_append, encodeFrom_twoByte hc, hu]; rfl
      · have hc := (classify_threeByte_iff (BitVec.ofNat 16 cp)).2 (by omega)
        rw [formOf_three (Nat.not_lt.1 h2) hsingle, List.singleton_append, encodeFrom_threeByte hc, hu]; rfl
  · have hpair : 0x10000 ≤ cp := Nat.not_lt.1 hsingle
    have hcp : cp < 0x110000 := by omega
    rw [unitsOf_pair hpair, formOf_four hpair]
    have henc := encodeFrom_pair (pos := pos) (rest := rest) (classify_highUnit hcp) (pairLow_units p hcp)
    rwa [pairPoint_units hpair hcp] at henc

/-- The code-point view, from any index of TEXT on. -/
theorem encodeFrom_flatMap_unitsOf (p : SurrogatePolicy) {cps : List Nat} (h : ∀ cp ∈ cps, isScalar cp = true)
    (pos : Nat) : encodeFrom p pos (cps.flatMap unitsOf) = .bytes (cps.flatMap formOf) := by
  induction cps generalizing pos with
  | nil => rfl
  | cons cp cps ih =>
    obtain ⟨hcp, hcps⟩ := List.forall_mem_cons.1 h
    rw [List.flatMap_cons, encodeFrom_unitsOf p pos _ hcp, ih hcps, List.flatMap_cons]; rfl

end

/-- Settles O13: one code point at a time. -/
theorem encoderRecoversTheCodePointView : Obligations.EncoderRecoversTheCodePointView :=
  fun p _ h => encodeFrom_flatMap_unitsOf p h 0

end Sys2Proof.Machine
end

section
/-! SUPPORT. The padding stage: the bytes of each operation (R141 to R143), the padded length in closed form (R144), and
the length field as a number (R145). -/

namespace Sys2Proof.Machine

/-- Settles O15: each operation under its condition; the length field byte by byte. -/
theorem paddingOperationsAppendTheirBytes : Obligations.PaddingOperationsAppendTheirBytes := by
  refine ⟨rfl, rfl, rfl, fun s => ⟨rfl, execPadz_next, fun hm bits hbits => ?padlen⟩⟩
  case padlen =>
    rw [← beBytes_eight, hbits]
    exact execPadlen_next hm

/-! ## The padded length (R140, R144) -/

/-- The zero bytes reach the length field's place in the marker's own block where that block has room. -/
theorem zeroCount_of_le {l : Nat} (h : l % 64 ≤ 55) : zeroCount l = 55 - l % 64 := by
  rw [zeroCount]; omega

/-- Otherwise they fill the marker's block and reach the length field's place in the next. -/
theorem zeroCount_of_gt {l : Nat} (h : 55 < l % 64) : zeroCount l = 119 - l % 64 := by
  rw [zeroCount]; omega

theorem zeroCount_le (l : Nat) : zeroCount l ≤ 63 := Nat.le_of_lt_succ (Nat.mod_lt _ (by decide))

/-- R74: marker and zero bytes end where the length field begins. -/
theorem add_zeroCount_mod (l : Nat) : (l + 1 + zeroCount l) % 64 = 56 := by
  by_cases h : l % 64 ≤ 55
  · rw [zeroCount_of_le h]; omega
  · rw [zeroCount_of_gt (Nat.lt_of_not_le h)]; omega

@[simp] theorem padding_length (l : Nat) : (padding l).length = 1 + zeroCount l + 8 := by
  simp [padding]; omega

/-- R144: the number of blocks, by the room in the marker's block. -/
theorem paddedLength_div (l : Nat) : (l + 1 + zeroCount l + 8) / 64 = l / 64 + if l % 64 ≤ 55 then 1 else 2 := by
  split
  · next h => rw [zeroCount_of_le h]; omega
  · next h => rw [zeroCount_of_gt (Nat.lt_of_not_le h)]; omega

/-- Settles O16: the residue and the range of the zero count give the least multiple. -/
theorem paddedLengthIsTheLeastMultipleOf64 : Obligations.PaddedLengthIsTheLeastMultipleOf64 := by
  intro msg n hn
  have hlen : n = msg.length + 1 + zeroCount msg.length + 8 := by
    rw [hn, List.length_append, padding_length]; omega
  have hk := zeroCount_le msg.length
  have hmod := add_zeroCount_mod msg.length
  have hmultiple : n % 64 = 0 := by omega
  have hblocks : n / 64 = msg.length / 64 + if msg.length % 64 ≤ 55 then 1 else 2 := by
    rw [hlen, paddedLength_div]
  exact ⟨hmultiple, by omega, by omega, hlen, hblocks, by omega, padding_length _, hk, hmod⟩

/-! ## The length field as a number (R56, R145) -/

/-- The most significant byte of a big-endian image stands first. -/
theorem beBytes_succ (n v : Nat) : beBytes (n + 1) v = BitVec.ofNat 8 (v / 256 ^ n) :: beBytes n v := by
  simp only [beBytes, List.range_succ_eq_map, List.map_cons, List.map_map]
  congr 1
  refine List.map_congr_left fun k _ => ?_
  have hk : n + 1 - 1 - (k + 1) = n - 1 - k := by omega
  rw [Function.comp_apply, Nat.succ_eq_add_one, hk]

/-- MemRead undoes the big-endian image up to the wrap at `n` bytes (R56). -/
theorem memRead_beBytes (n v : Nat) : memRead (beBytes n v) 0 n = some (v % 256 ^ n) := by
  induction n with
  | zero => simp [memRead, Nat.mod_one]
  | succ n ih =>
    have htail : memRead (beBytes (n + 1) v) (0 + 1) n = some (v % 256 ^ n) := by
      rw [beBytes_succ, ← ih]
      exact memRead_append [_] (beBytes n v) 0 n
    have hhead : (beBytes (n + 1) v)[0]? = some (BitVec.ofNat 8 (v / 256 ^ n)) := by rw [beBytes_succ]; rfl
    have hvalue : v / 256 ^ n % 256 * 256 ^ n + v % 256 ^ n = v % 256 ^ (n + 1) := by
      rw [Nat.mod_pow_succ (b := 256) (k := n), Nat.add_comm, Nat.mul_comm]
    simp only [memRead, hhead, htail, BitVec.toNat_ofNat]
    exact congrArg some hvalue

/-- Settles O17: eight bytes wrap at 2^64, which 8·L does not reach. -/
theorem lengthFieldHoldsTheExactBitLength : Obligations.LengthFieldHoldsTheExactBitLength := by
  intro pre l hl
  have hfit : 8 * l < 256 ^ 8 := by omega
  calc memRead (pre ++ lengthField l) pre.length 8
      = memRead (beBytes 8 (8 * l)) 0 8 := memRead_append pre (lengthField l) 0 8
    _ = some (8 * l % 256 ^ 8) := memRead_beBytes 8 (8 * l)
    _ = some (8 * l) := by rw [Nat.mod_eq_of_lt hfit]

end Sys2Proof.Machine
end

section
/-! SUPPORT. The message scheduler: the operations by their rules (R151 to R153), and the linearity of a block's schedule
over XOR (V-SCH-3), list by list. -/

namespace Sys2Proof

/-- R80: a control word counts from the word of its `op` at index 0. -/
theorem scwOf_eq_add (op : BitVec 5) (idx : BitVec 7) : scwOf op idx = scwOf op 0 + idx.setWidth 12 := by
  apply BitVec.eq_of_toNat_eq
  have hzero : (0 : BitVec 7).toNat = 0 := rfl
  rw [BitVec.toNat_add, scwOf_toNat, scwOf_toNat, BitVec.toNat_setWidth, hzero]
  omega

end Sys2Proof

namespace Sys2Proof.Machine

/-! ## The operations -/

/-- Settles O18: the four bytes are the word of the block. -/
theorem wloadLoadsOneMessageWord : Obligations.WloadLoadsOneMessageWord :=
  ⟨fun j => congrArg Code.seq (scwOf_eq_add 0x0A j),
    fun _ _ _ _ _ _ hj h0 h1 h2 h3 => execWload_next hj (messageWord_eq h0 h1 h2 h3)⟩

/-- R152 with the bit vectors' own operations. -/
theorem expandWord_eq (w16 w9 w3 w13 w6 : Word) {x : Word} (hx : x = w16 ^^^ w9 ^^^ w3.rotateLeft 15) :
    expandWord w16 w9 w3 w13 w6 = (x ^^^ x.rotateLeft 15 ^^^ x.rotateLeft 23) ^^^ w13.rotateLeft 7 ^^^ w6 := by
  rw [expandWord, rotl_eq w3 (by decide), rotl_eq w13 (by decide), ← p1_eq, hx]
  simp only [xor32]

/-- Settles O19: the formula on the five words before. -/
theorem wexpExpandsOneWord : Obligations.WexpExpandsOneWord := by
  refine ⟨fun j => congrArg Code.seq (scwOf_eq_add 0x0B j), fun s j w16 w13 w9 w6 w3 x h1 h2 h16 h13 h9 h6 h3 hx => ?_⟩
  rw [← expandWord_eq w16 w9 w3 w13 w6 hx, ← vec_get h16 (by omega), ← vec_get h13 (by omega),
    ← vec_get h9 (by omega), ← vec_get h6 (by omega), ← vec_get h3 (by omega)]
  exact execWexp_next ⟨h1, h2⟩

/-- Settles O20: the two words of W. -/
theorem wprimeXorsTwoWords : Obligations.WprimeXorsTwoWords := by
  refine ⟨fun j => congrArg Code.seq (scwOf_eq_add 0x0C j), fun s j a b hj ha hb => ?_⟩
  rw [← vec_get ha (by omega), ← vec_get hb (by omega)]
  exact execWprime_next hj

/-! ## Linearity over XOR (V-SCH-3) -/

/-- The XOR of two lists, element by element. -/
abbrev xorLists {n : Nat} (u v : List (BitVec n)) : List (BitVec n) := List.zipWith (· ^^^ ·) u v

/-- The XOR of two words is that of their bytes. -/
theorem xor_bytes (a0 a1 a2 a3 b0 b1 b2 b3 : Byte) :
    (a0 ^^^ b0) ++ (a1 ^^^ b1) ++ (a2 ^^^ b2) ++ (a3 ^^^ b3) = (a0 ++ a1 ++ a2 ++ a3) ^^^ (b0 ++ b1 ++ b2 ++ b3) := by
  rw [BitVec.xor_append, BitVec.xor_append, BitVec.xor_append]

/-- R75: the words of a block are its bytes put together, so they are linear. -/
theorem wordsOf_xorLists {a b : List Byte} (h : a.length = b.length) :
    wordsOf (xorLists a b) = xorLists (wordsOf a) (wordsOf b) := by
  induction a using wordsOf.induct generalizing b with
  | case1 a0 a1 a2 a3 as ih =>
    match b, h with
    | b0 :: b1 :: b2 :: b3 :: bs, h =>
      have hrest : as.length = bs.length := by simpa only [List.length_cons, Nat.add_right_cancel_iff] using h
      exact List.cons_eq_cons.2 ⟨xor_bytes a0 a1 a2 a3 b0 b1 b2 b3, ih hrest⟩
  | case2 as hshort =>
    have hnil : wordsOf as = [] := by rw [wordsOf]; exact hshort
    have hlen : as.length / 4 = 0 := by rw [← wordsOf_length, hnil]; rfl
    have hxor : wordsOf (xorLists as b) = [] := by
      apply List.eq_nil_of_length_eq_zero
      rw [wordsOf_length, List.length_zipWith, ← h, Nat.min_self, hlen]
    rw [hxor, hnil, xorLists, List.zipWith_nil_left]

section
variable {u v : List Word}

/-- Beyond the end both lists read 0, and so does their XOR. -/
theorem xorLists_getD (h : u.length = v.length) (k : Nat) :
    (xorLists u v).getD k 0 = xor32 (u.getD k 0) (v.getD k 0) := by
  simp only [List.getD_eq_getElem?_getD, xorLists, List.getElem?_zipWith]
  by_cases hk : k < u.length
  · rw [List.getElem?_eq_getElem hk, List.getElem?_eq_getElem (h ▸ hk)]
    exact rfl
  · rw [List.getElem?_eq_none (Nat.not_lt.1 hk), List.getElem?_eq_none (h ▸ Nat.not_lt.1 hk)]
    exact BitVec.xor_self.symm

theorem xorLists_concat (h : u.length = v.length) (x y : Word) :
    xorLists (u ++ [x]) (v ++ [y]) = xorLists u v ++ [xor32 x y] :=
  List.zipWith_append h

/-- R152: each new word is linear in five words before it. -/
theorem expandBy_xorLists (n : Nat) (h : u.length = v.length) :
    expandBy n (xorLists u v) = xorLists (expandBy n u) (expandBy n v) := by
  induction n generalizing u v with
  | zero => rfl
  | succ n ih =>
    have hlen : (xorLists u v).length = u.length := by rw [List.length_zipWith, ← h, Nat.min_self]
    simp only [expandBy, hlen, xorLists_getD h, expandWord_xor, ← h]
    rw [← ih (by rw [List.length_append, List.length_append, h]; rfl), xorLists_concat h]

/-- R153: each word of W′ is the XOR of two words of W. -/
theorem scheduleWp_xorLists (h : u.length = v.length) :
    scheduleWp (xorLists u v) = xorLists (scheduleWp u) (scheduleWp v) := by
  simp only [scheduleWp, xorLists_getD h, xorLists, List.zipWith_map, List.zipWith_self]
  refine List.map_congr_left fun j _ => ?_
  simp only [xor32]; ac_rfl

end

/-- V-SCH-3 for W: loading, then expansion. -/
theorem scheduleW_xorLists {a b : List Byte} (h : a.length = b.length) :
    scheduleW (xorLists a b) = xorLists (scheduleW a) (scheduleW b) := by
  rw [scheduleW, wordsOf_xorLists h, expandBy_xorLists 52 (by rw [wordsOf_length, wordsOf_length, h])]; rfl

/-- Settles O21: W by loading and expansion, W′ from W. -/
theorem scheduleIsLinearOverXor : Obligations.ScheduleIsLinearOverXor := by
  intro a b ha hb
  have hW := scheduleW_xorLists (ha.trans hb.symm)
  have hlen : (scheduleW a).length = (scheduleW b).length := by rw [scheduleW_length ha, scheduleW_length hb]
  exact ⟨hW, (congrArg scheduleWp hW).trans (scheduleWp_xorLists hlen), scheduleW_length ha⟩

end Sys2Proof.Machine
end

section
/-! SUPPORT. The compression core: the round by its rule (R162), and its operations (R161, R163 to R165). -/

namespace Sys2Proof.Machine

/-- Settles O22: the operation has no condition, and what it writes to A..H is V word by word. -/
theorem cinitCopiesTheChainingValue : Obligations.CinitCopiesTheChainingValue :=
  ⟨rfl, fun _ => rfl⟩

/-! ## The round (R162) -/

section
variable {f g : Word → Word → Word → Word} {t : Word} {j : Nat} {r : Work} {wj wpj : Word}

/-- SS1 with the bit vectors' own operations; the constant's amount is reduced once. -/
theorem ss1_eq : ss1 t j r = (r.a.rotateLeft 12 + r.e + t.rotateLeft (j % 32)).rotateLeft 7 := by
  rw [ss1, rotl_mod]; rfl

/-- R162 line by line: the round assigns at once what its intermediate values, named as in the rule, say. -/
theorem roundWork_eq {a12 s1 s2 t1 t2 : Word} (ha12 : a12 = r.a.rotateLeft 12)
    (hs1 : s1 = (a12 + r.e + t.rotateLeft (j % 32)).rotateLeft 7) (hs2 : s2 = s1 ^^^ a12)
    (ht1 : t1 = f r.a r.b r.c + r.d + s2 + wpj) (ht2 : t2 = g r.e r.f r.g + r.h + s1 + wj) :
    roundWork f g t j r wj wpj =
      { a := t1, b := r.a, c := r.b.rotateLeft 9, d := r.c, e := t2 ^^^ t2.rotateLeft 9 ^^^ t2.rotateLeft 17, f := r.e,
        g := r.f.rotateLeft 19, h := r.g } := by
  have hss1 : s1 = ss1 t j r := by rw [hs1, ha12, ss1_eq]
  have hss2 : s2 = ss2 t j r := by rw [hs2, hss1, ha12]; rfl
  have htt1 : t1 = tt1 f t j r wpj := by rw [ht1, hss2]; rfl
  have htt2 : t2 = tt2 g t j r wj := by rw [ht2, hss1]; rfl
  rw [htt1, htt2, ← p0_eq]; rfl

end

/-! ## The operations -/

/-- Settles O23: the round with the functions and the constant of the indices up to 15, never the last round. -/
theorem roundlIsARoundOfTheFirstKind : Obligations.RoundlIsARoundOfTheFirstKind := by
  refine ⟨fun j => congrArg Code.seq (scwOf_eq_add 0x0E j),
    fun s j wj wpj a12 s1 s2 t1 t2 hj hw hwp ha12 hs1 hs2 ht1 ht2 => ?_⟩
  have hwork := roundWork_eq (f := ff0) (g := gg0) ha12 hs1 hs2 ht1 ht2
  have hseq : seqAfterRound j.toNat = ⟨.compress, 1, j.toNat + 1⟩ := if_pos (by omega)
  rw [← hwork, ← hseq, ← ff_low hj, ← gg_low hj, ← tConst_low hj, ← vec_get hw (by omega), ← vec_get hwp (by omega)]
  exact execRoundl_next hj

/-- Settles O24: the round with the functions and the constant of the indices from 16 on. -/
theorem roundhIsARoundOfTheSecondKind : Obligations.RoundhIsARoundOfTheSecondKind := by
  refine ⟨fun j => congrArg Code.seq (scwOf_eq_add 0x0F j),
    fun s j wj wpj a12 s1 s2 t1 t2 hlow hhigh hw hwp ha12 hs1 hs2 ht1 ht2 => ?_⟩
  have hwork := roundWork_eq (f := ff1) (g := gg1) ha12 hs1 hs2 ht1 ht2
  rw [← hwork, ← ff_high hlow, ← gg_high hlow, ← tConst_high hlow, ← vec_get hw (by omega), ← vec_get hwp (by omega)]
  exact execRoundh_next ⟨hlow, hhigh⟩

/-- Settles O25: the feedback writes the eight XORs, and BLK + 1 ≤ NBLK is the operation's own condition. -/
theorem cfeedXorsTheEntryValueBack : Obligations.CfeedXorsTheEntryValueBack :=
  ⟨rfl, fun _ h => execCfeed_next h⟩

end Sys2Proof.Machine
end

section
/-! SUPPORT. The digest formatter: the operations index by index (R181, R182), and the two images told apart (R183). -/

namespace Sys2Proof.Machine

/-! ## A run of bytes written from index 0 -/

section
variable {m : Memory} {bs : List Byte} {k : Nat}

theorem read_writeBytes_zero_of_some {b : Byte} (h : bs[k]? = some b) : (m.writeBytes 0 bs).read k = some b := by
  have hk : k < bs.length := (List.getElem?_eq_some_iff.1 h).1
  rw [read_writeBytes, if_pos ⟨Nat.zero_le k, by omega⟩]
  exact h

theorem read_writeBytes_zero_of_le (h : bs.length ≤ k) : (m.writeBytes 0 bs).read k = m.read k := by
  rw [read_writeBytes, if_neg (by omega)]

end

/-! ## The operations -/

/-- R181: byte `k` of the word at `i` stands at 4·i + k of the digest. -/
theorem digestOf_of_word {v : Vector Word 8} {i k : Nat} {x : Word} {b : Byte} (hx : v[i]? = some x) (hk : k < 4)
    (hb : (beBytes 4 x.toNat)[k]? = some b) : (digestOf v)[4 * i + k]? = some b := by
  rw [digestOf_getElem? v i hk, hx]
  exact hb

/-- R182: digit `k` of the byte at `i` stands at 2·i + k of the rendering. -/
theorem hexImage_of_byte {ds : List Byte} {i k : Nat} {b c : Byte} (hb : ds[i]? = some b) (hk : k < 2)
    (hc : (hexPair b)[k]? = some c) : (hexImage ds)[2 * i + k]? = some c := by
  rw [hexImage_getElem? ds i hk, hb]
  exact hc

/-- Settles O26: DSER writes the 32 bytes of the digest as one run, and word `i` gives the four bytes from 4·i. -/
theorem dserStoresTheRegistersBigEndian : Obligations.DserStoresTheRegistersBigEndian := by
  refine ⟨rfl, fun s => ⟨_, execDser_next s, fun i x hx => ?bytes, fun a ha => ?beyond⟩⟩
  case bytes =>
    have slice {k : Nat} {b : Byte} (hk : k < 4) (hb : (beBytes 4 x.toNat)[k]? = some b) :=
      read_writeBytes_zero_of_some (m := s.digest) (digestOf_of_word hx hk hb)
    rw [beBytes_word] at slice
    exact ⟨slice (k := 0) (by decide) rfl, slice (k := 1) (by decide) rfl, slice (k := 2) (by decide) rfl,
      slice (k := 3) (by decide) rfl⟩
  case beyond => exact read_writeBytes_zero_of_le (by rwa [digestOf_length])

/-- Settles O27: the 32 bytes are read, and DHEX writes their 64 digits as one run, two for each byte. -/
theorem dhexRendersUpperCaseHighNibbleFirst : Obligations.DhexRendersUpperCaseHighNibbleFirst := by
  refine ⟨rfl, fun s ds hlen hread => ?_⟩
  have hds : s.digest.readBytes 0 32 = some ds :=
    readBytes_eq_some_iff.2 ⟨hlen, fun k hk => by rw [Nat.zero_add, hread k hk]⟩
  refine ⟨_, execDhex_next hds, fun k b hb hi lo hhi hlo => ?digits, fun a ha => ?beyond⟩
  case digits =>
    rw [← hexDigit_eq, ← hexDigit_eq, hhi, hlo]
    exact ⟨read_writeBytes_zero_of_some (hexImage_of_byte hb (k := 0) (by decide) rfl),
      read_writeBytes_zero_of_some (hexImage_of_byte hb (k := 1) (by decide) rfl)⟩
  case beyond => exact read_writeBytes_zero_of_le (by rwa [hexImage_length, hlen])

/-! ## Images told apart (R183) -/

/-- MemRead gives the word back from its image. -/
theorem beBytes_word_inj {x y : Word} (h : beBytes 4 x.toNat = beBytes 4 y.toNat) : x = y := by
  have hread := congrArg (memRead · 0 4) h
  simp only [memRead_beBytes, Option.some.injEq] at hread
  apply BitVec.eq_of_toNat_eq
  omega

/-- The codes of the ten figures lie below the codes of the six letters. -/
theorem hexDigit_toNat {n : Nat} (h : n < 16) : (hexDigit n).toNat = if n ≤ 9 then 48 + n else 55 + n := by
  rw [hexDigit_eq, BitVec.toNat_ofNat]
  split <;> omega

theorem hexDigit_inj {n k : Nat} (hn : n < 16) (hk : k < 16) (h : hexDigit n = hexDigit k) : n = k := by
  have hcode := congrArg BitVec.toNat h
  rw [hexDigit_toNat hn, hexDigit_toNat hk] at hcode
  split at hcode <;> split at hcode <;> omega

/-- The two digits of a byte are its nibbles. -/
theorem hexPair_inj {b c : Byte} (h : hexPair b = hexPair c) : b = c := by
  simp only [hexPair, List.cons.injEq, and_true] at h
  obtain ⟨hhigh, hlow⟩ := h
  have hdiv := hexDigit_inj (by omega) (by omega) hhigh
  have hmod := hexDigit_inj (by omega) (by omega) hlow
  apply BitVec.eq_of_toNat_eq
  omega

/-- Settles O28: both images put together pieces of one length, four bytes for a word and two digits for a byte. -/
theorem digestAndHexAreInjective : Obligations.DigestAndHexAreInjective := by
  refine ⟨fun v v' h => ?digest, fun ds ds' h => ?hex⟩
  case digest =>
    exact Vector.toList_inj.1
      (flatMap_inj (c := 4) (by decide) (fun _ => beBytes_length _ _) (fun _ _ => beBytes_word_inj) h)
  case hex => exact flatMap_inj (c := 2) (by decide) (fun _ => rfl) (fun _ _ => hexPair_inj) h

end Sys2Proof.Machine
end

section
/-! SUPPORT. The transition table of the sequencer (R193) and the host's moves (R195, R67): which operation a step is,
and where the sequencer is after it. -/

namespace Sys2Proof.Machine

variable {s t : State} {i : Instr}

/-! ## The host's moves -/

/-- A step takes the head of the script (log entry 5). -/
theorem step_setHost (ha : s.aluReq = none) (e : HostEvent) (rest : List HostEvent) :
    step (s.setHost (e :: rest)) = hostStep e (s.setHost rest) := step_host ha rfl

/-- Settles O38: a step takes the head of the script, and whether a move of the host is accepted is read from PHASE. -/
theorem hostMovesAreAcceptedOnlyBetweenCalls : Obligations.HostMovesAreAcceptedOnlyBetweenCalls := by
  intro s rest units ha
  have head := step_setHost ha
  refine ⟨head .wait rest, step_quiet_host ha rfl, fun hb => ⟨?startAccepted, ?textPlaced⟩,
    fun hb => ⟨?commandIgnored, ?textRefused⟩⟩
  case startAccepted => exact (head .hash rest).trans (hostStep_hash_idle hb)
  case textPlaced => exact (head (.writeText units) rest).trans (hostStep_writeText_idle hb)
  case commandIgnored =>
    have ignored : hostStep .hash (s.setHost rest) = engineStep (s.setHost rest) := hostStep_hash_busy hb
    exact (head .hash rest).trans (ignored.trans (head .wait rest).symm)
  case textRefused => exact (head (.writeText units) rest).trans (hostStep_writeText_busy hb)

/-! ## START and FINISH (R191, R192) -/

/-- Settles O29: START's effect, field by field. -/
theorem startInitialisesTheCall : Obligations.StartInitialisesTheCall :=
  ⟨rfl, fun _ => ⟨_, exec_of_effect .start, rfl, rfl, rfl, rfl, rfl, rfl, rfl, rfl, rfl, rfl, rfl, rfl, rfl, rfl⟩⟩

/-- Settles O30: FINISH's effect. -/
theorem finishSetsDone : Obligations.FinishSetsDone := ⟨rfl, fun _ => exec_of_effect .finish⟩

/-! ## The transition table (R193) -/

/-- R193's column "next state": where the sequencer is after an operation that raises no fault. An ALU function is no
row of the table and leaves the sequencer where it is. -/
def nextSeq (s : State) : Instr → Seq
  | .start | .enc1 | .enc2 | .enc3 | .enc4 => ⟨.encode, 0, 0⟩
  | .encend => ⟨.pad, 0, 0⟩
  | .pad80 | .padz => ⟨.pad, 1, 0⟩
  | .padlen => ⟨.sched, 0, 0⟩
  | .wload j => seqAfterWload j.toNat
  | .wexp j => seqAfterWexp j.toNat
  | .wprime j => seqAfterWprime j.toNat
  | .cinit => ⟨.compress, 1, 0⟩
  | .roundl j | .roundh j => seqAfterRound j.toNat
  | .cfeed => if s.blk + 1 < s.nblk then ⟨.sched, 0, 0⟩ else ⟨.format, 0, 0⟩
  | .dser => ⟨.format, 1, 0⟩
  | .dhex => ⟨.format, 2, 0⟩
  | .finish => { s.seq with phase := .done }
  | .add32 _ _ | .xor32 _ _ | .and32 _ _ | .or32 _ _ | .not32 _ | .rotl32 _ _ | .p0 _ | .p1 _ | .ff0 _ _ _
  | .ff1 _ _ _ | .gg0 _ _ _ | .gg1 _ _ _ | .tj _ => s.seq

/-- An operation leads to the table's next state or raises a fault. -/
theorem Effect.seq_eq (h : Effect s i t) (hf : t.seq.phase ≠ .faulted) : t.seq = nextSeq s i := by
  cases h with
  | enc4_raise | encend_raise => exact absurd rfl hf
  | _ => rfl

/-- A row of the table, with the outside doing nothing: the step is the selected operation, and after it the sequencer
is at the next state, unless a fault was raised. -/
theorem step_row {q : Seq} (ha : s.aluReq = none) (hh : s.host = []) (hi : select s = .issue i) (hq : nextSeq s i = q) :
    step s = exec i s ∧ ∀ t, step s = .next t → t.seq.phase ≠ .faulted → t.seq = q := by
  have hs : step s = exec i s := (step_quiet_host ha hh).trans (engineStep_issue hi)
  refine ⟨hs, fun t ht hf => ?_⟩
  rw [hs] at ht
  rw [← hq]
  exact (effect_of_exec ht).seq_eq hf

/-- The phases in which no call is in progress (R27). -/
theorem isBusy_of_mem {p : Phase} (h : p ∈ [Phase.idle, .done, .faulted]) : p.isBusy = false := by
  obtain rfl | rfl | rfl : p = .idle ∨ p = .done ∨ p = .faulted := by simpa using h
  all_goals rfl

/-- R193 row 16: a round of the first kind is never the last. -/
theorem seqAfterRound_low {j : Nat} (hj : j ≤ 15) : seqAfterRound j = ⟨.compress, 1, j + 1⟩ := if_pos (by omega)

/-- Settles O35: each row by what the sequencer selects under its condition. -/
theorem sequencerFollowsTheTransitionTable : Obligations.SequencerFollowsTheTransitionTable := by
  intro s ha issues
  refine ⟨fun rest hh hp => ?row1, fun hh => ?rows⟩
  case row1 =>
    have hs : step s = exec .start (s.setHost rest) :=
      (step_host ha hh).trans (hostStep_hash_idle (s := s.setHost rest) (isBusy_of_mem hp))
    refine ⟨hs, fun t ht => ?_⟩
    rw [hs] at ht
    cases effect_of_exec ht with
    | start => rfl
  case rows =>
    have row : ∀ {i : Instr} {q : Seq}, select s = .issue i → nextSeq s i = q → issues i q := step_row ha hh
    have engine : step s = engineStep s := step_quiet_host ha hh
    refine ⟨fun hp => ?row2, fun hp => ⟨fun u hu => ⟨fun h => ?row3, fun h1 h2 => ?row4, fun h1 h2 => ?row5,
      fun h1 h2 => ⟨fun hl => ?row6, fun hl => ?row7⟩⟩, fun h => ?row8⟩, fun hp h => ?row9, fun hp h hm => ?row10,
      fun hp h hm => ?row11, fun j hj => ⟨fun hp h hr => ?row12, fun hp h h1 h2 => ?row13, fun hp h hr => ?row14,
      fun hp h hr => ?row16, fun hp h h1 h2 => ?row17⟩, fun hp h => ?row15, fun hp h hb => ?row18,
      fun hp h hb => ?row19, fun hp h => ?row20, fun hp h => ?row21, fun hp h => ?row22⟩
    case row2 => exact engine.trans (engineStep_idle (isBusy_of_mem hp))
    case row3 => exact row (select_enc1 hp hu ((classify_oneByte_iff u).2 h)) rfl
    case row4 => exact row (select_enc2 hp hu ((classify_twoByte_iff u).2 ⟨h1, h2⟩)) rfl
    case row5 => exact row (select_enc3 hp hu ((classify_threeByte_iff u).2 ⟨h1, h2⟩)) rfl
    case row6 =>
      obtain ⟨lo, hlo⟩ := Option.isSome_iff_exists.1 hl
      exact row (select_enc4 hp hu ((classify_surrogate_iff u).2 ⟨h1, h2⟩) hlo) rfl
    case row7 => exact engine.trans (engineStep_raise (select_raise hp hu ((classify_surrogate_iff u).2 ⟨h1, h2⟩) hl))
    case row8 => exact row (select_encend hp h) rfl
    case row9 => exact row (select_pad80 hp h) rfl
    case row10 => exact row (select_padz hp h hm) rfl
    case row11 => exact row (select_padlen hp h hm) rfl
    case row12 => exact row (select_index (op := .wload) hj (select_wload hp h (by omega))) rfl
    case row13 => exact row (select_index (op := .wexp) hj (select_wexp hp h (by omega))) rfl
    case row14 => exact row (select_index (op := .wprime) hj (select_wprime hp h (by omega))) rfl
    case row15 => exact row (select_cinit hp h) rfl
    case row16 => exact row (select_index (op := .roundl) hj (select_roundl hp h (by omega))) (seqAfterRound_low hr)
    case row17 => exact row (select_index (op := .roundh) hj (select_roundh hp h (by omega))) rfl
    case row18 => exact row (select_cfeed hp h) (if_pos hb)
    case row19 => exact row (select_cfeed hp h) (if_neg (by omega))
    case row20 => exact row (select_dser hp h) rfl
    case row21 => exact row (select_dhex hp h) rfl
    case row22 =>
      obtain ⟨hs, hnext⟩ := row (select_finish hp h) rfl
      refine ⟨hs, fun t ht => ?_⟩
      rw [hs] at ht
      cases effect_of_exec ht with
      | finish => rfl

end Sys2Proof.Machine
end

section
/-! SUPPORT. What the host reads at the end of a call (R196, R197), and its form (R199). -/

namespace Sys2Proof.Machine

variable {s : State} {d h : List Byte}

/-- The host reads a digest exactly where `DONE` = 1 and both spaces are written. -/
theorem observed_eq_digest : s.observed = some (.digest d h) ↔
    s.done = true ∧ s.digest.readBytes 0 32 = some d ∧ s.hex.readBytes 0 64 = some h := by
  cases hd : s.done with
  | false =>
    simp only [State.observed, hd, Bool.false_eq_true, if_false]
    split <;> simp
  | true =>
    simp only [State.observed, State.hostDigest, State.hostHex, hd, if_true]
    cases s.digest.readBytes 0 32 <;> cases s.hex.readBytes 0 64 <;> simp

/-- R216: after a fault is raised the host reads its cause and information. -/
theorem observed_raise (s : State) (cause : BitVec 2) (info : Nat) :
    (s.raise cause info).observed = some (.fault cause info) := rfl

/-- A legal state in which `DONE` = 1 holds a result. -/
theorem Legal.holdsResult_of_done (L : Legal s) (hd : s.done = true) : holdsResult s.digest s.hex := by
  obtain ⟨-, hflag, -⟩ := L.flags
  have hp : s.seq.phase = .done := by simpa [hd] using hflag
  have stage := L.stage
  rwa [StageLegal, hp] at stage

/-- What the host reads of a legal state is 32 bytes and their rendering. -/
theorem Legal.observed_digest (L : Legal s) (ho : s.observed = some (.digest d h)) :
    d.length = 32 ∧ h = hexImage d := by
  obtain ⟨hdone, hd, hh⟩ := observed_eq_digest.1 ho
  obtain ⟨ds, hds, hhs⟩ := L.holdsResult_of_done hdone
  obtain rfl := Option.some.inj (hds.symm.trans hd)
  exact ⟨readBytes_length hds, Option.some.inj (hh.symm.trans hhs)⟩

/-- A digest of the big-step function is 32 bytes and their rendering. -/
theorem hashText_digest {c : Config} {text : List CodeUnit} (hr : hashText c text = .digest d h) :
    d.length = 32 ∧ h = hexImage d := by
  unfold hashText hashBytes at hr
  split at hr
  · split at hr
    · obtain ⟨rfl, rfl⟩ := CallResult.digest.inj hr
      exact ⟨digestOf_length _, rfl⟩
    · cases hr
  · cases hr

/-- R182: a digit is `0`..`9` or `A`..`F`. -/
theorem hexDigit_range {n : Nat} (hn : n < 16) :
    (0x30 ≤ (hexDigit n).toNat ∧ (hexDigit n).toNat ≤ 0x39) ∨
      (0x41 ≤ (hexDigit n).toNat ∧ (hexDigit n).toNat ≤ 0x46) := by
  rw [hexDigit_toNat hn]
  split <;> omega

/-- Every character of a rendering is the digit of a nibble. -/
theorem mem_hexImage {ch : Byte} (hm : ch ∈ hexImage d) : ∃ n, n < 16 ∧ ch = hexDigit n := by
  obtain ⟨b, -, hb⟩ := List.mem_flatMap.1 hm
  obtain rfl | rfl : ch = hexDigit (b.toNat / 16) ∨ ch = hexDigit (b.toNat % 16) := by simpa [hexPair] using hb
  · exact ⟨_, by omega, rfl⟩
  · exact ⟨_, by omega, rfl⟩

/-- Settles O52: both forms of a result are 32 bytes and their rendering, whose characters are digits of nibbles. -/
theorem aResultIsAlways64UpperCaseDigits : Obligations.AResultIsAlways64UpperCaseDigits := by
  refine ⟨fun s L hp => ?shown, fun d h hr => ?form⟩
  case shown =>
    obtain ⟨-, hdone, -⟩ := L.flags
    rw [hp] at hdone
    obtain ⟨ds, hd, hh⟩ := L.holdsResult_of_done hdone
    exact ⟨ds, _, observed_eq_digest.2 ⟨hdone, hd, hh⟩⟩
  case form =>
    have hform : d.length = 32 ∧ h = hexImage d := by
      rcases hr with ⟨s, L, ho⟩ | ⟨c, text, ht⟩
      · exact L.observed_digest ho
      · exact hashText_digest ht
    obtain ⟨hlen, rfl⟩ := hform
    refine ⟨hlen, by rw [hexImage_length, hlen], fun ch hch => ?_⟩
    obtain ⟨n, hn, rfl⟩ := mem_hexImage hch
    exact hexDigit_range hn

end Sys2Proof.Machine
end

section
/-! SUPPORT. The whole call: the stages of a call put together, from the command to its end (R190, R197, R200, R201). -/

namespace Sys2Proof.Machine

variable {s : State} {msg : List Byte}

/-! ## The start of a call (R191) -/

/-- The state in which START leaves the encoder: no command, no text read, nothing encoded. -/
structure Started (c : Config) (text : List CodeUnit) (s : State) : Prop where
  port : s.aluReq = none
  script : s.host = []
  cfg : s.cfg = c
  text : s.text = text
  v : s.v = c.iv
  buf : s.buf = []
  tpos : s.tpos = 0
  seq : s.seq = ⟨.encode, 0, 0⟩

/-- An accepted command starts a call on the parameters and TEXT at hand. -/
theorem started_of_hash (hb : s.seq.phase.isBusy = false) (ha : s.aluReq = none) (hh : s.host = [.hash]) :
    ∃ u, step s = .next u ∧ Started s.cfg s.text u :=
  ⟨_, step_hash ha hh hb, ha, rfl, rfl, rfl, rfl, rfl, rfl, rfl⟩

/-! ## From the encoded message on -/

section
variable {u : State} {n : Nat} {ops : List Instr}

/-- A run that has come to FORMAT goes on to DONE, where the host reads the digest of V. -/
theorem Goes.format_to_done (g : Goes n s u ops) (ha : u.aluReq = none) (hh : u.host = [])
    (hq : u.seq = ⟨.format, 0, 0⟩) :
    ∃ t, Goes (n + 3) s t (ops ++ formatOps) ∧ t.seq.phase = .done ∧
      t.observed = some (.digest (digestOf u.v) (hexImage (digestOf u.v))) := by
  obtain ⟨t, gformat, hp, hdone, hd, hx⟩ := format_run ha hh hq
  exact ⟨t, g.trans gformat, hp, observed_eq_digest.2 ⟨hdone, hd, hx⟩⟩

/-- A run that has come to the first block goes on to FORMAT, with V as the big-step function gives it. -/
theorem Goes.blocks_to_format (g : Goes n s u ops) (ha : u.aluReq = none) (hh : u.host = [])
    (hq : u.seq = ⟨.sched, 0, 0⟩) (hblk : u.blk = 0) (hbuf : u.buf.length = 64 * u.nblk) (hpos : 0 < u.nblk) :
    ∃ t, Goes (n + 198 * u.nblk) s t (ops ++ (List.replicate u.nblk blockOps).flatten) ∧
      t.aluReq = none ∧ t.host = [] ∧ t.seq = ⟨.format, 0, 0⟩ ∧ t.v = hashBlocks u.v u.buf := by
  obtain ⟨b, hb⟩ := Nat.exists_eq_add_one.2 hpos
  obtain ⟨w, wp, r, gblocks⟩ := blocks_run b (by omega) hbuf ha hh hq
  have hv : (List.range' u.blk (b + 1)).foldl (compressBlock u.buf) u.v = hashBlocks u.v u.buf := by
    rw [hashBlocks, hbuf, Nat.mul_div_cancel_left _ (by decide), List.range_eq_range', hblk, hb]
  rw [← hb] at gblocks
  exact ⟨_, g.trans gblocks, ha, hh, rfl, by rw [← hv, ← hb]⟩

/-- R74: padding fills whole blocks, at least one. -/
theorem padded_blocks (msg : List Byte) :
    (msg ++ padding msg.length).length = 64 * ((msg ++ padding msg.length).length / 64) ∧
      0 < (msg ++ padding msg.length).length / 64 := by
  have hmod := add_zeroCount_mod msg.length
  rw [List.length_append, padding_length]
  omega

/-- A run that has come to PAD with the message in BUF goes on to DONE: padding, the blocks, the formatter. -/
theorem Goes.pad_to_done (g : Goes n s u ops) (ha : u.aluReq = none) (hh : u.host = []) (hq : u.seq = ⟨.pad, 0, 0⟩)
    (hbuf : u.buf = msg) (hlen : u.len = msg.length) {ds : List Byte}
    (hds : digestOf (hashBlocks u.v (msg ++ padding msg.length)) = ds) :
    ∃ t, Goes (n + (2 + zeroCount msg.length) + 198 * ((msg ++ padding msg.length).length / 64) + 3) s t
        (ops ++ padOps msg.length ++ (List.replicate ((msg ++ padding msg.length).length / 64) blockOps).flatten
          ++ formatOps) ∧
      t.seq.phase = .done ∧ t.observed = some (.digest ds (hexImage ds)) := by
  have gpad := g.trans (pad_run ha hh hq (by rw [hlen, hbuf]))
  rw [hbuf, hlen] at gpad
  obtain ⟨hbytes, hpos⟩ := padded_blocks msg
  obtain ⟨t, gblocks, ha', hh', hq', hv⟩ := gpad.blocks_to_format ha hh rfl rfl hbytes hpos
  have gformat := gblocks.format_to_done ha' hh' hq'
  rwa [hv, hds] at gformat

/-- A run that has come to a fault ends there, and the host reads the fault's cause and information. -/
theorem Goes.raise_to_end {cause : BitVec 2} {info : Nat} (g : Goes n s u ops) (ha : u.aluReq = none) (hh : u.host = [])
    (he : engineStep u = .next (u.raise cause info)) :
    ∃ m t, Host.Core.run core m s = .next t ∧ t.ended = true ∧ t.observed = some (.fault cause info) :=
  have hs := (step_quiet_host ha hh).trans he
  ⟨n + 1, _, (run_add n 1 g.run).trans (run_succ 0 hs), rfl, observed_raise u cause info⟩

end

/-! ## The call -/

section
variable {c : Config} {text : List CodeUnit}

theorem Started.phase (h : Started c text s) : s.seq.phase = .encode := by rw [h.seq]

theorem hashText_bytes (hm : encodeFrom c.policy 0 text = .bytes msg) : hashText c text = hashBytes c msg := by
  rw [hashText, hm]

theorem hashText_bad {k : Nat} (hm : encodeFrom c.policy 0 text = .bad k) :
    hashText c text = .fault causeEncSurrogate k := by
  rw [hashText, hm]

/-- A text that encodes is encoded to its end, where ENCEND is due. -/
theorem Started.to_encend (h : Started c text s) (hm : encodeFrom c.policy 0 text = .bytes msg) :
    Goes (encodeOps c.policy text).length s { s with buf := msg, tpos := s.text.length } (encodeOps c.policy text) := by
  have g := encode_run (rest := text) h.port h.script h.seq h.tpos (by rw [h.text, List.drop_zero]) (Nat.zero_le _) hm
    (by rw [h.cfg])
  rwa [h.buf, List.nil_append] at g

/-- A call on a text whose encoding is at most `MAX_LEN` bytes long: what it issues after START, and its result. -/
theorem Started.to_done (h : Started c text s) (hm : encodeFrom c.policy 0 text = .bytes msg)
    (hl : msg.length ≤ c.maxLen) :
    ∃ t, Goes ((encodeOps c.policy text).length + 1 + (2 + zeroCount msg.length) +
          198 * ((msg ++ padding msg.length).length / 64) + 3) s t (hashOps c.policy text msg).tail ∧
      t.seq.phase = .done ∧ t.observed = some (hashText c text) := by
  have gencend := (h.to_encend hm).snoc h.port h.script (select_encend h.phase rfl)
    (execEncend_next rfl (by rw [h.cfg]; exact hl))
  obtain ⟨t, g, hp, ho⟩ := gencend.pad_to_done h.port h.script rfl rfl rfl rfl
  refine ⟨t, ?_, hp, ?_⟩
  · simpa [hashOps] using g
  · rw [ho, hashText_bytes hm, hashBytes, if_pos hl, h.v]

/-- Every call ends, with the result of the big-step function. -/
theorem Started.ends (h : Started c text s) :
    ∃ n t, Host.Core.run core n s = .next t ∧ t.ended = true ∧ t.observed = some (hashText c text) := by
  cases hm : encodeFrom c.policy 0 text with
  | bytes msg =>
    by_cases hl : msg.length ≤ c.maxLen
    · obtain ⟨t, g, hp, ho⟩ := h.to_done hm hl
      exact ⟨_, t, g.run, by rw [State.ended, hp]; rfl, ho⟩
    · rw [hashText_bytes hm, hashBytes, if_neg hl]
      refine (h.to_encend hm).raise_to_end h.port h.script (Eq.trans (engineStep_issue (select_encend h.phase rfl)) ?_)
      exact execEncend_raise rfl (by rw [h.cfg]; exact Nat.lt_of_not_le hl)
  | bad k =>
    rw [hashText_bad hm]
    obtain ⟨n, bs, ops, g, hsel⟩ := encode_run_bad (rest := text) h.port h.script h.seq h.tpos
      (by rw [h.text, List.drop_zero]) hm (by rw [h.cfg])
    exact g.raise_to_end h.port h.script (engineStep_raise hsel)

end

/-- Settles O50: START, then the call that START leaves the encoder with. -/
theorem aCallEndsWithTheBigStepResult : Obligations.ACallEndsWithTheBigStepResult := by
  intro s hb ha hh
  obtain ⟨u, hs, h⟩ := started_of_hash hb ha hh
  obtain ⟨n, t, hr, he, ho⟩ := h.ends
  exact ⟨n + 1, t, (run_succ n hs).trans hr, he, ho⟩

/-! ## The count of R201 -/

theorem blockOps_length : blockOps.length = 198 := by
  simp [blockOps, scheduleOps, compressOps, indexed]

/-- R85, R201: the expansion of HASH, counted. -/
theorem hashOps_length (p : SurrogatePolicy) (text : List CodeUnit) (msg : List Byte) :
    (hashOps p text msg).length = (encodeOps p text).length + 1 + (2 + zeroCount msg.length) +
      198 * ((msg ++ padding msg.length).length / 64) + 3 + 1 := by
  simp only [hashOps, padOps, formatOps, List.length_cons, List.length_append, List.length_replicate, List.length_nil,
    List.length_flatten, List.map_replicate, List.sum_replicate_nat, blockOps_length]
  omega

/-- Settles O51: k and NBLK of R201 are the model's, and after START the call is the run to DONE. -/
theorem aCallIssuesTheExpansionOfHash : Obligations.ACallIssuesTheExpansionOfHash := by
  intro s msg hb ha hh hm hl c k nblk n hc hk hmod hblk hn
  obtain ⟨u, hs, h⟩ := started_of_hash hb ha hh
  obtain ⟨t, g, hp, -⟩ := h.to_done hm hl
  have hlen := hashOps_length s.cfg.policy s.text msg
  have hpad : (msg ++ padding msg.length).length / 64 = nblk ∧ zeroCount msg.length = k := by
    have hz := zeroCount_le msg.length
    have hzmod := add_zeroCount_mod msg.length
    rw [List.length_append, padding_length]
    omega
  obtain ⟨hnblk, hz⟩ := hpad
  rw [hnblk, hz, ← hc] at g hlen
  obtain rfl : n = c + 1 + (2 + k) + 198 * nblk + 3 + 1 := by omega
  have hissued : issued (c + 1 + (2 + k) + 198 * nblk + 3 + 1) s = hashOps s.cfg.policy s.text msg := by
    rw [issued_succ _ hs, issuedAt_hash_idle ha hh hb, g.ops]
    rfl
  refine ⟨hissued, by rw [hissued, hlen], ⟨t, (run_succ _ hs).trans g.run, hp⟩, fun m h1 hlt => ?_⟩
  obtain ⟨m, rfl⟩ := Nat.exists_eq_add_one.2 h1
  obtain ⟨v, hv, hvb⟩ := g.busy m (by omega)
  exact ⟨v, (run_succ m hs).trans hv, hvb⟩

end Sys2Proof.Machine
end

section
/-! SUPPORT. Faults (`60_exceptions.md`): where the encoder rejects a text, what raising a fault writes, which
operations raise one, and several engines side by side. -/

namespace Sys2Proof.Machine

/-! ## The rejected unit (R212, R215) -/

section
variable {p : SurrogatePolicy} {pos n : Nat} {text rest cs : List CodeUnit} {bs : List Byte}

/-- The first `n` units of a text encode, and the next is of the surrogate band and starts no admitted pair. -/
structure RejectsAfter (p : SurrogatePolicy) (pos n : Nat) (text : List CodeUnit) : Prop where
  encoded : ∃ msg, encodeFrom p pos (text.take n) = .bytes msg
  rejected : ∃ u, text[n]? = some u ∧ classify u = .surrogate ∧ pairLow p u text[n + 1]? = none

/-- Where the encoder, with the text's first unit at index `pos`, rejects the text, it reports the index of the unit
that `RejectsAfter` describes. -/
def BadIsFirst (p : SurrogatePolicy) (pos : Nat) (text : List CodeUnit) : Prop :=
  ∀ k, encodeFrom p pos text = .bad k → ∃ n, k = pos + n ∧ RejectsAfter p pos n text

/-- Units that encode by themselves may stand in front. -/
theorem RejectsAfter.append (h : RejectsAfter p (pos + cs.length) n rest)
    (hcs : ∀ r, encodeFrom p pos (cs ++ r) = (encodeFrom p (pos + cs.length) r).after bs) :
    RejectsAfter p pos (cs.length + n) (cs ++ rest) where
  encoded := by
    obtain ⟨msg, hm⟩ := h.encoded
    exact ⟨bs ++ msg, by rw [List.take_length_add_append, hcs, hm, Encoded.after]⟩
  rejected := by
    obtain ⟨u, hu, hc, hl⟩ := h.rejected
    have front (k : Nat) : (cs ++ rest)[cs.length + k]? = rest[k]? := by
      rw [List.getElem?_append_right (Nat.le_add_right _ _), Nat.add_sub_cancel_left]
    exact ⟨u, by rw [front, hu], hc, by rw [Nat.add_assoc, front, hl]⟩

theorem BadIsFirst.append (h : BadIsFirst p (pos + cs.length) rest)
    (hcs : ∀ r, encodeFrom p pos (cs ++ r) = (encodeFrom p (pos + cs.length) r).after bs) :
    BadIsFirst p pos (cs ++ rest) := by
  intro k hk
  rw [hcs, after_eq_bad] at hk
  obtain ⟨n, rfl, hn⟩ := h k hk
  exact ⟨cs.length + n, Nat.add_assoc _ _ _, hn.append hcs⟩

/-- R212: the encoder goes on past every unit before the one it rejects. -/
theorem encodeFrom_badIsFirst (p : SurrogatePolicy) (pos : Nat) (text : List CodeUnit) : BadIsFirst p pos text := by
  induction pos, text using text_induction p with
  | nil pos => nofun
  | one pos u rest hc ih => exact ih.append (cs := [u]) fun _ => encodeFrom_oneByte hc
  | two pos u rest hc ih => exact ih.append (cs := [u]) fun _ => encodeFrom_twoByte hc
  | three pos u rest hc ih => exact ih.append (cs := [u]) fun _ => encodeFrom_threeByte hc
  | pair pos u next lo rest hc hlo ih => exact ih.append (cs := [u, next]) fun _ => encodeFrom_pair hc hlo
  | bad pos u rest hc hlo =>
    intro k hk
    rw [encodeFrom_bad hc hlo] at hk
    exact ⟨0, (Encoded.bad.inj hk).symm, ⟨[], rfl⟩, u, rfl, hc, hlo⟩

end

/-- Settles O14: the units before the index encode, and under `strict` the rejected one is of the band and starts no
pair of a high and a low half. -/
theorem theFirstIllFormedUnitIsReported : Obligations.TheFirstIllFormedUnitIsReported := by
  intro text pos hbad
  obtain ⟨n, hn, hmsg, u, hu, hc, hl⟩ := encodeFrom_badIsFirst .strict 0 text pos hbad
  obtain rfl : pos = n := hn.trans (Nat.zero_add n)
  obtain ⟨h1, h2⟩ := (classify_surrogate_iff u).1 hc
  exact ⟨hmsg, u, hu, h1, h2, fun ⟨hhigh, hlow⟩ => (pairLow_strict_none u _).1 hl ⟨⟨h1, hhigh⟩, hlow⟩⟩

/-! ## The entry into a fault (R216) -/

/-- No low half is admitted where every next unit fails the test of `strict`. -/
theorem pairLow_eq_none {p : SurrogatePolicy} {u : CodeUnit} {next : Option CodeUnit}
    (h : ∀ lo, next = some lo → p = .strict ∧ ¬ (u.toNat ≤ 0xDBFF ∧ 0xDC00 ≤ lo.toNat ∧ lo.toNat ≤ 0xDFFF)) :
    pairLow p u next = none := by
  refine Option.eq_none_iff_forall_ne_some.2 fun lo hlo => ?_
  obtain ⟨hnext, hadm⟩ := pairLow_eq_some_iff.1 hlo
  obtain ⟨hs, hbad⟩ := h lo hnext
  obtain ⟨⟨-, hhigh⟩, hlow⟩ := hadm hs
  exact hbad ⟨hhigh, hlow⟩

/-- Settles O31: the sequencer raises cause 1 instead of ENC4, and ENCEND raises cause 2. -/
theorem faultEntryWritesOnlyTheReport : Obligations.FaultEntryWritesOnlyTheReport := by
  intro s ha hh hp
  have hs : step s = engineStep s := step_quiet_host ha hh
  refine ⟨fun u hu h1 h2 hlo => ?surrogate, fun hend hlong => ?lenRange⟩
  case surrogate =>
    exact hs.trans (engineStep_raise (select_raise hp hu ((classify_surrogate_iff u).2 ⟨h1, h2⟩) (pairLow_eq_none hlo)))
  case lenRange =>
    calc step s = engineStep s := hs
      _ = exec .encend s := engineStep_issue (select_encend hp hend)
      _ = .next (s.raise causeLenRange s.buf.length) := execEncend_raise hend hlong

/-! ## The operations that raise (R210) -/

section
variable {s t : State} {i : Instr}

/-- An operation other than START, ENC4 and ENCEND leaves FAULT, CAUSE and FINFO as they are. -/
theorem Effect.report_eq (h : Effect s i t) (h0 : i ≠ .start) (h4 : i ≠ .enc4) (he : i ≠ .encend) :
    t.fault = s.fault ∧ t.cause = s.cause ∧ t.finfo = s.finfo := by
  cases h with
  | start => exact absurd rfl h0
  | enc4 | enc4_raise => exact absurd rfl h4
  | encend | encend_raise => exact absurd rfl he
  | _ => exact ⟨rfl, rfl, rfl⟩

/-- An operation other than ENC4 and ENCEND leaves the sequencer in a phase of the table, or, an ALU function, where it
is. -/
theorem Effect.phase_of_faulted (h : Effect s i t) (h4 : i ≠ .enc4) (he : i ≠ .encend) (hf : t.seq.phase = .faulted) :
    s.seq.phase = .faulted := by
  cases h with
  | enc4 | enc4_raise => exact absurd rfl h4
  | encend | encend_raise => exact absurd rfl he
  | wload j _ hj => exact nomatch (seqAfterWload_place hj).1.symm.trans hf
  | wexp j hj => exact nomatch (seqAfterWexp_place hj).1.symm.trans hf
  | wprime j =>
    unfold seqAfterWprime at hf
    split at hf <;> cases hf
  | roundl j hj => exact nomatch (seqAfterRound_place (Nat.le_trans hj (by decide))).1.symm.trans hf
  | roundh j hj => exact nomatch (seqAfterRound_place hj.2).1.symm.trans hf
  | cfeed =>
    split at hf <;> cases hf
  | start | enc1 | enc2 | enc3 | pad80 | padz | padlen | cinit | dser | dhex | finish => cases hf
  | _ => exact hf

end

/-- Settles O32: by the effects of the operations; START, which clears the report, leaves FAULT 0. -/
theorem onlyEnc4AndEncendRaise : Obligations.OnlyEnc4AndEncendRaise := by
  intro i s t h4 he h
  have heff := effect_of_exec h
  refine ⟨fun hf => ?fault, heff.phase_of_faulted h4 he, fun h0 => (heff.report_eq h0 h4 he).2⟩
  by_cases h0 : i = .start
  · subst h0
    cases heff with
    | start => cases hf
  · rwa [← (heff.report_eq h0 h4 he).1]

/-! ## Several engines (R223) -/

/-- What a move does to the engine that makes it: its step, or nothing where it stops. -/
def State.move (s : State) : State :=
  match step s with
  | .next t => t
  | _ => s

theorem clusterStep_none {k : Nat} {engines : List State} (h : engines[k]? = none) :
    clusterStep k engines = engines := by
  simp only [clusterStep, h]

/-- A move is that of the engine it names, put back in its place. -/
theorem clusterStep_some {k : Nat} {engines : List State} {s : State} (h : engines[k]? = some s) :
    clusterStep k engines = engines.set k s.move := by
  have stays : engines = engines.set k s := by
    obtain ⟨hk, rfl⟩ := List.getElem?_eq_some_iff.1 h
    exact (List.set_getElem_self hk).symm
  cases hs : step s with
  | next t => simp only [clusterStep, h, hs, State.move]
  | fault | refused => simpa only [clusterStep, h, hs, State.move] using stays

/-- A move of engine `k` moves that engine and no other. -/
theorem clusterStep_getElem? (k i : Nat) (engines : List State) :
    (clusterStep k engines)[i]? = if k = i then engines[i]?.map State.move else engines[i]? := by
  cases hs : engines[k]? with
  | none =>
    rw [clusterStep_none hs]
    split
    · next hk => rw [← hk, hs]; rfl
    · rfl
  | some s =>
    rw [clusterStep_some hs, List.getElem?_set']
    split
    · next hk => rw [← hk, hs]; rfl
    · rfl

/-- What an engine has come to after a number of its moves. -/
def State.moves : Nat → State → State
  | 0, s => s
  | n + 1, s => State.moves n s.move

/-- R223: a run of several engines is the product of their own runs: engine `i` makes as many steps as there are moves
with its number. -/
theorem clusterRun_getElem? (ks : List Nat) (i : Nat) (engines : List State) :
    (clusterRun ks engines)[i]? = engines[i]?.map (State.moves (ks.count i)) := by
  induction ks generalizing engines with
  | nil => exact Option.map_id'.symm
  | cons k ks ih =>
    rw [clusterRun, ih, clusterStep_getElem?]
    by_cases hk : k = i
    · subst hk
      rw [if_pos rfl, List.count_cons_self, Option.map_map]
      rfl
    · rw [if_neg hk, List.count_cons_of_ne hk]

/-- Settles O54: the order of the moves does not change how many each engine makes. -/
theorem enginesAreIndependent : Obligations.EnginesAreIndependent := by
  intro engines ks ks' hperm
  refine List.ext_getElem? fun i => ?_
  rw [clusterRun_getElem?, clusterRun_getElem?, hperm.count_eq]

end Sys2Proof.Machine
end

section
/-! SUPPORT. The ends of a call (R240): FINISH, a fault and a hardware reset are the only ways out of it. -/

namespace Sys2Proof.Machine

variable {s t : State} {i : Instr}

/-- R193: FINISH is the only row whose next state leaves the call. -/
theorem Issues.nextSeq_isBusy (h : Issues s i) (hf : i ≠ .finish) : (nextSeq s i).phase.isBusy = true := by
  cases h with
  | finish => exact absurd rfl hf
  | wload _ _ _ _ hj => exact congrArg Phase.isBusy (seqAfterWload_place hj).1
  | wexp _ _ _ _ hj => exact congrArg Phase.isBusy (seqAfterWexp_place hj).1
  | wprime j =>
    simp only [nextSeq, seqAfterWprime]
    split <;> rfl
  | roundl _ _ _ _ hj => exact congrArg Phase.isBusy (seqAfterRound_place (Nat.le_trans hj (by decide))).1
  | roundh _ _ _ _ hj => exact congrArg Phase.isBusy (seqAfterRound_place hj.2).1
  | cfeed =>
    simp only [nextSeq]
    split <;> rfl
  | _ => rfl

/-- A move of the engine out of a call is FINISH or a fault. -/
theorem finish_or_faulted_of_engineStep (h : engineStep s = .next t) (hs : s.seq.phase.isBusy = true)
    (ht : t.seq.phase.isBusy = false) : select s = .issue .finish ∨ t.seq.phase = .faulted := by
  rcases engineStep_cases h with ⟨-, rfl⟩ | ⟨i, hi, he⟩ | ⟨cause, info, -, rfl⟩
  · exact nomatch hs.symm.trans ht
  · refine or_iff_not_imp_right.2 fun hf => ?_
    have hq : t.seq = nextSeq s i := (effect_of_exec he).seq_eq hf
    have hfin : i = .finish := by
      by_contra hne
      have hb : (nextSeq s i).phase.isBusy = true := (issues_of_select hi).nextSeq_isBusy hne
      rw [← hq, ht] at hb
      cases hb
    rw [hi, hfin]
  · exact .inr rfl

/-- Settles O39: a hardware reset clears the flags and the report; of the other kinds of step only a move of the engine
starts in a call and ends in none. -/
theorem hardResetEndsACallWithoutResult : Obligations.HardResetEndsACallWithoutResult := by
  intro s ha
  refine ⟨fun rest hh => ⟨(s.setHost rest).hardReset, step_host ha hh, rfl, rfl, rfl, rfl, rfl, rfl, rfl⟩,
    fun t h hs ht => ?_⟩
  rcases step_cases h with ⟨c, i, hc, -⟩ | ⟨-, ⟨rest, -, he⟩ | ⟨rest, -, hb, -⟩ | ⟨units, rest, -, hb, -⟩ |
    ⟨rest, hh, -⟩⟩
  · exact nomatch ha.symm.trans hc
  · exact .inr (finish_or_faulted_of_engineStep (s := s.setHost rest) he hs ht)
  · exact nomatch hs.symm.trans hb
  · exact nomatch hs.symm.trans hb
  · exact .inl ⟨rest, hh⟩

end Sys2Proof.Machine
end
